-- ==== Sys2Proof/Word.lean ====
section
/-! DEFINITION. The word types: bytes, bit strings, byte strings, the 16-bit command word and the 32-bit CRC word.
Field values are natural numbers (00_scope.md R7), so they need no type of their own. -/

namespace Sys2Proof

/-- One byte; bit 7 is the most significant and the first on the wire (00_scope.md R5). -/
abbrev Byte := BitVec 8

/-- A byte string, first byte first (00_scope.md R6). -/
abbrev Bytes := List Byte

/-- A bit string, first bit first (00_scope.md R8). -/
abbrev Bits := List Bool

/-- The 16-bit command word (30_encoding.md R60). -/
abbrev CmdWord := BitVec 16

/-- The register of the CRC engine (42_crc32.md R150). -/
abbrev CrcWord := BitVec 32

end Sys2Proof
end

