-- ==== Sys2Proof/Config.lean ====
section
/-! DEFINITION. What is fixed for the machine: the hardwired constants of 10_state.md R26 (hardwired also across reset,
70_reset_and_hazards.md R221) and the type of the OPEN parameters of 00_scope.md R4. -/

namespace Sys2Proof.Config

/-- `W_MIN` (00_scope.md R4). -/
def wMin : Nat := 1

/-- `W_MAX` (00_scope.md R4). -/
def wMax : Nat := 64

/-- `TICKS_PER_SECOND` (00_scope.md R4). -/
def ticksPerSecond : Nat := 90000

/-- `PTS_BITS` (00_scope.md R4). -/
def ptsBits : Nat := 33

/-- `TABLE_ID`, 8 bits (10_state.md R26). The spec takes the value from general knowledge: log 13. -/
def tableId : Nat := 0xFC

/-- `SECTION_FLAGS4`, 4 bits (10_state.md R26). The spec takes the value from general knowledge: log 13. -/
def sectionFlags4 : Nat := 0b0011

/-- `PROTOCOL_VERSION`, 8 bits (10_state.md R26). -/
def protocolVersion : Nat := 0

/-- `ENCRYPTED_PACKET`, 1 bit (10_state.md R26). -/
def encryptedPacket : Nat := 0

/-- `ENCRYPTION_ALGORITHM`, 6 bits (10_state.md R26). -/
def encryptionAlgorithm : Nat := 0

/-- `CW_INDEX`, 8 bits (10_state.md R26). -/
def cwIndex : Nat := 0

/-- `DESCRIPTOR_LOOP_LENGTH`, 16 bits (10_state.md R26). -/
def descriptorLoopLength : Nat := 0

/-- `PROGRAM_SPLICE`, 1 bit (10_state.md R26). -/
def programSplice : Nat := 1

/-- `TIME_SPECIFIED`, 1 bit (10_state.md R26). -/
def timeSpecified : Nat := 1

/-- `RESERVED3`, 3 bits (10_state.md R26). -/
def reserved3 : Nat := 0b111

/-- `RESERVED6`, 6 bits (10_state.md R26). -/
def reserved6 : Nat := 0b111111

/-- `DEFAULT_TIER`, 12 bits (10_state.md R26). -/
def defaultTier : Nat := 0xFFF

/-- `DEFAULT_PTS_ADJUSTMENT`, 33 bits (10_state.md R26). -/
def defaultPtsAdjustment : Nat := 0

/-- `CT_SPLICE_INSERT`, 8 bits (10_state.md R26). -/
def ctSpliceInsert : Nat := 0x05

/-- `CT_TIME_SIGNAL`, 8 bits (10_state.md R26). -/
def ctTimeSignal : Nat := 0x06

/-- `CRC_POLY` (10_state.md R26, 42_crc32.md R150). The spec takes the value from general knowledge: log 13. -/
def crcPoly : CrcWord := 0x04C11DB7#32

/-- `CRC_INIT` (10_state.md R26, 42_crc32.md R150). The spec takes the value from general knowledge: log 13. -/
def crcInit : CrcWord := 0xFFFFFFFF#32

/-- `CRC_XOROUT` (10_state.md R26, 42_crc32.md R150). The spec takes the value from general knowledge: log 13. -/
def crcXorOut : CrcWord := 0x00000000#32

/-- The OPEN capacity parameters of 00_scope.md R4; `none` is unbounded. They are data that State carries and no step
writes, so that a statement over every state holds for every value of them (log 5). -/
structure Params where
  /-- `PK_CAPACITY_BITS`. -/
  pkCapacityBits : Option Nat
  /-- `RD_CAPACITY_BYTES`. -/
  rdCapacityBytes : Option Nat
  deriving DecidableEq, Repr

/-- The default 00_scope.md R4 gives: unbounded. -/
def Params.default : Params := { pkCapacityBits := none, rdCapacityBytes := none }

end Sys2Proof.Config
end

