-- ==== Sys2Proof/Syntax.lean ====
section
/-! DEFINITION. The instructions: one constructor for each row of spec/opcode_table.json (30_encoding.md R61, R72, R83), the
codes they are decoded from, and the reasons a code is rejected. -/

namespace Sys2Proof

/-- The operations of the opcode map (30_encoding.md R61) and the two command types of the type map (30_encoding.md R72).
An instruction holds the fields of its CODE; the operands come in the request record (10_state.md R27). -/
inductive Instr where
  /-- BP.INIT (40_bitpacker.md R101) -/
  | bpInit
  /-- BP.WRITE with its width field (40_bitpacker.md R102) -/
  | bpWrite (w : Nat)
  /-- BP.FINISH (40_bitpacker.md R103) -/
  | bpFinish
  /-- BR.LOAD (40_bitpacker.md R104) -/
  | brLoad
  /-- BR.READ with its width field (40_bitpacker.md R105) -/
  | brRead (w : Nat)
  /-- SC.ENC_INSERT (41_splice_command.md R124) -/
  | scEncInsert
  /-- SC.ENC_TSIG (41_splice_command.md R125) -/
  | scEncTsig
  /-- SC.DECODE (41_splice_command.md R131) -/
  | scDecode
  /-- CRC.COMPUTE (42_crc32.md R152) -/
  | crcCompute
  /-- CRC.VERIFY (42_crc32.md R153) -/
  | crcVerify
  /-- SA.ENCODE (43_section_assembler.md R160) -/
  | saEncode
  /-- SA.DECODE (43_section_assembler.md R165) -/
  | saDecode
  /-- the command type splice_insert (30_encoding.md R72; 41_splice_command.md R128) -/
  | spliceInsert
  /-- the command type time_signal (30_encoding.md R72; 41_splice_command.md R129) -/
  | timeSignal
  deriving DecidableEq, Repr

/-- A code of the opcode table: a 16-bit command word, or a command-type byte (30_encoding.md R83). The type byte is a
natural, as the `ctype` operand is (log 10). -/
inductive Code where
  /-- a command word (30_encoding.md R60) -/
  | cmd (c : CmdWord)
  /-- a `splice_command_type` byte (30_encoding.md R72) -/
  | ctype (t : Nat)
  deriving DecidableEq, Repr

/-- Why a code is rejected. The first four are the clauses (a) to (d) of 30_encoding.md R64 and give IllegalCommand
(60_exceptions.md R206); the last gives UnsupportedCommandTypeError (60_exceptions.md R204). -/
inductive Reject where
  /-- R64 (a): `op` is not in the opcode map -/
  | unknownOpcode (op : Nat)
  /-- R64 (b): `cmd[7] = 1` -/
  | reservedBitSet
  /-- R64 (c): BP.WRITE or BR.READ with `w = 0` or `w > 64` -/
  | widthOutOfRange (w : Nat)
  /-- R64 (d): any other opcode with `w != 0` -/
  | strayWidth (w : Nat)
  /-- R72: a command type outside 0x05 and 0x06 -/
  | unsupportedType (t : Nat)
  deriving DecidableEq, Repr

end Sys2Proof
end

