-- ==== Sys2Proof/WellFormed.lean ====
section
/-! DEFINITION. Well-formed instructions: the width of BP.WRITE and BR.READ is 1 to 64 (30_encoding.md R62, R64 (c)). No other
instruction has a field. -/

namespace Sys2Proof

/-- A legal field width (30_encoding.md R62; 20_memory.md R46). -/
def legalWidth (w : Nat) : Bool := decide (Config.wMin ≤ w) && decide (w ≤ Config.wMax)

/-- What the encoding admits. -/
def Instr.wf : Instr → Bool
  | .bpInit => true
  | .bpWrite w => legalWidth w
  | .bpFinish => true
  | .brLoad => true
  | .brRead w => legalWidth w
  | .scEncInsert => true
  | .scEncTsig => true
  | .scDecode => true
  | .crcCompute => true
  | .crcVerify => true
  | .saEncode => true
  | .saDecode => true
  | .spliceInsert => true
  | .timeSignal => true

end Sys2Proof
end

