-- ==== Sys2Proof/Decode.lean ====
section
/-! DEFINITION. The decoder and, after it, the encoder, both from the encoding tables of 30_encoding.md R60 to R64 and R72. -/

namespace Sys2Proof

/-- `op = cmd[15:8]` (30_encoding.md R60). -/
def CmdWord.op (c : CmdWord) : Nat := (c.extractLsb 15 8).toNat

/-- `rsv = cmd[7]` (30_encoding.md R60, R63). -/
def CmdWord.rsv (c : CmdWord) : Bool := c.getLsbD 7

/-- `w = cmd[6:0]`, zero-extended (30_encoding.md R62). -/
def CmdWord.width (c : CmdWord) : Nat := (c.extractLsb 6 0).toNat

/-- An opcode whose width field must be 0 (30_encoding.md R64 (d)). -/
def decodeNoWidth (w : Nat) (i : Instr) : Except Reject Instr :=
  if w = 0 then .ok i else .error (.strayWidth w)

/-- An opcode with a field width, 1 to 64 (30_encoding.md R64 (c)). -/
def decodeWidth (w : Nat) (i : Instr) : Except Reject Instr :=
  if legalWidth w then .ok i else .error (.widthOutOfRange w)

/-- The opcode map (30_encoding.md R61). -/
def decodeOp (op w : Nat) : Except Reject Instr :=
  match op with
  | 0x01 => decodeNoWidth w .bpInit
  | 0x02 => decodeWidth w (.bpWrite w)
  | 0x03 => decodeNoWidth w .bpFinish
  | 0x11 => decodeNoWidth w .brLoad
  | 0x12 => decodeWidth w (.brRead w)
  | 0x21 => decodeNoWidth w .scEncInsert
  | 0x22 => decodeNoWidth w .scEncTsig
  | 0x23 => decodeNoWidth w .scDecode
  | 0x31 => decodeNoWidth w .crcCompute
  | 0x32 => decodeNoWidth w .crcVerify
  | 0x41 => decodeNoWidth w .saEncode
  | 0x42 => decodeNoWidth w .saDecode
  | _ => .error (.unknownOpcode op)

/-- The command-word decoder: the reserved bit, then the opcode map (30_encoding.md R60 to R64). -/
def decodeCmd (c : CmdWord) : Except Reject Instr :=
  if CmdWord.rsv c then .error .reservedBitSet else decodeOp (CmdWord.op c) (CmdWord.width c)

/-- The command-type decoder (30_encoding.md R72). -/
def decodeType (t : Nat) : Except Reject Instr :=
  if t = Config.ctSpliceInsert then .ok .spliceInsert
  else if t = Config.ctTimeSignal then .ok .timeSignal
  else .error (.unsupportedType t)

/-- The decoder of either code. -/
def decode : Code → Except Reject Instr
  | .cmd c => decodeCmd c
  | .ctype t => decodeType t

/-- The instruction a request stands for: its command word's, and for SC.DECODE the one its `ctype` operand selects, where
it selects one (41_splice_command.md R130, R131; log 9). An SC.DECODE with an unsupported type stays SC.DECODE, whose own
meaning then reports the type. -/
def decodeRequest (c : CmdWord) (ctype : Nat) : Except Reject Instr :=
  match decodeCmd c with
  | .ok .scDecode =>
    match decodeType ctype with
    | .ok i => .ok i
    | .error _ => .ok .scDecode
  | r => r

/-- The instruction the decoder reads from a table word: a 16-bit command word, or an 8-bit type byte. -/
def decodeTableWord (nbits w : Nat) : Option Instr :=
  if nbits = 16 then
    if w < 2 ^ 16 then (decode (.cmd (BitVec.ofNat 16 w))).toOption else none
  else if nbits = 8 then
    if w < 2 ^ 8 then (decode (.ctype w)).toOption else none
  else none

/-- A command word from its fields, the reserved bit 0 (30_encoding.md R60, R63). -/
def cmdWord (op w : Nat) : CmdWord := BitVec.ofNat 8 op ++ 0#1 ++ BitVec.ofNat 7 w

/-- The encoder (30_encoding.md R61, R66, R72). -/
def encode : Instr → Code
  | .bpInit => .cmd (cmdWord 0x01 0)
  | .bpWrite w => .cmd (cmdWord 0x02 w)
  | .bpFinish => .cmd (cmdWord 0x03 0)
  | .brLoad => .cmd (cmdWord 0x11 0)
  | .brRead w => .cmd (cmdWord 0x12 w)
  | .scEncInsert => .cmd (cmdWord 0x21 0)
  | .scEncTsig => .cmd (cmdWord 0x22 0)
  | .scDecode => .cmd (cmdWord 0x23 0)
  | .crcCompute => .cmd (cmdWord 0x31 0)
  | .crcVerify => .cmd (cmdWord 0x32 0)
  | .saEncode => .cmd (cmdWord 0x41 0)
  | .saDecode => .cmd (cmdWord 0x42 0)
  | .spliceInsert => .ctype Config.ctSpliceInsert
  | .timeSignal => .ctype Config.ctTimeSignal

/-- A row of spec/opcode_table.json: how many bits, and which of them are fixed to what (30_encoding.md R83). -/
structure TableRow where
  /-- bits of the code -/
  nbits : Nat
  /-- the row's `match` -/
  pattern : Nat
  /-- the row's `mask` -/
  mask : Nat
  deriving DecidableEq, Repr

/-- The row of each instruction, as the table gives it. -/
def Instr.tableRow : Instr → TableRow
  | .bpInit => ⟨16, 0x0100, 0xFFFF⟩
  | .bpWrite _ => ⟨16, 0x0200, 0xFF80⟩
  | .bpFinish => ⟨16, 0x0300, 0xFFFF⟩
  | .brLoad => ⟨16, 0x1100, 0xFFFF⟩
  | .brRead _ => ⟨16, 0x1200, 0xFF80⟩
  | .scEncInsert => ⟨16, 0x2100, 0xFFFF⟩
  | .scEncTsig => ⟨16, 0x2200, 0xFFFF⟩
  | .scDecode => ⟨16, 0x2300, 0xFFFF⟩
  | .crcCompute => ⟨16, 0x3100, 0xFFFF⟩
  | .crcVerify => ⟨16, 0x3200, 0xFFFF⟩
  | .saEncode => ⟨16, 0x4100, 0xFFFF⟩
  | .saDecode => ⟨16, 0x4200, 0xFFFF⟩
  | .spliceInsert => ⟨8, 0x05, 0xFF⟩
  | .timeSignal => ⟨8, 0x06, 0xFF⟩

/-- A code fits a row: its number agrees with the pattern on the mask. -/
def Code.fitsRow (r : TableRow) : Code → Bool
  | .cmd c => decide (r.nbits = 16) && decide (c.toNat &&& r.mask = r.pattern)
  | .ctype t => decide (r.nbits = 8) && decide (t &&& r.mask = r.pattern)

end Sys2Proof
end

