-- ==== Sys2Proof/Machine/Bits.lean ====
section
/-! DEFINITION. Bit strings and bytes: `fits`, `Bits`, `Val`, `Pack`, `Unpack` and `BE` of 00_scope.md R7, R8 and
43_section_assembler.md R161. -/

namespace Sys2Proof.Machine

/-- `fits(v, w)` (00_scope.md R7). -/
def fits (v w : Nat) : Bool := decide (v < 2 ^ w)

/-- `Bits(v, w)`: `v[w-1], ..., v[0]` (00_scope.md R8; 20_memory.md R41). -/
def bitsOf (v : Nat) : Nat → Bits
  | 0 => []
  | w + 1 => v.testBit w :: bitsOf v w

/-- `Val(s)`: the unsigned value of a bit string read most significant bit first (00_scope.md R8). -/
def val (s : Bits) : Nat := s.foldl (fun v b => 2 * v + b.toNat) 0

/-- How many zero bits `Pack` appends (00_scope.md R8; 20_memory.md R45). -/
def padLength (n : Nat) : Nat := (8 - n % 8) % 8

/-- The bit string with its padding (00_scope.md R8). -/
def padded (s : Bits) : Bits := s ++ List.replicate (padLength s.length) false

/-- `Pack(s)`: byte `k` is the value of bits `8k .. 8k+7` of the padded string (00_scope.md R8). -/
def pack (s : Bits) : Bytes :=
  (List.range ((padded s).length / 8)).map fun k => BitVec.ofNat 8 (val (((padded s).drop (8 * k)).take 8))

/-- `Unpack(b)`: each byte's bit 7 first (00_scope.md R8). -/
def unpack (b : Bytes) : Bits := b.flatMap fun x => bitsOf x.toNat 8

/-- The `n` bytes of `v`, most significant first: `BE16` and `BE32` for `n = 2` and `n = 4` (43_section_assembler.md R161). -/
def beBytes : Nat → Nat → Bytes
  | 0, _ => []
  | n + 1, v => BitVec.ofNat 8 (v / 256 ^ n) :: beBytes n v

/-- A Boolean as a 1-bit field value (00_scope.md R10). -/
def flagBit (b : Bool) : Nat := if b then 1 else 0

end Sys2Proof.Machine
end

