-- ==== Sys2Proof/Machine/Records.lean ====
section
/-! DEFINITION. The interface records of 10_state.md R27 to R33 and the status codes of 60_exceptions.md R201: types only. -/

namespace Sys2Proof.Machine

/-- SpliceInsertIn, the encode-side splice_insert (10_state.md R29). Values are naturals, checked when they are written
(00_scope.md R7; 60_exceptions.md R202). -/
structure SpliceInsertIn where
  /-- wire width 32 -/
  eventId : Nat
  cancelIndicator : Bool
  outOfNetwork : Bool
  /-- ignored: the encoder writes `PROGRAM_SPLICE` -/
  programSplice : Bool
  durationFlag : Bool
  immediate : Bool
  /-- wire width 33, read iff `immediate = false` -/
  spliceTimePts : Nat
  /-- read iff `durationFlag = true` -/
  autoReturn : Bool
  /-- wire width 33, read iff `durationFlag = true` -/
  durationTicks : Nat
  deriving DecidableEq, Repr

/-- SpliceCommandIn (10_state.md R30, R31). -/
inductive SpliceCommandIn where
  | insert (i : SpliceInsertIn)
  | timeSignal (spliceTimePts : Nat)
  deriving DecidableEq, Repr

/-- A decoded break_duration: `auto_return` and `duration_ticks` (10_state.md R32). -/
structure BreakDuration where
  autoReturn : Bool
  durationTicks : Nat
  deriving DecidableEq, Repr

/-- The decode-side splice_insert (10_state.md R32). -/
structure SpliceInsertOut where
  eventId : Nat
  cancelIndicator : Bool
  outOfNetwork : Bool
  programSplice : Bool
  durationFlag : Bool
  immediate : Bool
  spliceTimePts : Option Nat
  breakDuration : Option BreakDuration
  deriving DecidableEq, Repr

/-- SpliceCommandOut (10_state.md R32). -/
inductive SpliceCommandOut where
  | insert (i : SpliceInsertOut)
  | timeSignal (spliceTimePts : Nat)
  deriving DecidableEq, Repr

/-- DecodedSection, every field as read (10_state.md R33). -/
structure DecodedSection where
  tableId : Nat
  sectionFlags4 : Nat
  sectionLength : Nat
  protocolVersion : Nat
  encryptedPacket : Nat
  encryptionAlgorithm : Nat
  ptsAdjustment : Nat
  cwIndex : Nat
  tier : Nat
  spliceCommandLength : Nat
  spliceCommandType : Nat
  command : SpliceCommandOut
  descriptorLoopLength : Nat
  crcStored : Nat
  crcComputed : Nat
  bytesConsumed : Nat
  deriving DecidableEq, Repr

/-- The request record (10_state.md R27): the command word and every operand field. `none` for `ptsAdjustment` or `tier` is
an omitted operand, which takes its default. -/
structure Request where
  cmd : CmdWord
  value : Nat
  bytes : Bytes
  ctype : Nat
  insert : SpliceInsertIn
  tsigPts : Nat
  command : SpliceCommandIn
  ptsAdjustment : Option Nat
  tier : Option Nat
  deriving DecidableEq, Repr

/-- The status codes 0 to 5 (60_exceptions.md R201). -/
inductive Status where
  | ok
  | fieldOverflowError
  | truncatedInputError
  | unsupportedCommandTypeError
  | checksumMismatchError
  | illegalCommand
  deriving DecidableEq, Repr

/-- The `info` payload (60_exceptions.md R201). -/
inductive Info where
  /-- OK -/
  | empty
  /-- FieldOverflowError: the width and the value of the first field that does not fit -/
  | overflow (width value : Nat)
  /-- TruncatedInputError: the byte offset where parsing failed -/
  | offset (n : Nat)
  /-- UnsupportedCommandTypeError: the type byte -/
  | type (t : Nat)
  /-- ChecksumMismatchError -/
  | checksums (stored computed : Nat)
  /-- IllegalCommand -/
  | command (c : CmdWord)
  deriving DecidableEq, Repr

/-- What a step of an operation raises (00_scope.md R9 `raise`): the errors that end a request with no result field
(60_exceptions.md R209). ChecksumMismatchError is not among them: it returns the section (60_exceptions.md R205). -/
inductive Error where
  | fieldOverflow (width value : Nat)
  | truncatedInput (offset : Nat)
  | unsupportedCommandType (type : Nat)
  | illegalCommand (cmd : CmdWord)
  deriving DecidableEq, Repr

/-- The response record (10_state.md R28); a result field is `none` where the operation does not return it. `sect` is the
record's `section`. -/
structure Response where
  status : Status
  info : Info
  value : Option Nat
  bytes : Option Bytes
  command : Option SpliceCommandOut
  consumed : Option Nat
  sect : Option DecodedSection
  deriving DecidableEq, Repr

/-- What the host does next (10_state.md R20; 70_reset_and_hazards.md R220, R223): an index names one of the
`N_INSTANCES` instances. -/
inductive HostEvent where
  /-- a request on the command port of instance `k` -/
  | request (k : Nat) (r : Request)
  /-- a reset of instance `k` -/
  | reset (k : Nat)
  /-- a reset of all instances at once -/
  | resetAll
  deriving DecidableEq, Repr

/-- The assembler forms of a request, one per line of the table of 30_encoding.md R66. -/
inductive AsmForm where
  | bpInit
  | bpWrite (w value : Nat)
  | bpFinish
  | brLoad (bytes : Bytes)
  | brRead (w : Nat)
  | scEncInsert (i : SpliceInsertIn)
  | scEncTsig (pts : Nat)
  | scDecode (ctype : Nat) (bytes : Bytes)
  | crcCompute (bytes : Bytes)
  | crcVerify (bytes : Bytes) (expected : Nat)
  | saEncode (command : SpliceCommandIn) (ptsAdjustment tier : Option Nat)
  | saDecode (bytes : Bytes)
  deriving DecidableEq, Repr

end Sys2Proof.Machine
end

