-- ==== Sys2Proof/Machine/State.lean ====
section
/-! DEFINITION. The state of the unit as plain data: every instance's packer and reader (10_state.md R23, R24), its response
port, the request in service, the host's pending events and the OPEN parameters; and the state after reset (10_state.md R37). -/

namespace Sys2Proof.Machine

/-- Packer state `PK` (10_state.md R23). -/
structure Packer where
  /-- the bits appended so far, most recent last -/
  bits : Bits
  deriving DecidableEq, Repr

/-- The packer with nothing appended (10_state.md R37). -/
def Packer.empty : Packer := { bits := [] }

/-- Reader state `RD` (10_state.md R24). -/
structure Reader where
  /-- the input being read -/
  buf : Bytes
  /-- the bit cursor -/
  cur : Nat
  /-- the count of bits that may be read at all -/
  limit : Nat
  deriving DecidableEq, Repr

/-- The reader with nothing loaded (10_state.md R37). -/
def Reader.empty : Reader := { buf := [], cur := 0, limit := 0 }

/-- One codec instance: its persistent state (10_state.md R23, R24) and its response port. -/
structure Instance where
  pk : Packer
  rd : Reader
  /-- the response last returned (10_state.md R28); no request reads it (log 4) -/
  resp : Option Response
  deriving DecidableEq, Repr

/-- An instance after reset (10_state.md R37); no response stands on its port (log 4). -/
def Instance.reset : Instance := { pk := Packer.empty, rd := Reader.empty, resp := none }

/-- The insert record whose every field is 0 (30_encoding.md R66: an omitted field is 0). -/
def SpliceInsertIn.zero : SpliceInsertIn :=
  { eventId := 0, cancelIndicator := false, outOfNetwork := false, programSplice := false, durationFlag := false,
    immediate := false, spliceTimePts := 0, autoReturn := false, durationTicks := 0 }

/-- The record of a port with no request in service: every field zero, empty or omitted (log 3). -/
def Request.idle : Request :=
  { cmd := 0#16, value := 0, bytes := [], ctype := 0, insert := SpliceInsertIn.zero, tsigPts := 0,
    command := .timeSignal 0, ptsAdjustment := none, tier := none }

/-- Why the machine stops with a fault. -/
inductive Fault where
  /-- Raised by `step` when the host's event names an instance index outside `0 .. N_INSTANCES - 1`; the spec gives the host
  no such port. Safe: the model stops where the hardware has no behaviour (log 6). -/
  | noSuchInstance (k : Nat)
  deriving DecidableEq, Repr

/-- Why the model gives a request no meaning. -/
inductive Refusal where
  /-- Raised by `exec` for an instruction that has no meaning yet; none is left. Safe. -/
  | notModelled (mnemonic : String)
  /-- CapacityExceeded (40_bitpacker.md R111): raised by BP.WRITE past `PK_CAPACITY_BITS` and by BR.LOAD past
  `RD_CAPACITY_BYTES`. Safe: the spec refuses there, and with the default parameters it never happens (log 7). -/
  | capacityExceeded (asked capacity : Nat)
  deriving DecidableEq, Repr

/-- The whole unit. `before`, `inst` and `after` are the instances in index order, with `inst` the one whose request is
served; so there is always at least one (00_scope.md R4 `N_INSTANCES`; log 6). -/
structure State where
  /-- the OPEN parameters, which no step writes -/
  params : Config.Params
  /-- the instances with a lower index than the one in focus -/
  before : List Instance
  /-- the instance in focus -/
  inst : Instance
  /-- the instances with a higher index than the one in focus -/
  after : List Instance
  /-- the request record in service (10_state.md R27); idle between requests (log 3) -/
  req : Request
  /-- what the host does next, oldest first (log 1) -/
  port : List HostEvent
  deriving DecidableEq, Repr

/-- The machine right after reset (10_state.md R37; 70_reset_and_hazards.md R220): one instance, default parameters, no
request in service, and no event of the host yet. -/
def State.reset : State :=
  { params := Config.Params.default, before := [], inst := Instance.reset, after := [], req := Request.idle, port := [] }

end Sys2Proof.Machine
end

