-- ==== Sys2Proof/Machine/Flags.lean ====
section
/-! DEFINITION. The unit has no flags (10_state.md R34): its only status is the `status` and `info` of a response
(10_state.md R28; 60_exceptions.md R201). This file holds every computation of them. -/

namespace Sys2Proof.Machine

/-- The numeric code of a status (60_exceptions.md R201). -/
def Status.code : Status → Nat
  | .ok => 0
  | .fieldOverflowError => 1
  | .truncatedInputError => 2
  | .unsupportedCommandTypeError => 3
  | .checksumMismatchError => 4
  | .illegalCommand => 5

/-- The status of an error (60_exceptions.md R201). -/
def Error.status : Error → Status
  | .fieldOverflow _ _ => .fieldOverflowError
  | .truncatedInput _ => .truncatedInputError
  | .unsupportedCommandType _ => .unsupportedCommandTypeError
  | .illegalCommand _ => .illegalCommand

/-- The payload of an error (60_exceptions.md R201). -/
def Error.info : Error → Info
  | .fieldOverflow w v => .overflow w v
  | .truncatedInput n => .offset n
  | .unsupportedCommandType t => .type t
  | .illegalCommand c => .command c

/-- The response of an error: status and payload, no result field (60_exceptions.md R209). -/
def Error.response (e : Error) : Response :=
  { status := e.status, info := e.info, value := none, bytes := none, command := none, consumed := none, sect := none }

/-- OK with no result field. -/
def Response.ok : Response :=
  { status := .ok, info := .empty, value := none, bytes := none, command := none, consumed := none, sect := none }

/-- OK with a `value` (10_state.md R28). -/
def Response.okValue (v : Nat) : Response := { Response.ok with value := some v }

/-- OK with `bytes` (10_state.md R28). -/
def Response.okBytes (b : Bytes) : Response := { Response.ok with bytes := some b }

/-- OK with `command` and `consumed` (10_state.md R28). -/
def Response.okCommand (c : SpliceCommandOut) (n : Nat) : Response :=
  { Response.ok with command := some c, consumed := some n }

/-- The response to a parsed section: OK, or ChecksumMismatchError with the two checksums; the section is returned either
way (43_section_assembler.md R166, R170; 60_exceptions.md R205). -/
def Response.ofSection (d : DecodedSection) : Response :=
  if d.crcStored = d.crcComputed then { Response.ok with sect := some d }
  else
    { Response.ok with
      status := .checksumMismatchError, info := .checksums d.crcStored d.crcComputed, sect := some d }

/-- The response of a computation that may raise an error (60_exceptions.md R207). -/
def Response.ofExcept : Except Error Response → Response
  | .ok r => r
  | .error e => e.response

end Sys2Proof.Machine
end

