-- ==== Sys2Proof/Machine/Ops.lean ====
section
/-! DEFINITION. The shared operations: packers and readers (40_bitpacker.md R106 to R109), capacity (R111), giving a response
and raising an error (00_scope.md R9; 60_exceptions.md R200, R209), the instances and reset (70_reset_and_hazards.md R220), and
taking a request from the port. -/

namespace Sys2Proof.Machine

/-! ### Packers -/

/-- `PK.n` (10_state.md R23). -/
def Packer.n (p : Packer) : Nat := p.bits.length

/-- Append `Bits(v, w)` (40_bitpacker.md R102, R106). -/
def Packer.append (p : Packer) (v w : Nat) : Packer := { bits := p.bits ++ bitsOf v w }

/-- `Finish(p)`, the byte image (40_bitpacker.md R106; 10_state.md R23). -/
def Packer.finish (p : Packer) : Bytes := pack p.bits

/-- `AppendField(p, v, w)` (40_bitpacker.md R106). -/
def appendField (p : Packer) (v w : Nat) : Except Error Packer :=
  if fits v w then .ok (p.append v w) else .error (.fieldOverflow w v)

/-- Successive `AppendField`s of (value, width) pairs, in order; the first that does not fit ends the request
(60_exceptions.md R208). -/
def appendFields (p : Packer) : List (Nat × Nat) → Except Error Packer
  | [] => .ok p
  | (v, w) :: fs => appendField p v w >>= fun q => appendFields q fs

/-! ### Readers -/

/-- `NewReader(b)` (40_bitpacker.md R108). -/
def Reader.new (b : Bytes) : Reader := { buf := b, cur := 0, limit := 8 * b.length }

/-- `Bound(r, n)` (40_bitpacker.md R108). -/
def Reader.bound (r : Reader) (n : Nat) : Reader := { r with limit := min (8 * r.buf.length) (8 * n) }

/-- The `w` bits at the cursor (40_bitpacker.md R105). -/
def Reader.bitsAt (r : Reader) (w : Nat) : Bits := ((unpack r.buf).drop r.cur).take w

/-- The cursor moved past `w` bits. -/
def Reader.advance (r : Reader) (w : Nat) : Reader := { r with cur := r.cur + w }

/-- The byte offset a TruncatedInputError reports (60_exceptions.md R203). -/
def Reader.offset (r : Reader) : Nat := r.cur / 8

/-- `ReadField(r, w)` (40_bitpacker.md R107). -/
def readField (r : Reader) (w : Nat) : Except Error (Nat × Reader) :=
  if r.cur + w ≤ r.limit then .ok (val (r.bitsAt w), r.advance w) else .error (.truncatedInput r.offset)

/-- `ReadFlag(r)` (40_bitpacker.md R107; 00_scope.md R10). -/
def readFlag (r : Reader) : Except Error (Bool × Reader) :=
  readField r 1 >>= fun x => .ok (decide (x.1 = 1), x.2)

/-- `ReadBytes(r, n)` (40_bitpacker.md R109). -/
def readBytes (r : Reader) : Nat → Except Error (Bytes × Reader)
  | 0 => .ok ([], r)
  | n + 1 => do
    let (b, r) ← readField r 8
    let (bs, r) ← readBytes r n
    return (BitVec.ofNat 8 b :: bs, r)

/-- The invariant of a reader (10_state.md R24). -/
def Reader.wf (r : Reader) : Bool := decide (r.cur ≤ r.limit) && decide (r.limit ≤ 8 * r.buf.length)

/-! ### Capacity -/

/-- A capacity admits a size; an unbounded one admits every size (40_bitpacker.md R111). -/
def admits (cap : Option Nat) (n : Nat) : Bool :=
  match cap with
  | none => true
  | some c => decide (n ≤ c)

/-- CapacityExceeded (40_bitpacker.md R111). -/
def refuseCapacity (cap : Option Nat) (n : Nat) : Host.Outcome State Fault Refusal :=
  .refused (.capacityExceeded n (cap.getD 0))

/-! ### Responses and errors -/

/-- The response of the request in service: it stands on the instance's port, and the request record does not persist
(10_state.md R21, R28; 00_scope.md R9 `return`). -/
def State.respond (s : State) (r : Response) : State :=
  { s with inst := { s.inst with resp := some r }, req := Request.idle }

/-- `raise E(info)`: the request ends with the error's status and payload and no result field; the persistent state is left
as it was (00_scope.md R9; 60_exceptions.md R200, R209). There is no return from it: the next request simply follows (R210). -/
def State.raise (s : State) (e : Error) : State := s.respond e.response

/-- The response of a composite request, which touches neither `PK` nor `RD` (10_state.md R25). -/
def State.answer (s : State) (r : Except Error Response) : State := s.respond (Response.ofExcept r)

/-- The packer of the instance in service replaced. -/
def State.setPk (s : State) (p : Packer) : State := { s with inst := { s.inst with pk := p } }

/-- The reader of the instance in service replaced. -/
def State.setRd (s : State) (r : Reader) : State := { s with inst := { s.inst with rd := r } }

/-! ### Instances, reset and the port -/

/-- Every instance, in index order (60_exceptions.md R215). -/
def State.insts (s : State) : List Instance := s.before ++ s.inst :: s.after

/-- `N_INSTANCES` (00_scope.md R4). -/
def State.nInstances (s : State) : Nat := s.insts.length

/-- The index of the instance in focus. -/
def State.index (s : State) : Nat := s.before.length

/-- Put instance `k` in focus; none where there is no such instance. No instance changes. -/
def State.focus (s : State) (k : Nat) : Option State :=
  match s.insts.drop k with
  | [] => none
  | x :: rest => some { s with before := s.insts.take k, inst := x, after := rest }

/-- The host's oldest event is taken from the port. -/
def State.popPort (s : State) : State := { s with port := s.port.tail }

/-- A request record comes into service. -/
def State.accept (s : State) (r : Request) : State := { s with req := r }

/-- Reset of the instance in focus (70_reset_and_hazards.md R220). -/
def State.resetInstance (s : State) : State := { s with inst := Instance.reset }

/-- Reset of all instances at once (70_reset_and_hazards.md R220). -/
def State.resetAll (s : State) : State :=
  { s with before := s.before.map fun _ => Instance.reset, inst := Instance.reset,
           after := s.after.map fun _ => Instance.reset }

/-- The instruction of the request in service. -/
def Request.instr (r : Request) : Except Reject Instr := decodeRequest r.cmd r.ctype

/-- The response to an illegal command word: IllegalCommand with the word as payload (30_encoding.md R64;
60_exceptions.md R206), whatever clause of R64 it breaks. -/
def State.raiseIllegal (s : State) : State := s.raise (.illegalCommand s.req.cmd)

/-- The request a table word stands for, with every operand zero, empty or omitted: a command word, or for a type byte an
SC.DECODE request whose `ctype` operand is that byte (log 9). -/
def Request.ofTableWord (nbits w : Nat) : Request :=
  if nbits = 8 then { Request.idle with cmd := cmdWord 0x23 0, ctype := w }
  else { Request.idle with cmd := BitVec.ofNat 16 w }

end Sys2Proof.Machine
end

