-- ==== Sys2Proof/Machine/Operands.lean ====
section
/-! DEFINITION. The operands of each operation (30_encoding.md R65), with the defaults of 10_state.md R27, the projection `norm`
of 10_state.md R32, and the requests the assembler forms stand for (30_encoding.md R66). -/

namespace Sys2Proof.Machine

/-- `pts_adjustment`, or its default where it is omitted (10_state.md R27). -/
def Request.ptsAdjustmentOr (r : Request) : Nat := r.ptsAdjustment.getD Config.defaultPtsAdjustment

/-- `tier`, or its default where it is omitted (10_state.md R27). -/
def Request.tierOr (r : Request) : Nat := r.tier.getD Config.defaultTier

/-- The request with only the fields its operation reads; every other one idle (30_encoding.md R65). -/
def Request.operandsOf (r : Request) : Instr → Request
  | .bpInit => Request.idle
  | .bpWrite _ => { Request.idle with value := r.value }
  | .bpFinish => Request.idle
  | .brLoad => { Request.idle with bytes := r.bytes }
  | .brRead _ => Request.idle
  | .scEncInsert => { Request.idle with insert := r.insert }
  | .scEncTsig => { Request.idle with tsigPts := r.tsigPts }
  | .scDecode => { Request.idle with ctype := r.ctype, bytes := r.bytes }
  | .crcCompute => { Request.idle with bytes := r.bytes }
  | .crcVerify => { Request.idle with bytes := r.bytes, value := r.value }
  | .saEncode =>
    { Request.idle with command := r.command, ptsAdjustment := r.ptsAdjustment, tier := r.tier }
  | .saDecode => { Request.idle with bytes := r.bytes }
  | .spliceInsert => { Request.idle with bytes := r.bytes }
  | .timeSignal => { Request.idle with bytes := r.bytes }

/-- The response with only `status`, `info` and the fields the operation writes; every other one absent
(30_encoding.md R65). -/
def Response.resultsOf (r : Response) (i : Instr) : Response :=
  let bare : Response := { Response.ok with status := r.status, info := r.info }
  match i with
  | .bpInit => bare
  | .bpWrite _ => bare
  | .bpFinish => { bare with bytes := r.bytes }
  | .brLoad => bare
  | .brRead _ => { bare with value := r.value }
  | .scEncInsert => { bare with bytes := r.bytes }
  | .scEncTsig => { bare with bytes := r.bytes }
  | .scDecode => { bare with command := r.command, consumed := r.consumed }
  | .crcCompute => { bare with value := r.value }
  | .crcVerify => { bare with value := r.value }
  | .saEncode => { bare with bytes := r.bytes }
  | .saDecode => { bare with sect := r.sect }
  | .spliceInsert => { bare with command := r.command, consumed := r.consumed }
  | .timeSignal => { bare with command := r.command, consumed := r.consumed }

/-- `norm(i)` (10_state.md R32). -/
def SpliceInsertIn.norm (i : SpliceInsertIn) : SpliceInsertOut :=
  { eventId := i.eventId, cancelIndicator := i.cancelIndicator, outOfNetwork := i.outOfNetwork, programSplice := true,
    durationFlag := i.durationFlag, immediate := i.immediate,
    spliceTimePts := if i.immediate then none else some i.spliceTimePts,
    breakDuration :=
      if i.durationFlag then some { autoReturn := i.autoReturn, durationTicks := i.durationTicks } else none }

/-- `norm` of either command (10_state.md R32; 43_section_assembler.md R174). -/
def SpliceCommandIn.norm : SpliceCommandIn → SpliceCommandOut
  | .insert i => .insert i.norm
  | .timeSignal pts => .timeSignal pts

/-- The read fields of an insert record fit their wire widths (10_state.md R29; 41_splice_command.md R134). -/
def SpliceInsertIn.fitsWire (i : SpliceInsertIn) : Bool :=
  fits i.eventId 32 && (i.immediate || fits i.spliceTimePts Config.ptsBits)
    && (!i.durationFlag || fits i.durationTicks Config.ptsBits)

/-- The read fields of a command fit their wire widths. -/
def SpliceCommandIn.fitsWire : SpliceCommandIn → Bool
  | .insert i => i.fitsWire
  | .timeSignal pts => fits pts Config.ptsBits

/-- The request of an assembler form (30_encoding.md R66). -/
def AsmForm.request : AsmForm → Request
  | .bpInit => { Request.idle with cmd := 0x0100#16 }
  | .bpWrite w v => { Request.idle with cmd := 0x0200#16 + BitVec.ofNat 16 w, value := v }
  | .bpFinish => { Request.idle with cmd := 0x0300#16 }
  | .brLoad b => { Request.idle with cmd := 0x1100#16, bytes := b }
  | .brRead w => { Request.idle with cmd := 0x1200#16 + BitVec.ofNat 16 w }
  | .scEncInsert i => { Request.idle with cmd := 0x2100#16, insert := i }
  | .scEncTsig pts => { Request.idle with cmd := 0x2200#16, tsigPts := pts }
  | .scDecode t b => { Request.idle with cmd := 0x2300#16, ctype := t, bytes := b }
  | .crcCompute b => { Request.idle with cmd := 0x3100#16, bytes := b }
  | .crcVerify b v => { Request.idle with cmd := 0x3200#16, bytes := b, value := v }
  | .saEncode c pa t => { Request.idle with cmd := 0x4100#16, command := c, ptsAdjustment := pa, tier := t }
  | .saDecode b => { Request.idle with cmd := 0x4200#16, bytes := b }

/-- The instruction an assembler form names (30_encoding.md R66). -/
def AsmForm.instr : AsmForm → Instr
  | .bpInit => .bpInit
  | .bpWrite w _ => .bpWrite w
  | .bpFinish => .bpFinish
  | .brLoad _ => .brLoad
  | .brRead w => .brRead w
  | .scEncInsert _ => .scEncInsert
  | .scEncTsig _ => .scEncTsig
  | .scDecode _ _ => .scDecode
  | .crcCompute _ => .crcCompute
  | .crcVerify _ _ => .crcVerify
  | .saEncode _ _ _ => .saEncode
  | .saDecode _ => .saDecode

end Sys2Proof.Machine
end

