-- ==== Sys2Proof/Machine/BitPacker.lean ====
section
/-! DEFINITION. The operations of the BitPacker and BitReader (40_bitpacker.md R101 to R105). -/

namespace Sys2Proof.Machine

/-- BP.INIT (40_bitpacker.md R101). -/
def execBpInit (s : State) : Host.Outcome State Fault Refusal :=
  .next ((s.setPk Packer.empty).respond Response.ok)

/-- BP.WRITE (40_bitpacker.md R102): the overflow check, then the capacity, then the append. -/
def execBpWrite (w : Nat) (s : State) : Host.Outcome State Fault Refusal :=
  match appendField s.inst.pk s.req.value w with
  | .error e => .next (s.raise e)
  | .ok p =>
    if admits s.params.pkCapacityBits p.n then .next ((s.setPk p).respond Response.ok)
    else refuseCapacity s.params.pkCapacityBits p.n

/-- BP.FINISH (40_bitpacker.md R103); the packer is not changed. -/
def execBpFinish (s : State) : Host.Outcome State Fault Refusal :=
  .next (s.respond (Response.okBytes s.inst.pk.finish))

/-- BR.LOAD (40_bitpacker.md R104). -/
def execBrLoad (s : State) : Host.Outcome State Fault Refusal :=
  if admits s.params.rdCapacityBytes s.req.bytes.length then
    .next ((s.setRd (Reader.new s.req.bytes)).respond Response.ok)
  else refuseCapacity s.params.rdCapacityBytes s.req.bytes.length

/-- BR.READ (40_bitpacker.md R105). -/
def execBrRead (w : Nat) (s : State) : Host.Outcome State Fault Refusal :=
  match readField s.inst.rd w with
  | .error e => .next (s.raise e)
  | .ok (v, r) => .next ((s.setRd r).respond (Response.okValue v))

end Sys2Proof.Machine
end

