-- ==== Sys2Proof/Machine/Crc32.lean ====
section
/-! DEFINITION. The CRC32 engine (42_crc32.md R150 to R153). -/

namespace Sys2Proof.Machine

/-- One shift of the register (42_crc32.md R151). -/
def crcShift (c : CrcWord) : CrcWord := if c.msb then (c <<< 1) ^^^ Config.crcPoly else c <<< 1

/-- `n` shifts of the register. -/
def crcShifts : Nat → CrcWord → CrcWord
  | 0, c => c
  | n + 1, c => crcShifts n (crcShift c)

/-- One byte enters the register most significant bit first (42_crc32.md R151). -/
def crcByte (c : CrcWord) (b : Byte) : CrcWord := crcShifts 8 (c ^^^ (b.setWidth 32 <<< 24))

/-- `crc32(b)` (42_crc32.md R151). -/
def crc32 (b : Bytes) : CrcWord := b.foldl crcByte Config.crcInit ^^^ Config.crcXorOut

/-- CRC.COMPUTE (42_crc32.md R152). -/
def execCrcCompute (s : State) : Host.Outcome State Fault Refusal :=
  .next (s.respond (Response.okValue (crc32 s.req.bytes).toNat))

/-- CRC.VERIFY (42_crc32.md R153). -/
def execCrcVerify (s : State) : Host.Outcome State Fault Refusal :=
  .next (s.respond (Response.okValue (flagBit (decide ((crc32 s.req.bytes).toNat = s.req.value)))))

end Sys2Proof.Machine
end

