-- ==== Sys2Proof/Machine/SpliceCommand.lean ====
section
/-! DEFINITION. The SpliceCommand codec (41_splice_command.md R120 to R131): the body encoders and decoders, the operations, and
the meanings of the two command types. -/

namespace Sys2Proof.Machine

/-! ### Encode functions -/

/-- `EncodeSpliceTime(p, pts)` (41_splice_command.md R120). -/
def encodeSpliceTime (p : Packer) (pts : Nat) : Except Error Packer :=
  appendFields p [(Config.timeSpecified, 1), (Config.reserved6, 6), (pts, Config.ptsBits)]

/-- `EncodeBreakDuration(p, auto_return, d)` (41_splice_command.md R121). -/
def encodeBreakDuration (p : Packer) (autoReturn : Bool) (d : Nat) : Except Error Packer :=
  appendFields p [(flagBit autoReturn, 1), (Config.reserved6, 6), (d, Config.ptsBits)]

/-- The event id and the flags byte, which every splice_insert body has (30_encoding.md R73, R74). -/
def insertHeaderFields (i : SpliceInsertIn) : List (Nat × Nat) :=
  [(i.eventId, 32), (flagBit i.cancelIndicator, 1), (flagBit i.outOfNetwork, 1), (Config.programSplice, 1),
    (flagBit i.durationFlag, 1), (flagBit i.immediate, 1), (Config.reserved3, 3)]

/-- `EncodeInsertBody(i)` (41_splice_command.md R122). -/
def encodeInsertBody (i : SpliceInsertIn) : Except Error Bytes := do
  let p ← appendFields Packer.empty (insertHeaderFields i)
  let p ← if i.immediate then .ok p else encodeSpliceTime p i.spliceTimePts
  let p ← if i.durationFlag then encodeBreakDuration p i.autoReturn i.durationTicks else .ok p
  return p.finish

/-- `EncodeTimeSignalBody(pts)` (41_splice_command.md R123). -/
def encodeTimeSignalBody (pts : Nat) : Except Error Bytes := do
  let p ← encodeSpliceTime Packer.empty pts
  return p.finish

/-! ### Decode functions -/

/-- `DecodeSpliceTime(r)` (41_splice_command.md R126): the flag and the reserved bits are read and not used. -/
def decodeSpliceTime (r : Reader) : Except Error (Nat × Reader) := do
  let (_, r) ← readField r 1
  let (_, r) ← readField r 6
  readField r Config.ptsBits

/-- `DecodeBreakDuration(r)` (41_splice_command.md R127). -/
def decodeBreakDuration (r : Reader) : Except Error (BreakDuration × Reader) := do
  let (ar, r) ← readFlag r
  let (_, r) ← readField r 6
  let (d, r) ← readField r Config.ptsBits
  return ({ autoReturn := ar, durationTicks := d }, r)

/-- The optional splice_time of a splice_insert body (41_splice_command.md R128). -/
def decodeOptSpliceTime (absent : Bool) (r : Reader) : Except Error (Option Nat × Reader) :=
  if absent then .ok (none, r)
  else do
    let (t, r) ← decodeSpliceTime r
    return (some t, r)

/-- The optional break_duration of a splice_insert body (41_splice_command.md R128). -/
def decodeOptBreakDuration (present : Bool) (r : Reader) : Except Error (Option BreakDuration × Reader) :=
  if present then do
    let (b, r) ← decodeBreakDuration r
    return (some b, r)
  else .ok (none, r)

/-- `DecodeInsertBody(r)` (41_splice_command.md R128). -/
def decodeInsertBody (r : Reader) : Except Error (SpliceCommandOut × Reader) := do
  let (eid, r) ← readField r 32
  let (c, r) ← readFlag r
  let (o, r) ← readFlag r
  let (ps, r) ← readFlag r
  let (df, r) ← readFlag r
  let (im, r) ← readFlag r
  let (_, r) ← readField r 3
  let (pts, r) ← decodeOptSpliceTime im r
  let (bd, r) ← decodeOptBreakDuration df r
  return (.insert
    { eventId := eid, cancelIndicator := c, outOfNetwork := o, programSplice := ps, durationFlag := df,
      immediate := im, spliceTimePts := pts, breakDuration := bd }, r)

/-- `DecodeTimeSignalBody(r)` (41_splice_command.md R129). -/
def decodeTimeSignalBody (r : Reader) : Except Error (SpliceCommandOut × Reader) := do
  let (t, r) ← decodeSpliceTime r
  return (.timeSignal t, r)

/-- `DecodeBody(t, r)` (41_splice_command.md R130). -/
def decodeBody (t : Nat) (r : Reader) : Except Error (SpliceCommandOut × Reader) :=
  if t = Config.ctSpliceInsert then decodeInsertBody r
  else if t = Config.ctTimeSignal then decodeTimeSignalBody r
  else .error (.unsupportedCommandType t)

/-! ### Operations -/

/-- SC.ENC_INSERT (41_splice_command.md R124). -/
def execScEncInsert (s : State) : Host.Outcome State Fault Refusal :=
  .next (s.answer ((encodeInsertBody s.req.insert).map Response.okBytes))

/-- SC.ENC_TSIG (41_splice_command.md R125). -/
def execScEncTsig (s : State) : Host.Outcome State Fault Refusal :=
  .next (s.answer ((encodeTimeSignalBody s.req.tsigPts).map Response.okBytes))

/-- The response to a decoded body: the command and the bytes consumed (41_splice_command.md R131). -/
def bodyResponse (x : SpliceCommandOut × Reader) : Response := Response.okCommand x.1 (x.2.cur / 8)

/-- SC.DECODE (41_splice_command.md R131). -/
def execScDecode (s : State) : Host.Outcome State Fault Refusal :=
  .next (s.answer ((decodeBody s.req.ctype (Reader.new s.req.bytes)).map bodyResponse))

/-- The command type splice_insert: decode the request's bytes as its body (30_encoding.md R72; 41_splice_command.md R128). -/
def execSpliceInsert (s : State) : Host.Outcome State Fault Refusal :=
  .next (s.answer ((decodeInsertBody (Reader.new s.req.bytes)).map bodyResponse))

/-- The command type time_signal: decode the request's bytes as its body (30_encoding.md R72; 41_splice_command.md R129). -/
def execTimeSignal (s : State) : Host.Outcome State Fault Refusal :=
  .next (s.answer ((decodeTimeSignalBody (Reader.new s.req.bytes)).map bodyResponse))

end Sys2Proof.Machine
end

