-- ==== Sys2Proof/Machine/SectionAssembler.lean ====
section
/-! DEFINITION. The SectionAssembler (43_section_assembler.md R160 to R171; 30_encoding.md R70). -/

namespace Sys2Proof.Machine

/-! ### Encode path -/

/-- The type byte of a command (43_section_assembler.md R161). -/
def SpliceCommandIn.typeByte : SpliceCommandIn → Nat
  | .insert _ => Config.ctSpliceInsert
  | .timeSignal _ => Config.ctTimeSignal

/-- The encoded body of a command (43_section_assembler.md R161 step (1)). -/
def SpliceCommandIn.encodeBody : SpliceCommandIn → Except Error Bytes
  | .insert i => encodeInsertBody i
  | .timeSignal pts => encodeTimeSignalBody pts

/-- `splice_command_length` from the body length (43_section_assembler.md R162). -/
def spliceCommandLengthOf (len : Nat) : Nat := 1 + len

/-- `section_length` from the body length (43_section_assembler.md R163). -/
def sectionLengthOf (len : Nat) : Nat := 11 + len + 2 + 4

/-- The header fields in write order (43_section_assembler.md R161 step (3); 30_encoding.md R70). -/
def headerFields (len ct pa tier : Nat) : List (Nat × Nat) :=
  [(Config.tableId, 8), (Config.sectionFlags4, 4), (sectionLengthOf len, 12), (Config.protocolVersion, 8),
    (Config.encryptedPacket, 1), (Config.encryptionAlgorithm, 6), (pa, Config.ptsBits), (Config.cwIndex, 8),
    (tier, 12), (spliceCommandLengthOf len, 12), (ct, 8)]

/-- `EncodeSection(cmd, pa, tier)` (43_section_assembler.md R161, R164). -/
def encodeSection (cmd : SpliceCommandIn) (pa tier : Nat) : Except Error Bytes := do
  let body ← cmd.encodeBody
  let p ← appendFields Packer.empty (headerFields body.length cmd.typeByte pa tier)
  let bytes := p.finish ++ body ++ beBytes 2 Config.descriptorLoopLength
  return bytes ++ beBytes 4 (crc32 bytes).toNat

/-- SA.ENCODE (43_section_assembler.md R160). -/
def execSaEncode (s : State) : Host.Outcome State Fault Refusal :=
  .next (s.answer ((encodeSection s.req.command s.req.ptsAdjustmentOr s.req.tierOr).map Response.okBytes))

/-! ### Decode path -/

/-- `DecodeSection(b)` up to the comparison of the checksums (43_section_assembler.md R166 to R170). -/
def decodeSection (b : Bytes) : Except Error DecodedSection := do
  let (tid, r) ← readField (Reader.new b) 8
  let (f4, r) ← readField r 4
  let (sl, r) ← readField r 12
  let (pv, r) ← readField (r.bound (3 + sl)) 8
  let (ep, r) ← readField r 1
  let (ea, r) ← readField r 6
  let (pa, r) ← readField r Config.ptsBits
  let (cw, r) ← readField r 8
  let (tr, r) ← readField r 12
  let (scl, r) ← readField r 12
  let (ct, r) ← readField r 8
  let (cmd, r) ← decodeBody ct r
  let (dll, r) ← readField r 16
  let (_, r) ← readBytes r dll
  let pos := r.cur / 8
  let (cs, _) ← readField r 32
  return {
      tableId := tid, sectionFlags4 := f4, sectionLength := sl, protocolVersion := pv, encryptedPacket := ep,
      encryptionAlgorithm := ea, ptsAdjustment := pa, cwIndex := cw, tier := tr, spliceCommandLength := scl,
      spliceCommandType := ct, command := cmd, descriptorLoopLength := dll, crcStored := cs,
      crcComputed := (crc32 (b.take pos)).toNat, bytesConsumed := pos + 4 }

/-- SA.DECODE (43_section_assembler.md R165, R166, R170). -/
def execSaDecode (s : State) : Host.Outcome State Fault Refusal :=
  .next (s.answer ((decodeSection s.req.bytes).map Response.ofSection))

end Sys2Proof.Machine
end

