-- ==== Sys2Proof/Machine/Ticks.lean ====
section
/-! DEFINITION. The conversion between seconds and ticks (41_splice_command.md R132, R133): pure functions of the host, with no
opcode. Seconds are exact rationals. -/

namespace Sys2Proof.Machine

/-- `SecondsToTicks(s) = trunc(s · 90000)`, toward zero (41_splice_command.md R132). -/
def secondsToTicks (s : Rat) : Int :=
  (s * Config.ticksPerSecond).num.tdiv (s * Config.ticksPerSecond).den

/-- `TicksToSeconds(t) = t / 90000`, exact (41_splice_command.md R133). -/
def ticksToSeconds (t : Int) : Rat := t / Config.ticksPerSecond

end Sys2Proof.Machine
end

