-- ==== Sys2Proof/Machine/Dispatch.lean ====
section
/-! DEFINITION. One arm per instruction. -/

namespace Sys2Proof.Machine

def exec (i : Instr) (s : State) : Host.Outcome State Fault Refusal :=
  match i with
  | .bpInit => Sys2Proof.Machine.execBpInit s
  | .bpWrite w => Sys2Proof.Machine.execBpWrite w s
  | .bpFinish => Sys2Proof.Machine.execBpFinish s
  | .brLoad => Sys2Proof.Machine.execBrLoad s
  | .brRead w => Sys2Proof.Machine.execBrRead w s
  | .scEncInsert => Sys2Proof.Machine.execScEncInsert s
  | .scEncTsig => Sys2Proof.Machine.execScEncTsig s
  | .scDecode => Sys2Proof.Machine.execScDecode s
  | .crcCompute => Sys2Proof.Machine.execCrcCompute s
  | .crcVerify => Sys2Proof.Machine.execCrcVerify s
  | .saEncode => Sys2Proof.Machine.execSaEncode s
  | .saDecode => Sys2Proof.Machine.execSaDecode s
  | .spliceInsert => Sys2Proof.Machine.execSpliceInsert s
  | .timeSignal => Sys2Proof.Machine.execTimeSignal s

end Sys2Proof.Machine
end

