-- ==== Sys2Proof/Machine/Step.lean ====
section
/-! DEFINITION. One step: the unit takes the host's oldest event and acts on it whole (10_state.md R20; 20_memory.md R47;
70_reset_and_hazards.md R220, R223); with no event it is idle (60_exceptions.md R218). -/

namespace Sys2Proof.Machine

/-- The request in service is carried out: an illegal command word raises IllegalCommand (30_encoding.md R64), every other
one runs its instruction. -/
def serve (s : State) : Host.Outcome State Fault Refusal :=
  match s.req.instr with
  | .error _ => .next s.raiseIllegal
  | .ok i => exec i s

/-- One step of the machine. -/
def step (s : State) : Host.Outcome State Fault Refusal :=
  match s.port with
  | [] => .next s
  | .request k r :: _ =>
    match s.popPort.focus k with
    | none => .fault (.noSuchInstance k)
    | some t => serve (t.accept r)
  | .reset k :: _ =>
    match s.popPort.focus k with
    | none => .fault (.noSuchInstance k)
    | some t => .next t.resetInstance
  | .resetAll :: _ => .next s.popPort.resetAll

/-- `s` with the instruction of a table word as the host's next request, to the instance in focus (log 2). -/
def State.withFetchWord (s : State) (nbits w : Nat) : State :=
  { s with port := .request s.index (Request.ofTableWord nbits w) :: s.port }

end Sys2Proof.Machine
end

