-- ==== Sys2Proof/Safety.lean ====
section
/-! DEFINITION. What a safe run is, in the terms the statements use: legal command words by the spec's own formula, legal
responses, the invariant of the machine, steps that go on, what a request leaves behind, the byte views of the wire formats,
the CRC over naturals, and requests issued one after the other. -/

namespace Sys2Proof.Machine

/-- `legal(cmd)`, the pseudocode of 30_encoding.md R64, over the word's number. -/
def legalCommand (c : CmdWord) : Bool :=
  let op := c.toNat / 256
  let rsv := c.toNat / 128 % 2
  let w := c.toNat % 128
  decide (rsv = 0)
    && ((decide (op ∈ [0x02, 0x12]) && decide (1 ≤ w) && decide (w ≤ 64))
      || (decide (op ∈ [0x01, 0x03, 0x11, 0x21, 0x22, 0x23, 0x31, 0x32, 0x41, 0x42]) && decide (w = 0)))

/-- A response with no result field (60_exceptions.md R209). -/
def Response.noResults (r : Response) : Bool :=
  r.value.isNone && r.bytes.isNone && r.command.isNone && r.consumed.isNone && r.sect.isNone

/-- A legal response (60_exceptions.md R201 to R206, R209): status and payload agree, the payload is one the error can have,
an error other than ChecksumMismatchError has no result field, and a ChecksumMismatchError has the section whose two
checksums differ. -/
def Response.wf (r : Response) : Bool :=
  match r.status, r.info with
  | .ok, .empty => r.sect.all fun d => decide (d.crcStored = d.crcComputed)
  | .fieldOverflowError, .overflow w v => !fits v w && r.noResults
  | .truncatedInputError, .offset _ => r.noResults
  | .unsupportedCommandTypeError, .type t => decide (t ≠ 0x05) && decide (t ≠ 0x06) && r.noResults
  | .checksumMismatchError, .checksums a b =>
    decide (a ≠ b) && r.sect.any (fun d => decide (d.crcStored = a) && decide (d.crcComputed = b))
      && r.value.isNone && r.bytes.isNone && r.command.isNone && r.consumed.isNone
  | .illegalCommand, .command c => !legalCommand c && r.noResults
  | _, _ => false

/-- The host may treat the response's data as validated (60_exceptions.md R205; 70_reset_and_hazards.md R225). -/
def Response.validated (r : Response) : Bool := decide (r.status = .ok)

/-- An instance as every run keeps it: the reader invariant and `RD.limit = 8·|RD.buf|` (10_state.md R24), the capacities
(40_bitpacker.md R111), and a legal response on the port. -/
def Instance.wf (p : Config.Params) (x : Instance) : Bool :=
  x.rd.wf && decide (x.rd.limit = 8 * x.rd.buf.length) && admits p.pkCapacityBits x.pk.n
    && admits p.rdCapacityBytes x.rd.buf.length && x.resp.all Response.wf

/-- The invariant of the machine between requests: every instance is well formed, and no request record persists
(10_state.md R21). -/
def State.inv (s : State) : Bool := s.insts.all (Instance.wf s.params) && decide (s.req = Request.idle)

/-- The parameters leave both stores unbounded, the default of 00_scope.md R4. -/
def State.unbounded (s : State) : Bool := decide (s.params = Config.Params.default)

/-- The next event, if any, names an instance that exists. -/
def State.portOk (s : State) : Bool :=
  match s.port with
  | [] => true
  | .request k _ :: _ => decide (k < s.nInstances)
  | .reset k :: _ => decide (k < s.nInstances)
  | .resetAll :: _ => true

/-- The outcome is a next state. -/
def goesOn : Host.Outcome State Fault Refusal → Bool
  | .next _ => true
  | .fault _ => false
  | .refused _ => false

/-! ### What a request leaves behind -/

/-- The state `s` becomes when the request in service leaves the packer `p`, the reader `d` and the response `r`: nothing
else changes but the request record, which does not persist (10_state.md R21). -/
def State.done (s : State) (p : Packer) (d : Reader) (r : Response) : State :=
  { s with inst := { pk := p, rd := d, resp := some r }, req := Request.idle }

/-- The state `s` becomes when the request in service only returns the response `r`. -/
def State.answered (s : State) (r : Response) : State := s.done s.inst.pk s.inst.rd r

/-- Everything outside the instance in service and its request record is the same. -/
def State.sameElsewhere (s t : State) : Prop :=
  t.params = s.params ∧ t.before = s.before ∧ t.after = s.after ∧ t.port = s.port

/-- The composite requests (10_state.md R25) and the two command types. -/
def isComposite : Instr → Bool
  | .bpInit => false
  | .bpWrite _ => false
  | .bpFinish => false
  | .brLoad => false
  | .brRead _ => false
  | .scEncInsert => true
  | .scEncTsig => true
  | .scDecode => true
  | .crcCompute => true
  | .crcVerify => true
  | .saEncode => true
  | .saDecode => true
  | .spliceInsert => true
  | .timeSignal => true

/-- The requests on the packer. -/
def onPacker (i : Instr) : Bool :=
  match i with
  | .bpInit => true
  | .bpWrite _ => true
  | .bpFinish => true
  | _ => false

/-- The requests on the reader. -/
def onReader (i : Instr) : Bool :=
  match i with
  | .brLoad => true
  | .brRead _ => true
  | _ => false

/-! ### Bits and bytes by position -/

/-- Bit `n` of a byte string, each byte's bit 7 first (00_scope.md R5, R8; 20_memory.md R41); false past its end. -/
def bitAt (b : Bytes) (n : Nat) : Bool := (b.getD (n / 8) 0#8).getMsbD (n % 8)

/-- Bit `n` of a byte string inverted. -/
def flipBit (b : Bytes) (n : Nat) : Bytes := b.modify (n / 8) fun x => x ^^^ BitVec.ofNat 8 (2 ^ (7 - n % 8))

/-- `v[w-1], ..., v[0]`, position by position (00_scope.md R8). -/
def bitsByPosition (v w : Nat) : Bits := (List.range w).map fun j => v.testBit (w - 1 - j)

/-- The value of a byte string, most significant byte first (20_memory.md R42). -/
def beValue (b : Bytes) : Nat := b.foldl (fun v x => 256 * v + x.toNat) 0

/-- The four bytes of a 32-bit value, most significant first (20_memory.md R42). -/
def be32 (v : Nat) : Bytes :=
  [BitVec.ofNat 8 (v / 2 ^ 24), BitVec.ofNat 8 (v / 2 ^ 16), BitVec.ofNat 8 (v / 2 ^ 8), BitVec.ofNat 8 v]

/-- The 33-bit value in five bytes `b0 .. b4` (30_encoding.md R78). -/
def value33 (b : Bytes) : Nat := (b.getD 0 0#8).toNat % 2 * 2 ^ 32 + beValue (b.drop 1)

/-! ### Byte views of the wire formats -/

/-- The flags byte by its masks (30_encoding.md R74). -/
def flagsByteView (i : SpliceInsertIn) : Byte :=
  BitVec.ofNat 8 (i.cancelIndicator.toNat * 0x80 + i.outOfNetwork.toNat * 0x40 + 0x20 + i.durationFlag.toNat * 0x10
    + i.immediate.toNat * 0x08 + 0x07)

/-- A splice_time (30_encoding.md R75): byte 0 is `0xFE | pts[32]`. -/
def spliceTimeView (pts : Nat) : Bytes := BitVec.ofNat 8 (0xFE + pts / 2 ^ 32) :: be32 pts

/-- A break_duration (30_encoding.md R76): byte 0 is `auto_return << 7 | 0x7E | duration_ticks[32]`. -/
def breakDurationView (autoReturn : Bool) (d : Nat) : Bytes :=
  BitVec.ofNat 8 (autoReturn.toNat * 0x80 + 0x7E + d / 2 ^ 32) :: be32 d

/-- A splice_insert body (30_encoding.md R73, R74). -/
def insertBodyView (i : SpliceInsertIn) : Bytes :=
  be32 i.eventId ++ [flagsByteView i] ++ (if i.immediate then [] else spliceTimeView i.spliceTimePts)
    ++ (if i.durationFlag then breakDurationView i.autoReturn i.durationTicks else [])

/-- The body of a command (30_encoding.md R73, R77). -/
def SpliceCommandIn.bodyView : SpliceCommandIn → Bytes
  | .insert i => insertBodyView i
  | .timeSignal pts => spliceTimeView pts

/-- Bytes 0 to 13 of a section with a body of `len` bytes (30_encoding.md R70, byte view). -/
def headerView (len : Nat) (ct pa tier : Nat) : Bytes :=
  [0xFC#8, BitVec.ofNat 8 (0x30 + (17 + len) / 256), BitVec.ofNat 8 (17 + len), 0#8, BitVec.ofNat 8 (pa / 2 ^ 32)]
    ++ be32 pa ++ [0#8, BitVec.ofNat 8 (tier / 16), BitVec.ofNat 8 (tier % 16 * 16 + (1 + len) / 256),
      BitVec.ofNat 8 (1 + len), BitVec.ofNat 8 ct]

/-- The first field of an insert record, in write order, that does not fit (60_exceptions.md R208). -/
def SpliceInsertIn.firstOverflow (i : SpliceInsertIn) : Option (Nat × Nat) :=
  if 2 ^ 32 ≤ i.eventId then some (32, i.eventId)
  else if i.immediate = false ∧ 2 ^ 33 ≤ i.spliceTimePts then some (33, i.spliceTimePts)
  else if i.durationFlag = true ∧ 2 ^ 33 ≤ i.durationTicks then some (33, i.durationTicks)
  else none

/-- The first field of a command, in write order, that does not fit (60_exceptions.md R208). -/
def SpliceCommandIn.firstOverflow : SpliceCommandIn → Option (Nat × Nat)
  | .insert i => i.firstOverflow
  | .timeSignal pts => if 2 ^ 33 ≤ pts then some (33, pts) else none

/-! ### Where the fields of a section stand -/

/-- How many bytes of an input SA.DECODE may use (43_section_assembler.md R167): the input's, and once `section_length` can be
read no more than `3 + section_length`. -/
def sectionBound (b : Bytes) : Nat :=
  if b.length < 3 then b.length
  else min b.length (3 + ((b.getD 1 0#8).toNat % 16 * 256 + (b.getD 2 0#8).toNat))

/-- The header's fields in read order, each as the byte its first bit is in and the byte after its last bit's
(30_encoding.md R70): `table_id`, `section_flags4`, `section_length`, `protocol_version`, the two encryption fields,
`pts_adjustment`, `cw_index`, `tier`, `splice_command_length`, `splice_command_type`. -/
def headerSpans : List (Nat × Nat) :=
  [(0, 1), (1, 2), (1, 3), (3, 4), (4, 5), (4, 9), (9, 10), (10, 12), (11, 13), (13, 14)]

/-- The byte after the body of type `ct`, whose flags byte is `fl` where it is a splice_insert (30_encoding.md R80). -/
def bodyEnd (ct : Nat) (fl : Byte) : Nat :=
  if ct = 0x05 then 19 + (if fl.getLsbD 3 then 0 else 5) + (if fl.getLsbD 4 then 5 else 0) else 19

/-- The body's fields in read order (30_encoding.md R73, R77): event id, flags byte, splice_time and break_duration of a
splice_insert, or the splice_time of a time_signal. -/
def bodySpans (ct : Nat) (fl : Byte) : List (Nat × Nat) :=
  if ct = 0x05 then
    [(14, 18), (18, 19)] ++ (if fl.getLsbD 3 then [] else [(19, 24)])
      ++ (if fl.getLsbD 4 then [(bodyEnd ct fl - 5, bodyEnd ct fl)] else [])
  else [(14, 19)]

/-- All fields of a section in read order (30_encoding.md R70; 43_section_assembler.md R166): the header, and for a supported
type the body, `descriptor_loop_length`, each byte of the descriptor loop, and the stored CRC. -/
def sectionSpans (b : Bytes) : List (Nat × Nat) :=
  let ct := (b.getD 13 0#8).toNat
  let q := bodyEnd ct (b.getD 18 0#8)
  let n := (b.getD q 0#8).toNat * 256 + (b.getD (q + 1) 0#8).toNat
  if ct = 0x05 ∨ ct = 0x06 then
    headerSpans ++ bodySpans ct (b.getD 18 0#8) ++ [(q, q + 2)] ++ (List.range n).map (fun k => (q + 2 + k, q + 3 + k))
      ++ [(q + 2 + n, q + 6 + n)]
  else headerSpans

/-- The first of the fields that needs a byte at or past `n`. -/
def firstCut (spans : List (Nat × Nat)) (n : Nat) : Option (Nat × Nat) := spans.find? fun f => decide (n < f.2)

/-- A decoded command whose values are below their wire widths and whose optional fields are there exactly when its flags
call for them (10_state.md R32). -/
def SpliceCommandOut.inWidths : SpliceCommandOut → Bool
  | .insert i =>
    decide (i.eventId < 2 ^ 32) && (i.spliceTimePts.isSome == !i.immediate) && (i.breakDuration.isSome == i.durationFlag)
      && i.spliceTimePts.all (fun t => decide (t < 2 ^ 33)) && i.breakDuration.all (fun d => decide (d.durationTicks < 2 ^ 33))
  | .timeSignal t => decide (t < 2 ^ 33)

/-! ### The CRC over naturals -/

/-- One shift of the register as a natural, with the literal polynomial (42_crc32.md R151). -/
def crcRefShift (c : Nat) : Nat := if 2 ^ 31 ≤ c then (2 * c % 2 ^ 32) ^^^ 0x04C11DB7 else 2 * c

/-- One byte (42_crc32.md R151). -/
def crcRefByte (c : Nat) (b : Byte) : Nat := crcRefShift^[8] (c ^^^ b.toNat * 2 ^ 24)

/-- The pseudocode of 42_crc32.md R151 over naturals. -/
def crcReference (b : Bytes) : Nat := b.foldl crcRefByte 0xFFFFFFFF

/-- The table-driven form 42_crc32.md R151 speaks of: one lookup per byte, by the register's top byte. -/
def crcTableDriven (b : Bytes) : Nat :=
  b.foldl (fun c x => (c * 256 % 2 ^ 32) ^^^ crcRefShift^[8] ((c / 2 ^ 24 ^^^ x.toNat) * 2 ^ 24)) 0xFFFFFFFF

/-! ### Requests one after the other -/

/-- The host issues one request to the instance in focus and takes its response (70_reset_and_hazards.md R223); none where
the machine stops. -/
def issue (s : State) (f : AsmForm) : Option (State × Response) :=
  match step { s with port := [.request s.index f.request] } with
  | .next t => t.inst.resp.map fun r => (t, r)
  | .fault _ => none
  | .refused _ => none

/-- The host issues requests one after the other and collects the responses. -/
def issueAll (s : State) : List AsmForm → Option (State × List Response)
  | [] => some (s, [])
  | f :: fs => do
    let (t, r) ← issue s f
    let (u, rs) ← issueAll t fs
    return (u, r :: rs)

end Sys2Proof.Machine
end

