-- ==== Sys2Proof/Certificates/Slice0/Obligations.lean ====
section
/-! DEFINITION. The statements for the provers. They speak of the model through the vocabulary of Sys2Proof/Safety.lean:
`State.done` (what a request leaves behind, everything else unchanged), bits by position, the byte views of the wire formats,
the CRC over naturals, and requests issued one after the other. -/

open Sys2Proof Sys2Proof.Machine

/-! ### Encoding -/

/-- Decoding an encoded well-formed instruction gives it back (30_encoding.md R60 to R62, R72). -/
def Obligations.DecodeOfEncodeIsTheInstruction : Prop :=
  ∀ i : Instr, i.wf = true → decode (encode i) = .ok i

/-- Every code that decodes is the one encoding of a well-formed instruction, so no bit of a code is ignored
(30_encoding.md R60 to R64, R72). -/
def Obligations.EncodeOfDecodeIsTheCode : Prop :=
  ∀ (c : Code) (i : Instr), decode c = .ok i → i.wf = true ∧ encode i = c

/-- A command word decodes exactly when the pseudocode `legal(cmd)` of 30_encoding.md R64 accepts it. -/
def Obligations.CommandWordDecodesIffLegal : Prop :=
  ∀ c : CmdWord, (∃ i, decode (.cmd c) = .ok i) ↔ legalCommand c = true

/-- A request is answered IllegalCommand exactly when its command word is illegal (30_encoding.md R64; 60_exceptions.md
R206): the payload is the word, and nothing changes but the response on the port the request came from. -/
def Obligations.IllegalCommandExactlyForIllegalWords : Prop :=
  ∀ (s : State) (k : Nat) (r : Request) (rest : List HostEvent) (x : Instance),
    s.port = .request k r :: rest → s.insts[k]? = some x →
      (legalCommand r.cmd = false →
        ∃ t, step s = .next t ∧ t.params = s.params ∧ t.port = rest ∧ t.req = Request.idle ∧
          t.insts = s.insts.set k { x with
            resp := some { status := .illegalCommand, info := .command r.cmd, value := none, bytes := none,
                           command := none, consumed := none, sect := none } }) ∧
      (legalCommand r.cmd = true →
        ∀ t y a, step s = .next t → t.insts[k]? = some y → y.resp = some a → a.status ≠ .illegalCommand)

/-- Words written out bit by bit from 30_encoding.md R60, R61 and R72 decode to the instructions they stand for. -/
def Obligations.WrittenOutWordsDecode : Prop :=
  decode (.cmd 0b0000001000000001#16) = .ok (.bpWrite 1) ∧ decode (.cmd 0b0001001001000000#16) = .ok (.brRead 64) ∧
  decode (.cmd 0b0010001100000000#16) = .ok .scDecode ∧ decode (.cmd 0b0011000100000000#16) = .ok .crcCompute ∧
  decode (.cmd 0b0100001000000000#16) = .ok .saDecode ∧ decode (.ctype 0b00000101) = .ok .spliceInsert

/-- A step on a request whose command word decodes to `i` is `exec i` with the request's instance in focus, its record in
service and the event taken from the port; and where `i` is SC.DECODE and the type operand decodes to `j`, it is `exec j` too
(30_encoding.md R60; 41_splice_command.md R130; log 9). -/
def Obligations.StepRunsTheDecodedInstruction : Prop :=
  ∀ (s : State) (k : Nat) (r : Request) (rest : List HostEvent) (x : Instance) (i : Instr),
    s.port = .request k r :: rest → s.insts[k]? = some x → decode (.cmd r.cmd) = .ok i →
      let u : State := { s with port := rest, before := s.insts.take k, inst := x, after := s.insts.drop (k + 1), req := r }
      step s = exec i u ∧ (i = .scDecode → ∀ j, decode (.ctype r.ctype) = .ok j → step s = exec j u)

/-- Every assembler form with a legal width stands for a request whose command word is the encoding of the form's
instruction (30_encoding.md R66). -/
def Obligations.AssemblerFormsEncodeTheirInstruction : Prop :=
  ∀ f : AsmForm, f.instr.wf = true → encode f.instr = .cmd f.request.cmd

/-! ### BitPacker and BitReader -/

/-- BP.INIT (40_bitpacker.md R101): the packer becomes empty, whatever it held. -/
def Obligations.BpInitEmptiesThePacker : Prop :=
  encode .bpInit = .cmd 0x0100#16 ∧
  ∀ s : State, exec .bpInit s = .next (s.done { bits := [] } s.inst.rd Response.ok)

/-- BP.WRITE (40_bitpacker.md R102): a value that fits is appended most significant bit first; one that does not raises
FieldOverflowError and appends nothing; past the capacity the request is refused. -/
def Obligations.BpWriteAppendsMostSignificantBitFirst : Prop :=
  ∀ (s : State) (w : Nat), 1 ≤ w → w ≤ 64 →
    encode (.bpWrite w) = .cmd (BitVec.ofNat 16 (0x0200 + w)) ∧
    (s.req.value < 2 ^ w → (∀ c, s.params.pkCapacityBits = some c → s.inst.pk.bits.length + w ≤ c) →
      exec (.bpWrite w) s
        = .next (s.done { bits := s.inst.pk.bits ++ bitsByPosition s.req.value w } s.inst.rd Response.ok)) ∧
    (2 ^ w ≤ s.req.value →
      exec (.bpWrite w) s = .next (s.answered (Error.fieldOverflow w s.req.value).response)) ∧
    (∀ c, s.req.value < 2 ^ w → s.params.pkCapacityBits = some c → c < s.inst.pk.bits.length + w →
      exec (.bpWrite w) s = .refused (.capacityExceeded (s.inst.pk.bits.length + w) c))

/-- BP.FINISH (40_bitpacker.md R103): the bytes are the packer's bits, bit 7 of byte 0 first, the last byte's unused low bits
zero, and no byte more; the packer is not changed. -/
def Obligations.BpFinishReturnsTheZeroPaddedImage : Prop :=
  encode .bpFinish = .cmd 0x0300#16 ∧
  ∀ s : State, ∃ b : Bytes, exec .bpFinish s = .next (s.answered (Response.okBytes b)) ∧
    b.length = (s.inst.pk.bits.length + 7) / 8 ∧ ∀ n, bitAt b n = s.inst.pk.bits.getD n false

/-- BR.LOAD (40_bitpacker.md R104): buffer, cursor and limit are replaced; past the capacity the request is refused. -/
def Obligations.BrLoadReplacesTheReader : Prop :=
  encode .brLoad = .cmd 0x1100#16 ∧
  ∀ s : State,
    ((∀ c, s.params.rdCapacityBytes = some c → s.req.bytes.length ≤ c) →
      exec .brLoad s
        = .next (s.done s.inst.pk { buf := s.req.bytes, cur := 0, limit := 8 * s.req.bytes.length } Response.ok)) ∧
    (∀ c, s.params.rdCapacityBytes = some c → c < s.req.bytes.length →
      exec .brLoad s = .refused (.capacityExceeded s.req.bytes.length c))

/-- BR.READ (40_bitpacker.md R105): the `w` bits at the cursor, first bit most significant, and the cursor moves past them;
with fewer bits left it raises TruncatedInputError with the cursor's byte and the cursor stays. -/
def Obligations.BrReadTakesTheBitsAtTheCursor : Prop :=
  ∀ (s : State) (w : Nat), 1 ≤ w → w ≤ 64 →
    encode (.brRead w) = .cmd (BitVec.ofNat 16 (0x1200 + w)) ∧
    (s.inst.rd.wf = true → s.inst.rd.cur + w ≤ s.inst.rd.limit →
      ∃ v, exec (.brRead w) s
          = .next (s.done s.inst.pk { s.inst.rd with cur := s.inst.rd.cur + w } (Response.okValue v)) ∧
        v < 2 ^ w ∧ ∀ j, j < w → v.testBit (w - 1 - j) = bitAt s.inst.rd.buf (s.inst.rd.cur + j)) ∧
    (s.inst.rd.limit < s.inst.rd.cur + w →
      exec (.brRead w) s = .next (s.answered (Error.truncatedInput (s.inst.rd.cur / 8)).response))

/-- Round trip of the primitives through the machine (the law of 40_bitpacker.md R110): the fields written from an empty
packer, finished, loaded and read with the same widths come back, and what is left to read is zero. -/
def Obligations.WrittenFieldsReadBack : Prop :=
  ∀ (s : State) (fs : List (Nat × Nat)), s.unbounded = true →
    (∀ f ∈ fs, 1 ≤ f.2 ∧ f.2 ≤ 64 ∧ f.1 < 2 ^ f.2) →
      ∃ (t u : State) (b : Bytes),
        issueAll s (.bpInit :: fs.map (fun f => .bpWrite f.2 f.1) ++ [.bpFinish])
          = some (t, List.replicate (fs.length + 1) Response.ok ++ [Response.okBytes b]) ∧
        issueAll t (.brLoad b :: fs.map (fun f => .brRead f.2))
          = some (u, Response.ok :: fs.map (fun f => Response.okValue f.1)) ∧
        ∀ w, 1 ≤ w → w ≤ 8 * b.length - (fs.map Prod.snd).sum →
          ∃ v, issue u (.brRead w) = some (v, Response.okValue 0)

/-! ### SpliceCommand codec -/

/-- SC.ENC_INSERT (41_splice_command.md R124): the body's bytes, or FieldOverflowError for the first field in write order
that does not fit. -/
def Obligations.ScEncInsertReturnsTheBody : Prop :=
  encode .scEncInsert = .cmd 0x2100#16 ∧
  ∀ s : State,
    (s.req.insert.firstOverflow = none →
      exec .scEncInsert s = .next (s.answered (Response.okBytes (insertBodyView s.req.insert)))) ∧
    (∀ w v, s.req.insert.firstOverflow = some (w, v) →
      exec .scEncInsert s = .next (s.answered (Error.fieldOverflow w v).response))

/-- SC.ENC_TSIG (41_splice_command.md R125). -/
def Obligations.ScEncTsigReturnsTheBody : Prop :=
  encode .scEncTsig = .cmd 0x2200#16 ∧
  ∀ s : State,
    (s.req.tsigPts < 2 ^ 33 →
      exec .scEncTsig s = .next (s.answered (Response.okBytes (spliceTimeView s.req.tsigPts)))) ∧
    (2 ^ 33 ≤ s.req.tsigPts →
      exec .scEncTsig s = .next (s.answered (Error.fieldOverflow 33 s.req.tsigPts).response))

/-- The command type splice_insert, and SC.DECODE with type 0x05, on bytes that hold the body the flags byte calls for,
followed by any bytes (41_splice_command.md R128, R131; 30_encoding.md R73, R74, R78): every field by its place, the reserved
bits free, `consumed` the body's length. -/
def Obligations.SpliceInsertBodyDecodes : Prop :=
  ∀ (s : State) (eid : Bytes) (fl : Byte) (tb bb rest : Bytes),
    s.req.bytes = eid ++ [fl] ++ tb ++ bb ++ rest → eid.length = 4 →
    tb.length = (if fl.getLsbD 3 then 0 else 5) → bb.length = (if fl.getLsbD 4 then 5 else 0) →
      let t := s.answered (Response.okCommand
        (.insert
          { eventId := beValue eid, cancelIndicator := fl.getLsbD 7, outOfNetwork := fl.getLsbD 6,
            programSplice := fl.getLsbD 5, durationFlag := fl.getLsbD 4, immediate := fl.getLsbD 3,
            spliceTimePts := if fl.getLsbD 3 then none else some (value33 tb),
            breakDuration :=
              if fl.getLsbD 4 then some { autoReturn := bitAt bb 0, durationTicks := value33 bb } else none })
        (5 + tb.length + bb.length))
      exec .spliceInsert s = .next t ∧ (s.req.ctype = 0x05 → exec .scDecode s = .next t)

/-- A splice_insert body that ends inside a field raises TruncatedInputError with the byte of the field's first bit: 0 for
the event id, 4 for the flags byte, 5 for the splice_time, and 5 or 10 for the break_duration (41_splice_command.md R131). -/
def Obligations.SpliceInsertBodyCutShortIsTruncated : Prop :=
  ∀ s : State,
    let b := s.req.bytes
    let fl := b.getD 4 0#8
    let after := if fl.getLsbD 3 then 5 else 10
    let trunc := fun n => Host.Outcome.next (s.answered (Error.truncatedInput n).response)
    (b.length < 4 → exec .spliceInsert s = trunc 0) ∧
    (b.length = 4 → exec .spliceInsert s = trunc 4) ∧
    (5 ≤ b.length → b.length < after → exec .spliceInsert s = trunc 5) ∧
    (after ≤ b.length → fl.getLsbD 4 = true → b.length < after + 5 → exec .spliceInsert s = trunc after)

/-- The command type time_signal, and SC.DECODE with type 0x06: the 33-bit value of the first five bytes, the flag and the
reserved bits free, or TruncatedInputError(0) on fewer bytes (41_splice_command.md R126, R129, R131; 30_encoding.md R78). -/
def Obligations.TimeSignalBodyDecodes : Prop :=
  ∀ s : State,
    (5 ≤ s.req.bytes.length →
      let t := s.answered (Response.okCommand (.timeSignal (value33 (s.req.bytes.take 5))) 5)
      exec .timeSignal s = .next t ∧ (s.req.ctype = 0x06 → exec .scDecode s = .next t)) ∧
    (s.req.bytes.length < 5 →
      let t := s.answered (Error.truncatedInput 0).response
      exec .timeSignal s = .next t ∧ (s.req.ctype = 0x06 → exec .scDecode s = .next t))

/-- The dispatcher (41_splice_command.md R130): SC.DECODE runs the instruction its type operand decodes to, and raises
UnsupportedCommandTypeError with the type for any other, before reading any byte. -/
def Obligations.ScDecodeDispatchesOnTheType : Prop :=
  encode .scDecode = .cmd 0x2300#16 ∧
  ∀ s : State,
    (∀ i, decode (.ctype s.req.ctype) = .ok i → exec .scDecode s = exec i s) ∧
    (s.req.ctype ≠ 0x05 → s.req.ctype ≠ 0x06 →
      exec .scDecode s = .next (s.answered (Error.unsupportedCommandType s.req.ctype).response))

/-- Round trip of the codec through the machine (the law of 41_splice_command.md R134), with any bytes after the body. -/
def Obligations.EncodedBodiesDecodeToTheirInput : Prop :=
  ∀ (s : State) (c : SpliceCommandIn) (rest : Bytes), c.fitsWire = true →
    ∃ (t u : State) (b : Bytes),
      issue s (match c with | .insert i => .scEncInsert i | .timeSignal pts => .scEncTsig pts)
        = some (t, Response.okBytes b) ∧
      issue t (.scDecode (match c with | .insert _ => 0x05 | .timeSignal _ => 0x06) (b ++ rest))
        = some (u, Response.okCommand c.norm b.length)

/-- Lengths of splice_insert bodies: `immediate` takes away exactly 5 bytes, `duration_flag` adds exactly 5, and the smallest
body has 5 (the laws of 41_splice_command.md R135 and 30_encoding.md R80). -/
def Obligations.InsertBodyLengthFollowsTheFlags : Prop :=
  ∀ (i : SpliceInsertIn) (b : Bytes), encodeInsertBody i = .ok b →
    b.length = 5 + (if i.immediate then 0 else 5) + (if i.durationFlag then 5 else 0)

/-- Fields an encode does not read change nothing (10_state.md R29): `program_splice` always, `splice_time_pts` when
`immediate`, `auto_return` and `duration_ticks` when not `duration_flag`. -/
def Obligations.UnreadInsertFieldsAreIgnored : Prop :=
  ∀ (i : SpliceInsertIn) (ps ar : Bool) (pts d : Nat),
    encodeInsertBody { i with programSplice := ps } = encodeInsertBody i ∧
    (i.immediate = true → encodeInsertBody { i with spliceTimePts := pts } = encodeInsertBody i) ∧
    (i.durationFlag = false → encodeInsertBody { i with autoReturn := ar, durationTicks := d } = encodeInsertBody i)

/-! ### CRC32 engine -/

/-- CRC.COMPUTE (42_crc32.md R152, R151): the CRC of the request's bytes, by the pseudocode over naturals with the literal
parameters. -/
def Obligations.CrcComputeReturnsTheCrc : Prop :=
  encode .crcCompute = .cmd 0x3100#16 ∧
  ∀ s : State,
    exec .crcCompute s = .next (s.answered (Response.okValue (crcReference s.req.bytes))) ∧
    crcReference s.req.bytes < 2 ^ 32

/-- CRC.VERIFY (42_crc32.md R153): 1 exactly when the expected value is the CRC, else 0, never an error. -/
def Obligations.CrcVerifyComparesWithTheCrc : Prop :=
  encode .crcVerify = .cmd 0x3200#16 ∧
  ∀ s : State,
    exec .crcVerify s
      = .next (s.answered (Response.okValue (if crcReference s.req.bytes = s.req.value then 1 else 0))) ∧
    (2 ^ 32 ≤ s.req.value → crcReference s.req.bytes ≠ s.req.value)

/-- The table-driven form gives the same CRC as the model's bitwise form (42_crc32.md R151). -/
def Obligations.TableDrivenCrcIsTheBitwiseCrc : Prop :=
  ∀ b : Bytes, crcTableDriven b = (crc32 b).toNat

/-- Residue law (42_crc32.md R154, which the spec takes from general knowledge). -/
def Obligations.CrcOfDataAndItsCrcIsZero : Prop :=
  ∀ b : Bytes, crc32 (b ++ be32 (crc32 b).toNat) = 0#32

/-- Error detection (42_crc32.md R155, which the spec takes from general knowledge): strings of the same length that differ
only inside one window of at most 32 bits have different CRCs. -/
def Obligations.CrcDetectsEveryBurstOfAtMost32Bits : Prop :=
  ∀ (b c : Bytes) (p d e q : Bits), unpack b = p ++ d ++ q → unpack c = p ++ e ++ q →
    d.length = e.length → d.length ≤ 32 → d ≠ e → crc32 b ≠ crc32 c

/-! ### SectionAssembler -/

/-- SA.ENCODE (43_section_assembler.md R160, R161; 30_encoding.md R70): the section by its byte view, with its CRC, for
operands that fit, a missing operand taking its default. -/
def Obligations.SaEncodeReturnsTheSection : Prop :=
  encode .saEncode = .cmd 0x4100#16 ∧
  ∀ s : State,
    let pa := s.req.ptsAdjustment.getD 0
    let tier := s.req.tier.getD 0xFFF
    let body := s.req.command.bodyView
    let ct := match s.req.command with | .insert _ => 0x05 | .timeSignal _ => 0x06
    let front := headerView body.length ct pa tier ++ body ++ [0#8, 0#8]
    s.req.command.firstOverflow = none → pa < 2 ^ 33 → tier < 2 ^ 12 →
      exec .saEncode s = .next (s.answered (Response.okBytes (front ++ be32 (crcReference front))))

/-- Overflow in SA.ENCODE: the body's first field that does not fit, else `pts_adjustment`, else `tier`
(60_exceptions.md R208). -/
def Obligations.SaEncodeReportsTheFirstOverflow : Prop :=
  ∀ s : State,
    let pa := s.req.ptsAdjustment.getD 0
    let tier := s.req.tier.getD 0xFFF
    let ovf := fun w v => Host.Outcome.next (s.answered (Error.fieldOverflow w v).response)
    (∀ w v, s.req.command.firstOverflow = some (w, v) → exec .saEncode s = ovf w v) ∧
    (s.req.command.firstOverflow = none → 2 ^ 33 ≤ pa → exec .saEncode s = ovf 33 pa) ∧
    (s.req.command.firstOverflow = none → pa < 2 ^ 33 → 2 ^ 12 ≤ tier → exec .saEncode s = ovf 12 tier)

/-- The length fields of every encoded section are the byte counts of their spans, and the section has 25, 30 or 35 bytes
(the laws of 43_section_assembler.md R172 and 30_encoding.md R82). -/
def Obligations.EncodedLengthFieldsAreTheByteCounts : Prop :=
  ∀ (c : SpliceCommandIn) (pa tier : Nat) (b : Bytes), encodeSection c pa tier = .ok b →
    (b.getD 1 0#8).toNat % 16 * 256 + (b.getD 2 0#8).toNat = b.length - 3 ∧
    (b.getD 11 0#8).toNat % 16 * 256 + (b.getD 12 0#8).toNat = b.length - 19 ∧
    b.length ∈ [25, 30, 35]

/-- SA.DECODE on a section laid out as 30_encoding.md R70, with any header values, any descriptor loop, any stored CRC and
any bytes after it, long enough for its `section_length` (43_section_assembler.md R166 to R171): every field by its place, the
CRC over everything before the stored one, and OK exactly when the two agree. -/
def Obligations.SaDecodeReturnsEveryFieldAsRead : Prop :=
  encode .saDecode = .cmd 0x4200#16 ∧
  ∀ (s : State) (hd body loop rest : Bytes) (d0 d1 : Byte) (cs : Bytes) (cmd : SpliceCommandOut) (r : Reader),
    let front := hd ++ body ++ [d0, d1] ++ loop
    let at' := fun n => (hd.getD n 0#8).toNat
    s.req.bytes = front ++ cs ++ rest → hd.length = 14 → loop.length = d0.toNat * 256 + d1.toNat → cs.length = 4 →
    decodeBody (at' 13) (Reader.new body) = .ok (cmd, r) → r.cur = 8 * body.length →
    front.length + 4 ≤ 3 + (at' 1 % 16 * 256 + at' 2) →
      exec .saDecode s = .next (s.answered (Response.ofSection
        { tableId := at' 0, sectionFlags4 := at' 1 / 16, sectionLength := at' 1 % 16 * 256 + at' 2,
          protocolVersion := at' 3, encryptedPacket := at' 4 / 128, encryptionAlgorithm := at' 4 / 2 % 64,
          ptsAdjustment := value33 ((hd.drop 4).take 5), cwIndex := at' 9, tier := at' 10 * 16 + at' 11 / 16,
          spliceCommandLength := at' 11 % 16 * 256 + at' 12, spliceCommandType := at' 13, command := cmd,
          descriptorLoopLength := d0.toNat * 256 + d1.toNat, crcStored := beValue cs,
          crcComputed := crcReference front, bytesConsumed := front.length + 4 }))

/-- An unsupported type byte inside the bound: UnsupportedCommandTypeError with the byte, no section, whatever follows it
(43_section_assembler.md R168). -/
def Obligations.SaDecodeRejectsAnUnsupportedType : Prop :=
  ∀ (s : State) (hd rest : Bytes),
    s.req.bytes = hd ++ rest → hd.length = 14 →
    14 ≤ 3 + ((hd.getD 1 0#8).toNat % 16 * 256 + (hd.getD 2 0#8).toNat) →
    (hd.getD 13 0#8).toNat ≠ 0x05 → (hd.getD 13 0#8).toNat ≠ 0x06 →
      exec .saDecode s = .next (s.answered (Error.unsupportedCommandType (hd.getD 13 0#8).toNat).response)

/-- A parsed section ends inside the input and inside the bound `section_length` claims (43_section_assembler.md R167), and
every field of it is below its width, the command's too, whose optional fields follow its flags (10_state.md R32, R33). -/
def Obligations.DecodedSectionStaysInsideItsBound : Prop :=
  ∀ (b : Bytes) (d : DecodedSection), decodeSection b = .ok d →
    d.bytesConsumed ≤ b.length ∧ d.bytesConsumed ≤ 3 + d.sectionLength ∧
    d.tableId < 2 ^ 8 ∧ d.sectionFlags4 < 2 ^ 4 ∧ d.sectionLength < 2 ^ 12 ∧ d.protocolVersion < 2 ^ 8 ∧
    d.encryptedPacket < 2 ∧ d.encryptionAlgorithm < 2 ^ 6 ∧ d.ptsAdjustment < 2 ^ 33 ∧ d.cwIndex < 2 ^ 8 ∧
    d.tier < 2 ^ 12 ∧ d.spliceCommandLength < 2 ^ 12 ∧ d.spliceCommandType ∈ [0x05, 0x06] ∧
    d.command.inWidths = true ∧ d.descriptorLoopLength < 2 ^ 16 ∧ d.crcStored < 2 ^ 32 ∧ d.crcComputed < 2 ^ 32

/-- Bytes after a section that parses are not read (43_section_assembler.md R167). -/
def Obligations.TrailingBytesAreNotRead : Prop :=
  ∀ (b rest : Bytes) (d : DecodedSection), decodeSection b = .ok d → decodeSection (b ++ rest) = .ok d

/-- Every proper prefix of an encoded section decodes to TruncatedInputError at the byte of the first bit of the field that is
cut, which is the first field in read order that needs a byte past the prefix (60_exceptions.md R203). -/
def Obligations.EveryPrefixOfASectionIsTruncated : Prop :=
  ∀ (c : SpliceCommandIn) (pa tier : Nat) (b : Bytes) (n : Nat), encodeSection c pa tier = .ok b → n < b.length →
    ∃ k e, firstCut (sectionSpans b) n = some (k, e) ∧ k ≤ n ∧ n < e ∧
      decodeSection (b.take n) = .error (.truncatedInput k)

/-- Round trip of sections through the machine, alone or followed by any bytes (the law of 43_section_assembler.md R174). -/
def Obligations.EncodedSectionsDecodeToTheirInput : Prop :=
  ∀ (s : State) (c : SpliceCommandIn) (pa tier : Nat) (rest : Bytes),
    c.fitsWire = true → pa < 2 ^ 33 → tier < 2 ^ 12 →
      ∃ (t u : State) (b : Bytes) (d : DecodedSection),
        issue s (.saEncode c (some pa) (some tier)) = some (t, Response.okBytes b) ∧
        issue t (.saDecode (b ++ rest)) = some (u, { Response.ok with sect := some d }) ∧
        d.command = c.norm ∧ d.ptsAdjustment = pa ∧ d.tier = tier ∧ d.tableId = 0xFC ∧ d.sectionFlags4 = 0b0011 ∧
        d.protocolVersion = 0 ∧ d.encryptedPacket = 0 ∧ d.encryptionAlgorithm = 0 ∧ d.cwIndex = 0 ∧
        d.descriptorLoopLength = 0 ∧ d.crcStored = d.crcComputed ∧ d.bytesConsumed = b.length

/-- Checksum integrity (the law of 43_section_assembler.md R173): with one bit of an encoded section flipped, SA.DECODE
returns UnsupportedCommandTypeError if the bit is in the type byte; TruncatedInputError if it is `duration_flag` or
`immediate` of a splice_insert, in `descriptor_loop_length`, or a 1 bit of `section_length`; else ChecksumMismatchError, the
bits of the CRC field among them. -/
def Obligations.OneFlippedBitNeverDecodesOk : Prop :=
  ∀ (s : State) (c : SpliceCommandIn) (pa tier : Nat) (b : Bytes) (n : Nat),
    encodeSection c pa tier = .ok b → n < 8 * b.length →
      let inLoopLength := 8 * (b.length - 6) ≤ n ∧ n < 8 * (b.length - 4)
      let inFlags := (∃ i, c = .insert i) ∧ (n = 147 ∨ n = 148)
      let inLength := 12 ≤ n ∧ n < 24 ∧ bitAt b n = true
      ∃ (t : State) (r : Response), issue s (.saDecode (flipBit b n)) = some (t, r) ∧
        (104 ≤ n ∧ n < 112 → r.status = .unsupportedCommandTypeError) ∧
        (inLoopLength ∨ inFlags ∨ inLength → r.status = .truncatedInputError) ∧
        (¬ (104 ≤ n ∧ n < 112) → ¬ (inLoopLength ∨ inFlags ∨ inLength) → r.status = .checksumMismatchError)

/-! ### The machine as a whole -/

/-- The state after reset (10_state.md R37): every instance has an empty packer and an empty reader. -/
def Obligations.ResetStateIsEmpty : Prop :=
  State.reset.insts ≠ [] ∧ ∀ x ∈ State.reset.insts,
    x.pk.bits = [] ∧ x.rd.buf = [] ∧ x.rd.cur = 0 ∧ x.rd.limit = 0

/-- The reset event (70_reset_and_hazards.md R220): one instance, or all of them, take the reset values; the other instances,
the parameters and the rest of the port stay. That no response stands on a port after its reset is the model's choice (log 4). -/
def Obligations.ResetEventEmptiesItsInstances : Prop :=
  ∀ (s : State) (rest : List HostEvent),
    (∀ k, s.port = .reset k :: rest → k < s.insts.length →
      ∃ t, step s = .next t ∧ t.params = s.params ∧ t.port = rest ∧
        t.insts = s.insts.set k { pk := { bits := [] }, rd := { buf := [], cur := 0, limit := 0 }, resp := none }) ∧
    (s.port = .resetAll :: rest →
      ∃ t, step s = .next t ∧ t.params = s.params ∧ t.port = rest ∧
        t.insts = List.replicate s.insts.length
          { pk := { bits := [] }, rd := { buf := [], cur := 0, limit := 0 }, resp := none })

/-- The invariant holds at reset. -/
def Obligations.InvariantHoldsAtReset : Prop := State.reset.inv = true

/-- Every step keeps the invariant: in every instance `0 <= RD.cur <= RD.limit = 8·|RD.buf|` (10_state.md R24), the stores
are inside their capacities (40_bitpacker.md R111) and the response on the port is a legal one (60_exceptions.md R201 to
R206); and no request record outlives its request (10_state.md R21). -/
def Obligations.EveryStepKeepsTheInvariant : Prop :=
  ∀ s t : State, s.inv = true → step s = .next t → t.inv = true

/-- Frame of every instruction: nothing outside the instance in service changes, the parameters included, and the request
ends with a response. -/
def Obligations.ExecStaysInsideItsInstance : Prop :=
  ∀ (i : Instr) (s t : State), exec i s = .next t →
    s.sameElsewhere t ∧ t.req = Request.idle ∧ ∃ r, t.inst.resp = some r

/-- A request to one instance changes no other instance, whatever its outcome, and an idle unit changes nothing
(60_exceptions.md R215, R218). -/
def Obligations.StepLeavesOtherInstancesAlone : Prop :=
  ∀ s t : State, step s = .next t → t.params = s.params ∧ t.insts.length = s.insts.length ∧
    (s.port = [] → t = s) ∧
    (∀ k r rest, s.port = .request k r :: rest → t.port = rest ∧ ∀ j, j ≠ k → t.insts[j]? = s.insts[j]?)

/-- What a request does to its instance, and whether it is refused, depends only on the request, that instance and the
parameters: no request of one instance can observe another (20_memory.md R51). -/
def Obligations.RequestsObserveOnlyTheirInstance : Prop :=
  ∀ (s s' : State) (k k' : Nat) (r : Request) (rest rest' : List HostEvent) (x : Instance),
    s.params = s'.params → s.port = .request k r :: rest → s'.port = .request k' r :: rest' →
    s.insts[k]? = some x → s'.insts[k']? = some x →
      (∀ t, step s = .next t → ∃ t', step s' = .next t' ∧ t'.insts[k']? = t.insts[k]?) ∧
      (∀ c, step s = .refused c → step s' = .refused c)

/-- Requests to different instances commute (60_exceptions.md R215). -/
def Obligations.RequestsToDifferentInstancesCommute : Prop :=
  ∀ (s t : State) (j k : Nat) (q r : Request) (rest : List HostEvent), j ≠ k →
    Sys2Proof.core.run 2 { s with port := .request j q :: .request k r :: rest } = .next t →
      ∃ t', Sys2Proof.core.run 2 { s with port := .request k r :: .request j q :: rest } = .next t' ∧ t'.insts = t.insts

/-- Composite requests always complete, and neither read nor write the packer or the reader (10_state.md R25). -/
def Obligations.CompositeRequestsIgnoreThePersistentState : Prop :=
  ∀ i : Instr, isComposite i = true → ∀ s : State,
    ∃ r, exec i s = .next (s.answered r) ∧
      ∀ s' : State, s'.req = s.req → exec i s' = .next (s'.answered r)

/-- A request that ends with an error other than ChecksumMismatchError changes no persistent state and returns no result
field; one that ends with ChecksumMismatchError changes none either and returns the section with the two checksums
(60_exceptions.md R209, R205). -/
def Obligations.FailedRequestsChangeNothing : Prop :=
  ∀ (i : Instr) (s t : State) (r : Response), exec i s = .next t → t.inst.resp = some r → r.status ≠ .ok →
    t.inst.pk = s.inst.pk ∧ t.inst.rd = s.inst.rd ∧
    (r.status ≠ .checksumMismatchError → r.noResults = true) ∧
    (r.status = .checksumMismatchError → i = .saDecode ∧
      ∃ d, r.sect = some d ∧ r.info = .checksums d.crcStored d.crcComputed ∧ d.crcStored ≠ d.crcComputed)

/-- Issuing the same request again gives the same response, for every composite request and after every error
(60_exceptions.md R210; 20_memory.md R48). -/
def Obligations.RepeatedRequestsGiveTheSameResponse : Prop :=
  ∀ (s t : State) (f : AsmForm) (r : Response), issue s f = some (t, r) →
    (isComposite f.instr = true ∨ r.status ≠ .ok) → ∃ u, issue t f = some (u, r)

/-- Each operation reads only its own request fields and writes only its own response fields (30_encoding.md R65). -/
def Obligations.OperationsReadAndWriteOnlyTheirFields : Prop :=
  ∀ (i : Instr) (s : State),
    exec i { s with req := s.req.operandsOf i } = exec i s ∧
    ∀ t r, exec i s = .next t → t.inst.resp = some r → r.resultsOf i = r

/-- A request on the packer never changes or reads the reader, and the reverse (70_reset_and_hazards.md R224). -/
def Obligations.PackerAndReaderAreIndependent : Prop :=
  ∀ (i : Instr) (s t : State), exec i s = .next t →
    (onPacker i = true → t.inst.rd = s.inst.rd ∧ ∀ d : Reader, exec i (s.setRd d) = .next (t.setRd d)) ∧
    (onReader i = true → t.inst.pk = s.inst.pk ∧ ∀ p : Packer, exec i (s.setPk p) = .next (t.setPk p))

/-- Every step goes on or is refused with CapacityExceeded, as long as the host addresses an instance that exists; a request
that goes on has a response on its instance's port (60_exceptions.md R219). -/
def Obligations.EveryRequestIsAnsweredOrRefused : Prop :=
  ∀ s : State, s.portOk = true →
    ((∃ t, step s = .next t) ∨ ∃ n c, step s = .refused (.capacityExceeded n c)) ∧
    ∀ k r rest t, s.port = .request k r :: rest → step s = .next t →
      ∃ x a, t.insts[k]? = some x ∧ x.resp = some a

/-- With unbounded stores no request is refused (40_bitpacker.md R111). -/
def Obligations.UnboundedStoresNeverRefuse : Prop :=
  ∀ s : State, s.unbounded = true → s.portOk = true → goesOn (step s) = true

/-- The refusal of 40_bitpacker.md R111, on step: a BP.WRITE of a fitting value that would take the packer past its capacity,
and a BR.LOAD of more bytes than the reader's, are refused whatever events follow on the port, resets among them, and so is
every longer run from there (70_reset_and_hazards.md R220); and no other request is refused. That the refusal mark is the
outcome of the run is the model's reading (log 7). -/
def Obligations.RequestPastACapacityIsRefusedWhateverFollows : Prop :=
  ∀ (s : State) (k : Nat) (r : Request) (rest : List HostEvent) (x : Instance),
    s.port = .request k r :: rest → s.insts[k]? = some x →
      let pastPacker := fun (w c : Nat) => decode (.cmd r.cmd) = .ok (.bpWrite w) ∧ r.value < 2 ^ w ∧
        s.params.pkCapacityBits = some c ∧ c < x.pk.bits.length + w
      let pastReader := fun (c : Nat) => decode (.cmd r.cmd) = .ok .brLoad ∧
        s.params.rdCapacityBytes = some c ∧ c < r.bytes.length
      (∀ w c, pastPacker w c → step s = .refused (.capacityExceeded (x.pk.bits.length + w) c) ∧
        ∀ m, Sys2Proof.core.run (m + 1) s = .refused (.capacityExceeded (x.pk.bits.length + w) c)) ∧
      (∀ c, pastReader c → step s = .refused (.capacityExceeded r.bytes.length c) ∧
        ∀ m, Sys2Proof.core.run (m + 1) s = .refused (.capacityExceeded r.bytes.length c)) ∧
      (∀ q, step s = .refused q → (∃ w c, pastPacker w c) ∨ ∃ c, pastReader c)

/-- An event that names an instance index that does not exist is the model's fault noSuchInstance (the model's choice, log 6). -/
def Obligations.UnknownInstanceIndexFaults : Prop :=
  ∀ (s : State) (k : Nat) (r : Request) (rest : List HostEvent), s.insts.length ≤ k →
    (s.port = .request k r :: rest ∨ s.port = .reset k :: rest) → step s = .fault (.noSuchInstance k)

/-! ### Ticks and seconds -/

/-- `SecondsToTicks(s)` is `s · 90000` truncated toward zero (41_splice_command.md R132). -/
def Obligations.SecondsToTicksTruncatesTowardZero : Prop :=
  ∀ s : Rat,
    (0 ≤ s → 0 ≤ secondsToTicks s ∧ (secondsToTicks s : Rat) ≤ s * 90000 ∧ s * 90000 < secondsToTicks s + 1) ∧
    (s ≤ 0 → secondsToTicks s ≤ 0 ∧ s * 90000 ≤ (secondsToTicks s : Rat) ∧ (secondsToTicks s : Rat) - 1 < s * 90000)

/-- `TicksToSeconds` is exact and `SecondsToTicks` undoes it; the other way round floors to the tick resolution
(41_splice_command.md R133). -/
def Obligations.TicksAndSecondsConvertBack : Prop :=
  (∀ t : Nat, ticksToSeconds t * 90000 = t ∧ secondsToTicks (ticksToSeconds t) = t) ∧
  ∀ s : Rat, 0 ≤ s → ticksToSeconds (secondsToTicks s) = (⌊s * 90000⌋ : Rat) / 90000

/-! ### SA.DECODE on any input -/

/-- What SA.DECODE answers on any input at all, by the places of the fields (43_section_assembler.md R166 to R170;
60_exceptions.md R203, R207): if a field needs a byte at or past the bound, whether the header is cut, `section_length` claims
less than the parse needs, or the descriptor loop or the CRC runs past it, TruncatedInputError at that field's first byte; if
none does, UnsupportedCommandTypeError for an unsupported type, and for a supported one the section, which ends where its
last field ends. -/
def Obligations.SaDecodeIsTruncatedAtTheFirstFieldPastTheBound : Prop :=
  ∀ s : State,
    let b := s.req.bytes
    let ct := (b.getD 13 0#8).toNat
    let cut := firstCut (sectionSpans b) (sectionBound b)
    (∀ k e, cut = some (k, e) → exec .saDecode s = .next (s.answered (Error.truncatedInput k).response)) ∧
    (cut = none → ct ≠ 0x05 → ct ≠ 0x06 →
      exec .saDecode s = .next (s.answered (Error.unsupportedCommandType ct).response)) ∧
    (cut = none → ct = 0x05 ∨ ct = 0x06 →
      ∃ d k, exec .saDecode s = .next (s.answered (Response.ofSection d)) ∧
        (sectionSpans b).getLast? = some (k, d.bytesConsumed))
end

