-- ==== Sys2Proof/Laws/Bits.lean ====
section
/-! SUPPORT. The laws of bit strings and bytes: lengths, values, and that `Unpack` undoes `Pack` up to its padding
(00_scope.md R8). -/

namespace Sys2Proof.Machine

/-! ### Bits and values -/

@[simp] theorem bitsOf_length (v w : Nat) : (bitsOf v w).length = w := by
  induction w with
  | zero => rfl
  | succ w ih => simp [bitsOf, ih]

@[simp] theorem bitsOf_zero_width (v : Nat) : bitsOf v 0 = [] := rfl

theorem bitsOf_getElem? (v w j : Nat) (h : j < w) : (bitsOf v w)[j]? = some (v.testBit (w - 1 - j)) := by
  induction w generalizing j with
  | zero => omega
  | succ w ih =>
    cases j with
    | zero => simp [bitsOf]
    | succ j =>
      have : w - (j + 1) = w - 1 - j := by omega
      simp [bitsOf, ih j (by omega), this]

/-- `Bits` of a value keeps only its low `w` bits. -/
theorem bitsOf_mod (v w : Nat) : bitsOf (v % 2 ^ w) w = bitsOf v w := by
  apply List.ext_getElem?
  intro j
  by_cases h : j < w
  · rw [bitsOf_getElem? _ _ _ h, bitsOf_getElem? _ _ _ h, Nat.testBit_mod_two_pow]
    simp [show w - 1 - j < w by omega]
  · rw [List.getElem?_eq_none (by simp; omega), List.getElem?_eq_none (by simp; omega)]

/-- A field of `a + b` bits is its high `a` bits followed by its low `b` bits. -/
theorem bitsOf_add (v a b : Nat) : bitsOf v (a + b) = bitsOf (v / 2 ^ b) a ++ bitsOf v b := by
  apply List.ext_getElem?
  intro j
  by_cases h : j < a
  · rw [List.getElem?_append_left (by simpa using h), bitsOf_getElem? _ _ _ h,
      bitsOf_getElem? _ _ _ (by omega), Nat.testBit_div_two_pow]
    congr 2; omega
  · rw [List.getElem?_append_right (by simp; omega)]
    by_cases h' : j < a + b
    · rw [bitsOf_getElem? _ _ _ h', bitsOf_length, bitsOf_getElem? _ _ _ (by omega)]
      congr 2; omega
    · rw [List.getElem?_eq_none (by simp; omega), List.getElem?_eq_none (by simp; omega)]

theorem val_foldl (s : Bits) (a : Nat) :
    s.foldl (fun v b => 2 * v + b.toNat) a = a * 2 ^ s.length + val s := by
  induction s generalizing a with
  | nil => simp [val]
  | cons b s ih =>
    simp only [val, List.foldl_cons, List.length_cons]
    rw [ih, ih (2 * 0 + b.toNat), pow_succ]
    ring

@[simp] theorem val_nil : val [] = 0 := rfl

theorem val_append (s t : Bits) : val (s ++ t) = val s * 2 ^ t.length + val t := by
  rw [val, List.foldl_append, val_foldl]
  rfl

theorem val_cons (b : Bool) (s : Bits) : val (b :: s) = b.toNat * 2 ^ s.length + val s := by
  simpa [val] using val_foldl s b.toNat

theorem val_lt (s : Bits) : val s < 2 ^ s.length := by
  induction s with
  | nil => simp
  | cons b s ih =>
    rw [val_cons, List.length_cons, pow_succ]
    cases b <;> (simp; omega)

@[simp] theorem val_replicate_false (n : Nat) : val (List.replicate n false) = 0 := by
  induction n with
  | zero => rfl
  | succ n ih => simp [List.replicate_succ, val_cons, ih]

/-- The value of a field is its low `w` bits. -/
theorem val_bitsOf_mod (v w : Nat) : val (bitsOf v w) = v % 2 ^ w := by
  induction w with
  | zero => simp [Nat.mod_one]
  | succ w ih =>
    rw [bitsOf, val_cons, ih, bitsOf_length, Nat.mod_pow_succ, Nat.testBit_eq_decide_div_mod_eq]
    have h2 := Nat.mod_two_eq_zero_or_one (v / 2 ^ w)
    rcases h2 with h | h
    · simp [h]
    · simp [h]
      ring

/-- A value that fits is read back (00_scope.md R8). -/
theorem val_bitsOf (v w : Nat) (h : v < 2 ^ w) : val (bitsOf v w) = v := by
  rw [val_bitsOf_mod, Nat.mod_eq_of_lt h]

theorem testBit_val (s : Bits) (j : Nat) (h : j < s.length) : (val s).testBit (s.length - 1 - j) = s[j] := by
  induction s generalizing j with
  | nil => simp at h
  | cons b s ih =>
    rw [val_cons, Nat.mul_comm]
    cases j with
    | zero =>
      rw [show (b :: s).length - 1 - 0 = s.length by simp, Nat.testBit_two_pow_mul_add _ (val_lt s)]
      cases b <;> simp
    | succ j =>
      have hj : j < s.length := by simpa using h
      rw [show (b :: s).length - 1 - (j + 1) = s.length - 1 - j by simp; omega,
        Nat.testBit_two_pow_mul_add _ (val_lt s), if_pos (by omega), ih j hj]
      rfl

/-- A bit string is the field of its own value. -/
theorem bitsOf_val (s : Bits) : bitsOf (val s) s.length = s := by
  apply List.ext_getElem?
  intro j
  by_cases h : j < s.length
  · rw [bitsOf_getElem? _ _ _ h, testBit_val s j h, List.getElem?_eq_getElem h]
  · rw [List.getElem?_eq_none (by simp; omega), List.getElem?_eq_none (by omega)]

@[simp] theorem fits_eq_true (v w : Nat) : fits v w = true ↔ v < 2 ^ w := by simp [fits]

@[simp] theorem fits_eq_false (v w : Nat) : fits v w = false ↔ 2 ^ w ≤ v := by simp [fits]

/-! ### Bytes -/

@[simp] theorem unpack_nil : unpack [] = [] := rfl

@[simp] theorem unpack_cons (x : Byte) (b : Bytes) : unpack (x :: b) = bitsOf x.toNat 8 ++ unpack b := by
  simp [unpack]

@[simp] theorem unpack_append (a b : Bytes) : unpack (a ++ b) = unpack a ++ unpack b := by
  simp [unpack]

@[simp] theorem unpack_length (b : Bytes) : (unpack b).length = 8 * b.length := by
  induction b with
  | nil => rfl
  | cons x b ih => simp [ih]; omega

theorem take_append_of_length {l r : Bits} {n : Nat} (m : Nat) (h : l.length = n) :
    (l ++ r).take (n + m) = l ++ r.take m := by
  subst h
  exact List.take_length_add_append m

theorem drop_append_of_length {l r : Bits} {n : Nat} (m : Nat) (h : l.length = n) :
    (l ++ r).drop (n + m) = r.drop m := by
  subst h
  exact List.drop_length_add_append m

theorem take_unpack (b : Bytes) (k : Nat) : (unpack b).take (8 * k) = unpack (b.take k) := by
  induction k generalizing b with
  | zero => simp
  | succ k ih =>
    cases b with
    | nil => simp
    | cons x b =>
      rw [unpack_cons, List.take_succ_cons, unpack_cons, Nat.mul_succ, Nat.add_comm,
        take_append_of_length _ (bitsOf_length _ _), ih]

theorem drop_unpack (b : Bytes) (n : Nat) : (unpack b).drop (8 * n) = unpack (b.drop n) := by
  induction n generalizing b with
  | zero => simp
  | succ n ih =>
    cases b with
    | nil => simp
    | cons x b =>
      rw [unpack_cons, List.drop_succ_cons, Nat.mul_succ, Nat.add_comm,
        drop_append_of_length _ (bitsOf_length _ _), ih]

@[simp] theorem padLength_lt (n : Nat) : padLength n < 8 := by unfold padLength; omega

theorem padded_length_mod (s : Bits) : (padded s).length % 8 = 0 := by
  simp only [padded, List.length_append, List.length_replicate, padLength]
  omega

/-- The byte image has one byte for each 8 bits, or part of them (00_scope.md R8). -/
theorem pack_length (s : Bits) : (pack s).length = (s.length + 7) / 8 := by
  simp only [pack, List.length_map, List.length_range, padded, List.length_append, List.length_replicate, padLength]
  omega

@[simp] theorem pack_nil : pack [] = [] := rfl

/-- Bytes that carry `n` whole groups of eight bits unpack to those bits. -/
theorem unpack_groups (t : Bits) (n : Nat) (h : t.length = 8 * n) :
    unpack ((List.range n).map fun k => BitVec.ofNat 8 (val ((t.drop (8 * k)).take 8))) = t := by
  induction n generalizing t with
  | zero => simpa using (List.eq_nil_of_length_eq_zero h).symm
  | succ n ih =>
    rw [List.range_succ_eq_map, List.map_cons, unpack_cons, List.map_map]
    have h8 : (t.take 8).length = 8 := by simp; omega
    have hv : val (t.take 8) < 2 ^ 8 := by simpa [h8] using val_lt (t.take 8)
    have hd := ih (t.drop 8) (by simp; omega)
    simp only [Nat.mul_zero, List.drop_zero, BitVec.toNat_ofNat, Nat.mod_eq_of_lt hv]
    have : bitsOf (val (t.take 8)) 8 = t.take 8 := by
      have := bitsOf_val (t.take 8)
      rwa [h8] at this
    rw [this]
    have e : ((fun k => BitVec.ofNat 8 (val ((t.drop (8 * k)).take 8))) ∘ Nat.succ)
        = fun k => BitVec.ofNat 8 (val (((t.drop 8).drop (8 * k)).take 8)) := by
      funext k
      simp only [Function.comp, List.drop_drop]
      congr 4; omega
    rw [e, hd, List.take_append_drop]

/-- `Unpack` gives back the packed bits and their zero padding (00_scope.md R8; 20_memory.md R45). -/
theorem unpack_pack (s : Bits) : unpack (pack s) = padded s := by
  apply unpack_groups
  have := padded_length_mod s
  omega

/-- A whole number of bytes has no padding (20_memory.md R45). -/
theorem padded_of_aligned (s : Bits) (h : s.length % 8 = 0) : padded s = s := by
  simp [padded, padLength, h]

theorem unpack_pack_of_aligned (s : Bits) (h : s.length % 8 = 0) : unpack (pack s) = s := by
  rw [unpack_pack, padded_of_aligned s h]

/-- A byte string is determined by its bits. -/
theorem unpack_injective {a b : Bytes} (h : unpack a = unpack b) : a = b := by
  induction a generalizing b with
  | nil =>
    cases b with
    | nil => rfl
    | cons x b =>
      have := congrArg List.length h
      simp at this
      omega
  | cons x a ih =>
    cases b with
    | nil => simpa using congrArg List.length h
    | cons y b =>
      rw [unpack_cons, unpack_cons] at h
      obtain ⟨h1, h2⟩ := List.append_inj h (by simp)
      have hx : x.toNat = y.toNat := by
        rw [← val_bitsOf x.toNat 8 x.isLt, h1, val_bitsOf y.toNat 8 y.isLt]
      rw [BitVec.eq_of_toNat_eq hx, ih h2]

/-- `Pack` gives back the bytes of a byte string's bits. -/
@[simp] theorem pack_unpack (b : Bytes) : pack (unpack b) = b :=
  unpack_injective (unpack_pack_of_aligned _ (by simp))

/-- `Pack` of aligned bits followed by others is the two images in turn. -/
theorem pack_append (s t : Bits) (h : s.length % 8 = 0) : pack (s ++ t) = pack s ++ pack t := by
  apply unpack_injective
  rw [unpack_append, unpack_pack, unpack_pack_of_aligned s h, unpack_pack]
  simp only [padded, List.length_append, padLength, List.append_assoc]
  congr 3; omega

/-- One byte is the image of its eight bits. -/
theorem pack_bitsOf_8 (v : Nat) : pack (bitsOf v 8) = [BitVec.ofNat 8 v] := by
  have : bitsOf v 8 = unpack [BitVec.ofNat 8 v] := by
    simp only [unpack_cons, unpack_nil, List.append_nil, BitVec.toNat_ofNat, bitsOf_mod]
  rw [this, pack_unpack]

@[simp] theorem beBytes_length (n v : Nat) : (beBytes n v).length = n := by
  induction n with
  | zero => rfl
  | succ n ih => simp [beBytes, ih]

/-- `BE` bytes are the field of `8n` bits, most significant byte first (20_memory.md R42). -/
theorem unpack_beBytes (n v : Nat) : unpack (beBytes n v) = bitsOf v (8 * n) := by
  induction n with
  | zero => rfl
  | succ n ih =>
    rw [beBytes, unpack_cons, ih, Nat.mul_succ, Nat.add_comm, bitsOf_add]
    congr 1
    rw [BitVec.toNat_ofNat, bitsOf_mod, show (256 : Nat) = 2 ^ 8 by norm_num, ← pow_mul]

theorem pack_bitsOf (n v : Nat) : pack (bitsOf v (8 * n)) = beBytes n v := by
  rw [← unpack_beBytes, pack_unpack]

end Sys2Proof.Machine
end

