-- ==== Sys2Proof/Laws/State.lean ====
section
/-! SUPPORT. One lemma per field of State per update, so that no proof unfolds a record update. -/

namespace Sys2Proof.Machine

variable (s : State)

@[simp] theorem State.setPk_params (p : Packer) :
    (s.setPk p).params = s.params := rfl
@[simp] theorem State.setPk_before (p : Packer) :
    (s.setPk p).before = s.before := rfl
@[simp] theorem State.setPk_after (p : Packer) :
    (s.setPk p).after = s.after := rfl
@[simp] theorem State.setPk_inst_pk (p : Packer) :
    (s.setPk p).inst.pk = p := rfl
@[simp] theorem State.setPk_inst_rd (p : Packer) :
    (s.setPk p).inst.rd = s.inst.rd := rfl
@[simp] theorem State.setPk_inst_resp (p : Packer) :
    (s.setPk p).inst.resp = s.inst.resp := rfl
@[simp] theorem State.setPk_req (p : Packer) :
    (s.setPk p).req = s.req := rfl
@[simp] theorem State.setPk_port (p : Packer) :
    (s.setPk p).port = s.port := rfl

@[simp] theorem State.setRd_params (d : Reader) :
    (s.setRd d).params = s.params := rfl
@[simp] theorem State.setRd_before (d : Reader) :
    (s.setRd d).before = s.before := rfl
@[simp] theorem State.setRd_after (d : Reader) :
    (s.setRd d).after = s.after := rfl
@[simp] theorem State.setRd_inst_pk (d : Reader) :
    (s.setRd d).inst.pk = s.inst.pk := rfl
@[simp] theorem State.setRd_inst_rd (d : Reader) :
    (s.setRd d).inst.rd = d := rfl
@[simp] theorem State.setRd_inst_resp (d : Reader) :
    (s.setRd d).inst.resp = s.inst.resp := rfl
@[simp] theorem State.setRd_req (d : Reader) :
    (s.setRd d).req = s.req := rfl
@[simp] theorem State.setRd_port (d : Reader) :
    (s.setRd d).port = s.port := rfl

@[simp] theorem State.respond_params (r : Response) :
    (s.respond r).params = s.params := rfl
@[simp] theorem State.respond_before (r : Response) :
    (s.respond r).before = s.before := rfl
@[simp] theorem State.respond_after (r : Response) :
    (s.respond r).after = s.after := rfl
@[simp] theorem State.respond_inst_pk (r : Response) :
    (s.respond r).inst.pk = s.inst.pk := rfl
@[simp] theorem State.respond_inst_rd (r : Response) :
    (s.respond r).inst.rd = s.inst.rd := rfl
@[simp] theorem State.respond_inst_resp (r : Response) :
    (s.respond r).inst.resp = some r := rfl
@[simp] theorem State.respond_req (r : Response) :
    (s.respond r).req = Request.idle := rfl
@[simp] theorem State.respond_port (r : Response) :
    (s.respond r).port = s.port := rfl

@[simp] theorem State.raise_params (e : Error) :
    (s.raise e).params = s.params := rfl
@[simp] theorem State.raise_before (e : Error) :
    (s.raise e).before = s.before := rfl
@[simp] theorem State.raise_after (e : Error) :
    (s.raise e).after = s.after := rfl
@[simp] theorem State.raise_inst_pk (e : Error) :
    (s.raise e).inst.pk = s.inst.pk := rfl
@[simp] theorem State.raise_inst_rd (e : Error) :
    (s.raise e).inst.rd = s.inst.rd := rfl
@[simp] theorem State.raise_inst_resp (e : Error) :
    (s.raise e).inst.resp = some e.response := rfl
@[simp] theorem State.raise_req (e : Error) :
    (s.raise e).req = Request.idle := rfl
@[simp] theorem State.raise_port (e : Error) :
    (s.raise e).port = s.port := rfl

@[simp] theorem State.answer_params (r : Except Error Response) :
    (s.answer r).params = s.params := rfl
@[simp] theorem State.answer_before (r : Except Error Response) :
    (s.answer r).before = s.before := rfl
@[simp] theorem State.answer_after (r : Except Error Response) :
    (s.answer r).after = s.after := rfl
@[simp] theorem State.answer_inst_pk (r : Except Error Response) :
    (s.answer r).inst.pk = s.inst.pk := rfl
@[simp] theorem State.answer_inst_rd (r : Except Error Response) :
    (s.answer r).inst.rd = s.inst.rd := rfl
@[simp] theorem State.answer_inst_resp (r : Except Error Response) :
    (s.answer r).inst.resp = some (Response.ofExcept r) := rfl
@[simp] theorem State.answer_req (r : Except Error Response) :
    (s.answer r).req = Request.idle := rfl
@[simp] theorem State.answer_port (r : Except Error Response) :
    (s.answer r).port = s.port := rfl

@[simp] theorem State.accept_params (r : Request) :
    (s.accept r).params = s.params := rfl
@[simp] theorem State.accept_before (r : Request) :
    (s.accept r).before = s.before := rfl
@[simp] theorem State.accept_after (r : Request) :
    (s.accept r).after = s.after := rfl
@[simp] theorem State.accept_inst_pk (r : Request) :
    (s.accept r).inst.pk = s.inst.pk := rfl
@[simp] theorem State.accept_inst_rd (r : Request) :
    (s.accept r).inst.rd = s.inst.rd := rfl
@[simp] theorem State.accept_inst_resp (r : Request) :
    (s.accept r).inst.resp = s.inst.resp := rfl
@[simp] theorem State.accept_req (r : Request) :
    (s.accept r).req = r := rfl
@[simp] theorem State.accept_port (r : Request) :
    (s.accept r).port = s.port := rfl

@[simp] theorem State.popPort_params :
    (s.popPort).params = s.params := rfl
@[simp] theorem State.popPort_before :
    (s.popPort).before = s.before := rfl
@[simp] theorem State.popPort_after :
    (s.popPort).after = s.after := rfl
@[simp] theorem State.popPort_inst_pk :
    (s.popPort).inst.pk = s.inst.pk := rfl
@[simp] theorem State.popPort_inst_rd :
    (s.popPort).inst.rd = s.inst.rd := rfl
@[simp] theorem State.popPort_inst_resp :
    (s.popPort).inst.resp = s.inst.resp := rfl
@[simp] theorem State.popPort_req :
    (s.popPort).req = s.req := rfl
@[simp] theorem State.popPort_port :
    (s.popPort).port = s.port.tail := rfl

@[simp] theorem State.resetInstance_params :
    (s.resetInstance).params = s.params := rfl
@[simp] theorem State.resetInstance_before :
    (s.resetInstance).before = s.before := rfl
@[simp] theorem State.resetInstance_after :
    (s.resetInstance).after = s.after := rfl
@[simp] theorem State.resetInstance_inst_pk :
    (s.resetInstance).inst.pk = Packer.empty := rfl
@[simp] theorem State.resetInstance_inst_rd :
    (s.resetInstance).inst.rd = Reader.empty := rfl
@[simp] theorem State.resetInstance_inst_resp :
    (s.resetInstance).inst.resp = none := rfl
@[simp] theorem State.resetInstance_req :
    (s.resetInstance).req = s.req := rfl
@[simp] theorem State.resetInstance_port :
    (s.resetInstance).port = s.port := rfl

@[simp] theorem State.resetAll_params :
    (s.resetAll).params = s.params := rfl
@[simp] theorem State.resetAll_before :
    (s.resetAll).before = s.before.map fun _ => Instance.reset := rfl
@[simp] theorem State.resetAll_after :
    (s.resetAll).after = s.after.map fun _ => Instance.reset := rfl
@[simp] theorem State.resetAll_inst_pk :
    (s.resetAll).inst.pk = Packer.empty := rfl
@[simp] theorem State.resetAll_inst_rd :
    (s.resetAll).inst.rd = Reader.empty := rfl
@[simp] theorem State.resetAll_inst_resp :
    (s.resetAll).inst.resp = none := rfl
@[simp] theorem State.resetAll_req :
    (s.resetAll).req = s.req := rfl
@[simp] theorem State.resetAll_port :
    (s.resetAll).port = s.port := rfl

@[simp] theorem State.withFetchWord_params (n w : Nat) :
    (s.withFetchWord n w).params = s.params := rfl
@[simp] theorem State.withFetchWord_before (n w : Nat) :
    (s.withFetchWord n w).before = s.before := rfl
@[simp] theorem State.withFetchWord_after (n w : Nat) :
    (s.withFetchWord n w).after = s.after := rfl
@[simp] theorem State.withFetchWord_inst_pk (n w : Nat) :
    (s.withFetchWord n w).inst.pk = s.inst.pk := rfl
@[simp] theorem State.withFetchWord_inst_rd (n w : Nat) :
    (s.withFetchWord n w).inst.rd = s.inst.rd := rfl
@[simp] theorem State.withFetchWord_inst_resp (n w : Nat) :
    (s.withFetchWord n w).inst.resp = s.inst.resp := rfl
@[simp] theorem State.withFetchWord_req (n w : Nat) :
    (s.withFetchWord n w).req = s.req := rfl
@[simp] theorem State.withFetchWord_port (n w : Nat) :
    (s.withFetchWord n w).port = .request s.index (Request.ofTableWord n w) :: s.port := rfl

@[simp] theorem State.done_params (p : Packer) (d : Reader) (r : Response) :
    (s.done p d r).params = s.params := rfl
@[simp] theorem State.done_before (p : Packer) (d : Reader) (r : Response) :
    (s.done p d r).before = s.before := rfl
@[simp] theorem State.done_after (p : Packer) (d : Reader) (r : Response) :
    (s.done p d r).after = s.after := rfl
@[simp] theorem State.done_inst_pk (p : Packer) (d : Reader) (r : Response) :
    (s.done p d r).inst.pk = p := rfl
@[simp] theorem State.done_inst_rd (p : Packer) (d : Reader) (r : Response) :
    (s.done p d r).inst.rd = d := rfl
@[simp] theorem State.done_inst_resp (p : Packer) (d : Reader) (r : Response) :
    (s.done p d r).inst.resp = some r := rfl
@[simp] theorem State.done_req (p : Packer) (d : Reader) (r : Response) :
    (s.done p d r).req = Request.idle := rfl
@[simp] theorem State.done_port (p : Packer) (d : Reader) (r : Response) :
    (s.done p d r).port = s.port := rfl

@[simp] theorem State.answered_params (r : Response) :
    (s.answered r).params = s.params := rfl
@[simp] theorem State.answered_before (r : Response) :
    (s.answered r).before = s.before := rfl
@[simp] theorem State.answered_after (r : Response) :
    (s.answered r).after = s.after := rfl
@[simp] theorem State.answered_inst_pk (r : Response) :
    (s.answered r).inst.pk = s.inst.pk := rfl
@[simp] theorem State.answered_inst_rd (r : Response) :
    (s.answered r).inst.rd = s.inst.rd := rfl
@[simp] theorem State.answered_inst_resp (r : Response) :
    (s.answered r).inst.resp = some r := rfl
@[simp] theorem State.answered_req (r : Response) :
    (s.answered r).req = Request.idle := rfl
@[simp] theorem State.answered_port (r : Response) :
    (s.answered r).port = s.port := rfl

end Sys2Proof.Machine
end

