-- ==== Sys2Proof/Laws/Ops.lean ====
section
/-! SUPPORT. One lemma per shared operation that says once everything it can do: appending and reading fields, the readers'
invariant, capacity, focus, and what an instruction's meaning leaves behind. -/

namespace Sys2Proof.Machine

/-! ### Appending fields -/

/-- The bits of a list of (value, width) fields, in order. -/
def fieldBits (fs : List (Nat × Nat)) : Bits := fs.flatMap fun f => bitsOf f.1 f.2

@[simp] theorem fieldBits_nil : fieldBits [] = [] := rfl

@[simp] theorem fieldBits_cons (f : Nat × Nat) (fs : List (Nat × Nat)) :
    fieldBits (f :: fs) = bitsOf f.1 f.2 ++ fieldBits fs := by
  simp [fieldBits]

@[simp] theorem fieldBits_append (fs gs : List (Nat × Nat)) : fieldBits (fs ++ gs) = fieldBits fs ++ fieldBits gs := by
  simp [fieldBits]

@[simp] theorem fieldBits_length (fs : List (Nat × Nat)) : (fieldBits fs).length = (fs.map Prod.snd).sum := by
  induction fs with
  | nil => rfl
  | cons f fs ih => simp [ih]

@[simp] theorem Packer.append_bits (p : Packer) (v w : Nat) : (p.append v w).bits = p.bits ++ bitsOf v w := rfl

@[simp] theorem Packer.append_n (p : Packer) (v w : Nat) : (p.append v w).n = p.n + w := by
  simp [Packer.n]

/-- `AppendField` appends a value that fits (40_bitpacker.md R106). -/
theorem appendField_ok (p : Packer) {v w : Nat} (h : v < 2 ^ w) : appendField p v w = .ok (p.append v w) := by
  simp [appendField, h]

/-- `AppendField` raises FieldOverflowError for one that does not (40_bitpacker.md R106). -/
theorem appendField_error (p : Packer) {v w : Nat} (h : 2 ^ w ≤ v) :
    appendField p v w = .error (.fieldOverflow w v) := by
  simp [appendField, (fits_eq_false v w).2 h]

/-- Everything `AppendField` can do. -/
theorem appendField_cases (p : Packer) (v w : Nat) :
    (v < 2 ^ w ∧ appendField p v w = .ok (p.append v w)) ∨
      (2 ^ w ≤ v ∧ appendField p v w = .error (.fieldOverflow w v)) := by
  rcases Nat.lt_or_ge v (2 ^ w) with h | h
  · exact .inl ⟨h, appendField_ok p h⟩
  · exact .inr ⟨h, appendField_error p h⟩

@[simp] theorem appendFields_nil (p : Packer) : appendFields p [] = .ok p := rfl

/-- Fields that all fit are appended in order. -/
theorem appendFields_ok (p : Packer) {fs : List (Nat × Nat)} (h : ∀ f ∈ fs, f.1 < 2 ^ f.2) :
    appendFields p fs = .ok { bits := p.bits ++ fieldBits fs } := by
  induction fs generalizing p with
  | nil => simp
  | cons f fs ih =>
    rw [appendFields, appendField_ok p (h f (by simp))]
    exact (ih _ fun g hg => h g (by simp [hg])).trans (by simp)

/-- The first field that does not fit ends the request (60_exceptions.md R208). -/
theorem appendFields_error (p : Packer) {fs gs : List (Nat × Nat)} {v w : Nat} (h : ∀ f ∈ fs, f.1 < 2 ^ f.2)
    (hv : 2 ^ w ≤ v) : appendFields p (fs ++ (v, w) :: gs) = .error (.fieldOverflow w v) := by
  induction fs generalizing p with
  | nil =>
    rw [List.nil_append, appendFields, appendField_error p hv]
    rfl
  | cons f fs ih =>
    rw [List.cons_append, appendFields, appendField_ok p (h f (by simp))]
    exact ih _ fun g hg => h g (by simp [hg])

/-- Where fields were appended, they all fit. -/
theorem appendFields_inv {p q : Packer} {fs : List (Nat × Nat)} (h : appendFields p fs = .ok q) :
    (∀ f ∈ fs, f.1 < 2 ^ f.2) ∧ q.bits = p.bits ++ fieldBits fs := by
  induction fs generalizing p with
  | nil =>
    cases h
    simp
  | cons f fs ih =>
    obtain ⟨v, w⟩ := f
    rcases appendField_cases p v w with ⟨hf, e⟩ | ⟨-, e⟩
    · rw [appendFields, e] at h
      obtain ⟨hfs, hq⟩ := ih h
      exact ⟨by simpa using ⟨hf, fun a b => hfs (a, b)⟩, by simpa using hq⟩
    · rw [appendFields, e] at h
      cases h

/-! ### Reading fields -/

/-- Everything `ReadField` can do (40_bitpacker.md R107). -/
theorem readField_cases (r : Reader) (w : Nat) :
    (r.cur + w ≤ r.limit ∧ readField r w = .ok (val (r.bitsAt w), r.advance w)) ∨
      (r.limit < r.cur + w ∧ readField r w = .error (.truncatedInput (r.cur / 8))) := by
  unfold readField
  split
  · exact .inl ⟨‹_›, rfl⟩
  · exact .inr ⟨by omega, rfl⟩

theorem readField_inv {r r' : Reader} {v w : Nat} (h : readField r w = .ok (v, r')) :
    r.cur + w ≤ r.limit ∧ v = val (r.bitsAt w) ∧ r' = r.advance w := by
  rcases readField_cases r w with ⟨hw, e⟩ | ⟨-, e⟩ <;> rw [e] at h <;> cases h
  exact ⟨hw, rfl, rfl⟩

theorem Reader.bitsAt_length_le (r : Reader) (w : Nat) : (r.bitsAt w).length ≤ w := by
  simp [Reader.bitsAt]

/-- A field read is below two to its width (40_bitpacker.md R105). -/
theorem readField_lt {r r' : Reader} {v w : Nat} (h : readField r w = .ok (v, r')) : v < 2 ^ w := by
  obtain ⟨-, rfl, -⟩ := readField_inv h
  exact (val_lt _).trans_le (Nat.pow_le_pow_right (by omega) (r.bitsAt_length_le w))

/-- Where a field of value `v` stands at the cursor, it is what `ReadField` reads, whatever wrote it (20_memory.md R43). -/
theorem readField_of_bits {r : Reader} {pre post : Bits} {v w : Nat} (hb : unpack r.buf = pre ++ bitsOf v w ++ post)
    (hc : r.cur = pre.length) (hl : r.cur + w ≤ r.limit) (hv : v < 2 ^ w) :
    readField r w = .ok (v, r.advance w) := by
  rcases readField_cases r w with ⟨-, e⟩ | ⟨hw, -⟩
  · rw [e, Reader.bitsAt, hb, hc, List.append_assoc, List.drop_left]
    rw [List.take_append_of_le_length (by simp), List.take_of_length_le (by simp), val_bitsOf v w hv]
  · omega

@[simp] theorem Reader.advance_buf (r : Reader) (w : Nat) : (r.advance w).buf = r.buf := rfl
@[simp] theorem Reader.advance_cur (r : Reader) (w : Nat) : (r.advance w).cur = r.cur + w := rfl
@[simp] theorem Reader.advance_limit (r : Reader) (w : Nat) : (r.advance w).limit = r.limit := rfl
@[simp] theorem Reader.bound_buf (r : Reader) (n : Nat) : (r.bound n).buf = r.buf := rfl
@[simp] theorem Reader.bound_cur (r : Reader) (n : Nat) : (r.bound n).cur = r.cur := rfl
@[simp] theorem Reader.bound_limit (r : Reader) (n : Nat) :
    (r.bound n).limit = min (8 * r.buf.length) (8 * n) := rfl

theorem Reader.wf_iff (r : Reader) : r.wf = true ↔ r.cur ≤ r.limit ∧ r.limit ≤ 8 * r.buf.length := by
  simp [Reader.wf]

@[simp] theorem Reader.new_wf (b : Bytes) : (Reader.new b).wf = true := by
  simp [Reader.wf_iff, Reader.new]

@[simp] theorem Reader.empty_wf : Reader.empty.wf = true := rfl

/-- `Bound` keeps the invariant for a byte count at or past the cursor (40_bitpacker.md R108). -/
theorem Reader.bound_wf {r : Reader} {n : Nat} (h : r.wf = true) (hn : r.cur ≤ 8 * n) : (r.bound n).wf = true := by
  simp only [Reader.wf_iff, Reader.bound_buf, Reader.bound_cur, Reader.bound_limit] at *
  omega

/-- A read that succeeds keeps the invariant (10_state.md R24). -/
theorem readField_wf {r r' : Reader} {v w : Nat} (hr : r.wf = true) (h : readField r w = .ok (v, r')) :
    r'.wf = true := by
  obtain ⟨hw, -, rfl⟩ := readField_inv h
  simp only [Reader.wf_iff, Reader.advance_buf, Reader.advance_cur, Reader.advance_limit] at *
  omega

theorem readFlag_inv {r r' : Reader} {b : Bool} (h : readFlag r = .ok (b, r')) :
    ∃ v, readField r 1 = .ok (v, r') ∧ b = decide (v = 1) := by
  rcases readField_cases r 1 with ⟨-, e⟩ | ⟨-, e⟩ <;> rw [readFlag, e] at h <;> cases h
  exact ⟨_, e, rfl⟩

/-- Everything `ReadBytes` can do (40_bitpacker.md R109): the cursor moves past `n` bytes, or the offset is that of the first
byte that does not fit. -/
theorem readBytes_cases (r : Reader) (n : Nat) (h : r.cur ≤ r.limit) :
    (r.cur + 8 * n ≤ r.limit ∧ ∃ bs, bs.length = n ∧ readBytes r n = .ok (bs, r.advance (8 * n))) ∨
      (r.limit < r.cur + 8 * n ∧ ∃ k, k < n ∧ readBytes r n = .error (.truncatedInput (r.cur / 8 + k))) := by
  induction n generalizing r with
  | zero => exact .inl ⟨by simpa using h, [], rfl, rfl⟩
  | succ n ih =>
    rcases readField_cases r 8 with ⟨hw, e⟩ | ⟨hw, e⟩
    · rcases ih (r.advance 8) (by simpa using hw) with ⟨hb, bs, hl, e'⟩ | ⟨hb, k, hk, e'⟩
      · refine .inl ⟨by simp at hb; omega, BitVec.ofNat 8 (val (r.bitsAt 8)) :: bs, by simp [hl], ?_⟩
        simp only [readBytes, e, bind, Except.bind, e', pure, Except.pure]
        simp only [Reader.advance, Nat.mul_succ, Except.ok.injEq, Prod.mk.injEq, Reader.mk.injEq, true_and, and_true]
        omega
      · refine .inr ⟨by simp at hb; omega, k + 1, by omega, ?_⟩
        simp only [readBytes, e, bind, Except.bind, e']
        simp only [Reader.advance_cur]
        congr 2; omega
    · refine .inr ⟨by omega, 0, by omega, ?_⟩
      simp [readBytes, e, bind, Except.bind]

/-! ### Capacity, focus and the instances -/

@[simp] theorem admits_none (n : Nat) : admits none n = true := rfl

@[simp] theorem admits_some (c n : Nat) : admits (some c) n = true ↔ n ≤ c := by simp [admits]

/-- Everything `focus` can do: the instance with the index comes into focus, and no instance changes. -/
theorem State.focus_some {s t : State} {k : Nat} (h : s.focus k = some t) :
    k < s.insts.length ∧ s.insts[k]? = some t.inst ∧ t.insts = s.insts ∧ t.index = k ∧ t.before = s.insts.take k ∧
      t.after = s.insts.drop (k + 1) ∧ t.params = s.params ∧ t.req = s.req ∧ t.port = s.port := by
  unfold State.focus at h
  split at h
  · cases h
  · next x rest e =>
    cases h
    have hk : k < s.insts.length := by
      by_contra hk
      rw [List.drop_eq_nil_of_le (by omega)] at e
      cases e
    have hx : s.insts[k]? = some x := by
      have := congrArg (·[0]?) e
      simpa using this
    have hr : rest = s.insts.drop (k + 1) := by
      have := congrArg List.tail e
      simpa using this.symm
    refine ⟨hk, hx, ?_, ?_, rfl, hr, rfl, rfl, rfl⟩
    · change s.insts.take k ++ x :: rest = s.insts
      rw [← e, List.take_append_drop]
    · change (s.insts.take k).length = k
      simp; omega

theorem State.focus_none {s : State} {k : Nat} : s.focus k = none ↔ s.insts.length ≤ k := by
  unfold State.focus
  split
  · next e => simpa using List.drop_eq_nil_iff.1 e
  · next x rest e =>
    simp only [reduceCtorEq, false_iff, not_le]
    by_contra hk
    rw [List.drop_eq_nil_of_le (by omega)] at e
    cases e

/-- An index that exists can be put in focus. -/
theorem State.focus_of_lt {s : State} {k : Nat} (h : k < s.insts.length) : ∃ t, s.focus k = some t := by
  cases e : s.focus k with
  | none => exact absurd (State.focus_none.1 e) (by omega)
  | some t => exact ⟨t, rfl⟩

@[simp] theorem State.insts_popPort (s : State) : s.popPort.insts = s.insts := rfl
@[simp] theorem State.insts_accept (s : State) (r : Request) : (s.accept r).insts = s.insts := rfl

/-- Reset of the instance in focus sets it alone. -/
theorem State.insts_resetInstance (s : State) : s.resetInstance.insts = s.insts.set s.index Instance.reset := by
  simp [State.insts, State.resetInstance, State.index]

/-- Reset of all sets every instance. -/
theorem State.insts_resetAll (s : State) : s.resetAll.insts = s.insts.map fun _ => Instance.reset := by
  simp [State.insts, State.resetAll]

/-- A request leaves every instance but the one in focus as it was. -/
theorem State.insts_done (s : State) (p : Packer) (d : Reader) (r : Response) :
    (s.done p d r).insts = s.insts.set s.index { pk := p, rd := d, resp := some r } := by
  simp [State.insts, State.done, State.index]

/-! ### What a meaning can leave behind -/

theorem State.respond_eq_done (s : State) (r : Response) : s.respond r = s.done s.inst.pk s.inst.rd r := rfl
theorem State.raise_eq_answered (s : State) (e : Error) : s.raise e = s.answered e.response := rfl
theorem State.answer_eq_answered (s : State) (r : Except Error Response) :
    s.answer r = s.answered (Response.ofExcept r) := rfl

/-- The response to a parsed section returns it either way (60_exceptions.md R205). -/
@[simp] theorem Response.ofSection_sect (d : DecodedSection) : (Response.ofSection d).sect = some d := by
  unfold Response.ofSection
  split <;> rfl

/-- A parsed section is answered OK or ChecksumMismatchError (43_section_assembler.md R170). -/
theorem Response.ofSection_status (d : DecodedSection) :
    (Response.ofSection d).status = if d.crcStored = d.crcComputed then .ok else .checksumMismatchError := by
  unfold Response.ofSection
  split <;> rfl

/-- An error's response has no result field (60_exceptions.md R209). -/
@[simp] theorem Error.response_noResults (e : Error) : e.response.noResults = true := rfl

/-- Every meaning that goes on leaves a packer, a reader and a response in its instance, and changes nothing else. -/
theorem exec_inv {i : Instr} {s t : State} (h : exec i s = .next t) : ∃ p d r, t = s.done p d r := by
  cases i <;>
    simp only [exec, execBpInit, execBpWrite, execBpFinish, execBrLoad, execBrRead, execScEncInsert, execScEncTsig,
      execScDecode, execCrcCompute, execCrcVerify, execSaEncode, execSaDecode, execSpliceInsert, execTimeSignal,
      refuseCapacity] at h <;>
    (repeat' split at h) <;> cases h <;> exact ⟨_, _, _, rfl⟩

/-- A meaning never faults. -/
theorem exec_no_fault (i : Instr) (s : State) (f : Fault) : exec i s ≠ .fault f := by
  cases i <;>
    simp only [exec, execBpInit, execBpWrite, execBpFinish, execBrLoad, execBrRead, execScEncInsert, execScEncTsig,
      execScDecode, execCrcCompute, execCrcVerify, execSaEncode, execSaDecode, execSpliceInsert, execTimeSignal,
      refuseCapacity] <;>
    (repeat' split) <;> simp

end Sys2Proof.Machine
end

