-- ==== Sys2Proof/Laws/PerInstr.lean ====
section
/-! SUPPORT. Statements made per instruction, one lemma per constructor of Instr. The family TableRow: the encoding of a
well-formed instruction agrees with the `match` and `mask` of its row of spec/opcode_table.json (30_encoding.md R83). -/

namespace Sys2Proof.Laws.TableRow

/-- The encoding of a well-formed instruction fits its row of the opcode table. -/
def Statement (i : Instr) : Prop := i.wf = true → (encode i).fitsRow i.tableRow = true

theorem bpInit : Statement .bpInit := fun _ => rfl

/-- Every legal width leaves the fixed bits of its row alone. -/
theorem width_words (op w : Nat) (ho : op = 0x02 ∨ op = 0x12) (h : legalWidth w = true) :
    (cmdWord op w).toNat &&& 0xFF80 = op * 256 := by
  have h2 : w ≤ 64 := by
    simp only [legalWidth, Bool.and_eq_true, decide_eq_true_eq] at h
    exact h.2
  rcases ho with rfl | rfl <;> interval_cases w <;> rfl

theorem bpWrite (w : Nat) : Statement (.bpWrite w) := fun h => by
  simp [encode, Code.fitsRow, Instr.tableRow, width_words 0x02 w (.inl rfl) h]

theorem bpFinish : Statement .bpFinish := fun _ => rfl
theorem brLoad : Statement .brLoad := fun _ => rfl

theorem brRead (w : Nat) : Statement (.brRead w) := fun h => by
  simp [encode, Code.fitsRow, Instr.tableRow, width_words 0x12 w (.inr rfl) h]

theorem scEncInsert : Statement .scEncInsert := fun _ => rfl
theorem scEncTsig : Statement .scEncTsig := fun _ => rfl
theorem scDecode : Statement .scDecode := fun _ => rfl
theorem crcCompute : Statement .crcCompute := fun _ => rfl
theorem crcVerify : Statement .crcVerify := fun _ => rfl
theorem saEncode : Statement .saEncode := fun _ => rfl
theorem saDecode : Statement .saDecode := fun _ => rfl
theorem spliceInsert : Statement .spliceInsert := fun _ => rfl
theorem timeSignal : Statement .timeSignal := fun _ => rfl

end Sys2Proof.Laws.TableRow
end

