-- ==== Sys2Proof/Tests/Slice0.lean ====
section
/-! SUPPORT. The model's own tests. Expected results are the spec's: the vectors of 95_test_vectors.md and the encodings of
30_encoding.md. Then, for every statement with hypotheses, a witness that meets them. -/

namespace Sys2Proof.Tests

open Sys2Proof Sys2Proof.Machine

/-! ### Well-formedness: an ill-formed term for each check -/

theorem test_wf_refuses_width_0 : (Instr.bpWrite 0).wf = false ∧ (Instr.brRead 0).wf = false := by decide
theorem test_wf_refuses_width_65 : (Instr.bpWrite 65).wf = false ∧ (Instr.brRead 65).wf = false := by decide
theorem test_wf_accepts_1_and_64 : (Instr.bpWrite 1).wf = true ∧ (Instr.brRead 64).wf = true := by decide

/-! ### Decoding: every constructor from a word written out from 30_encoding.md R60, R61, R72 -/

theorem test_decode_bpInit : decodeCmd 0b0000000100000000#16 = .ok .bpInit := rfl
theorem test_decode_bpWrite : decodeCmd 0b0000001000100001#16 = .ok (.bpWrite 33) := rfl
theorem test_decode_bpFinish : decodeCmd 0b0000001100000000#16 = .ok .bpFinish := rfl
theorem test_decode_brLoad : decodeCmd 0b0001000100000000#16 = .ok .brLoad := rfl
theorem test_decode_brRead : decodeCmd 0b0001001001000000#16 = .ok (.brRead 64) := rfl
theorem test_decode_scEncInsert : decodeCmd 0b0010000100000000#16 = .ok .scEncInsert := rfl
theorem test_decode_scEncTsig : decodeCmd 0b0010001000000000#16 = .ok .scEncTsig := rfl
theorem test_decode_scDecode : decodeCmd 0b0010001100000000#16 = .ok .scDecode := rfl
theorem test_decode_crcCompute : decodeCmd 0b0011000100000000#16 = .ok .crcCompute := rfl
theorem test_decode_crcVerify : decodeCmd 0b0011001000000000#16 = .ok .crcVerify := rfl
theorem test_decode_saEncode : decodeCmd 0b0100000100000000#16 = .ok .saEncode := rfl
theorem test_decode_saDecode : decodeCmd 0b0100001000000000#16 = .ok .saDecode := rfl
theorem test_decode_spliceInsert : decodeType 0b00000101 = .ok .spliceInsert := rfl
theorem test_decode_timeSignal : decodeType 0b00000110 = .ok .timeSignal := rfl

/-- 95_test_vectors.md section 2.3, one word for each clause of 30_encoding.md R64. -/
theorem test_decode_rejects_by_name :
    decodeCmd 0xFF00#16 = .error (.unknownOpcode 0xFF) ∧ decodeCmd 0x0281#16 = .error .reservedBitSet ∧
    decodeCmd 0x0200#16 = .error (.widthOutOfRange 0) ∧ decodeCmd 0x1241#16 = .error (.widthOutOfRange 65) ∧
    decodeCmd 0x0101#16 = .error (.strayWidth 1) ∧ decodeType 7 = .error (.unsupportedType 7) := ⟨rfl, rfl, rfl, rfl, rfl, rfl⟩

theorem test_table_words :
    decodeTableWord 16 0x0200 = none ∧ decodeTableWord 16 0x0220 = some (.bpWrite 32) ∧
    decodeTableWord 8 0x05 = some .spliceInsert ∧ decodeTableWord 16 0x05 = none := ⟨rfl, rfl, rfl, rfl⟩

/-! ### One instruction each -/

/-- The reset state with a request record in service. -/
def serving (f : AsmForm) : State := { State.reset with req := f.request }

/-- The same with an instance of our choosing in focus. -/
def servingOn (p : Packer) (d : Reader) (f : AsmForm) : State :=
  { State.reset with inst := { pk := p, rd := d, resp := none }, req := f.request }

/-- The response of an outcome. -/
def respOf : Host.Outcome State Fault Refusal → Option Response
  | .next t => t.inst.resp
  | .fault _ => none
  | .refused _ => none

/-- The packer and reader of an outcome. -/
def storesOf : Host.Outcome State Fault Refusal → Option (Packer × Reader)
  | .next t => some (t.inst.pk, t.inst.rd)
  | .fault _ => none
  | .refused _ => none

/-- 10101, the packer of 40_bitpacker.md R102's example. -/
def pk10101 : Packer := { bits := [true, false, true, false, true] }

/-- The splice_insert of 95_test_vectors.md section 1.1. -/
def scenario1 : SpliceInsertIn :=
  { SpliceInsertIn.zero with
    eventId := 1001, outOfNetwork := true, durationFlag := true, spliceTimePts := 900000, autoReturn := true,
    durationTicks := 2700000 }

/-- The body of 95_test_vectors.md section 1.1. -/
def body1 : Bytes :=
  [0x00#8, 0x00#8, 0x03#8, 0xE9#8, 0x77#8, 0xFE#8, 0x00#8, 0x0D#8, 0xBB#8, 0xA0#8, 0xFE#8, 0x00#8, 0x29#8, 0x32#8, 0xE0#8]

/-- The 25 bytes of 95_test_vectors.md section 1.4. -/
def section4 : Bytes :=
  [0xFC#8, 0x30#8, 0x16#8, 0x00#8, 0x00#8, 0x00#8, 0x00#8, 0x00#8, 0x00#8, 0x00#8, 0xFF#8, 0xF0#8, 0x06#8, 0x06#8]
    ++ [0xFE#8, 0x00#8, 0x20#8, 0xF5#8, 0x80#8] ++ [0x00#8, 0x00#8] ++ [0x46#8, 0x2D#8, 0xD0#8, 0xC0#8]

/-- 40_bitpacker.md R101: bits not finished are lost. -/
theorem test_bpInit : storesOf (exec .bpInit (servingOn pk10101 Reader.empty .bpInit)) = some (Packer.empty, Reader.empty) := rfl

/-- 95_test_vectors.md 2.1 #2 and #3. -/
theorem test_bpWrite :
    respOf (exec (.bpWrite 3) (servingOn pk10101 Reader.empty (.bpWrite 3 8))) = some (Error.fieldOverflow 3 8).response ∧
    storesOf (exec (.bpWrite 3) (servingOn pk10101 Reader.empty (.bpWrite 3 6)))
      = some (⟨[true, false, true, false, true, true, true, false]⟩, Reader.empty) := by decide +kernel

/-- 95_test_vectors.md 2.1 #1. -/
theorem test_bpFinish :
    respOf (exec .bpFinish (servingOn pk10101 Reader.empty .bpFinish)) = some (Response.okBytes [0xA8#8]) := by
  decide +kernel

/-- 40_bitpacker.md R104's example. -/
theorem test_brLoad :
    storesOf (exec .brLoad (serving (.brLoad [0xA8#8]))) = some (Packer.empty, ⟨[0xA8#8], 0, 8⟩) := rfl

/-- 95_test_vectors.md 2.2 #6: the read spans two bytes, then the offset is the byte of bit 13. -/
theorem test_brRead :
    respOf (exec (.brRead 8) (servingOn Packer.empty ⟨[0x1F#8, 0xE5#8], 5, 16⟩ (.brRead 8)))
      = some (Response.okValue 0xFC) ∧
    respOf (exec (.brRead 4) (servingOn Packer.empty ⟨[0xFF#8, 0xFF#8], 13, 16⟩ (.brRead 4)))
      = some (Error.truncatedInput 1).response := by decide +kernel

/-- 95_test_vectors.md 3.1 #1. -/
theorem test_scEncInsert :
    respOf (exec .scEncInsert (serving (.scEncInsert scenario1))) = some (Response.okBytes body1) := by decide +kernel

/-- 95_test_vectors.md 3.1 #18: the top bit lands in byte 0. -/
theorem test_scEncTsig :
    respOf (exec .scEncTsig (serving (.scEncTsig (2 ^ 32))))
      = some (Response.okBytes [0xFF#8, 0x00#8, 0x00#8, 0x00#8, 0x00#8]) := by decide +kernel

/-- 95_test_vectors.md 3.2 #12 and #10. -/
theorem test_scDecode :
    respOf (exec .scDecode (serving (.scDecode 7 body1))) = some (Error.unsupportedCommandType 7).response ∧
    respOf (exec .scDecode (serving (.scDecode 5 (body1.take 5)))) = some (Error.truncatedInput 5).response := by
  decide +kernel

/-- 95_test_vectors.md 3.2 #6: `program_splice` as read, `cancel_indicator` without effect, the top bit of the duration. -/
theorem test_spliceInsert :
    respOf (exec .spliceInsert (serving (.scDecode 5
        [0x00#8, 0x00#8, 0x00#8, 0x01#8, 0xD8#8, 0x01#8, 0x00#8, 0x00#8, 0x00#8, 0x00#8])))
      = some (Response.okCommand
          (.insert ⟨1, true, true, false, true, true, none, some ⟨false, 2 ^ 32⟩⟩) 10) := by decide +kernel

/-- Program 3 step 5 of 95_test_vectors.md: the flag and the reserved bits are ignored. -/
theorem test_timeSignal :
    respOf (exec .timeSignal (serving (.scDecode 6 body1))) = some (Response.okCommand (.timeSignal 256375) 5) := by
  decide +kernel

/-- The check value of 42_crc32.md R150. -/
theorem test_crcCompute :
    respOf (exec .crcCompute (serving (.crcCompute
        [0x31#8, 0x32#8, 0x33#8, 0x34#8, 0x35#8, 0x36#8, 0x37#8, 0x38#8, 0x39#8])))
      = some (Response.okValue 0x0376E6E7) := by decide +kernel

/-- 95_test_vectors.md 4.1: the empty string, and a value past 32 bits. -/
theorem test_crcVerify :
    respOf (exec .crcVerify (serving (.crcVerify [] 0xFFFFFFFF))) = some (Response.okValue 1) ∧
    respOf (exec .crcVerify (serving (.crcVerify [] (2 ^ 32)))) = some (Response.okValue 0) := by decide +kernel

/-- 95_test_vectors.md 1.4, and 4.2 #14: the body's overflow first. -/
theorem test_saEncode :
    respOf (exec .saEncode (serving (.saEncode (.timeSignal 2160000) none none))) = some (Response.okBytes section4) ∧
    respOf (exec .saEncode (serving (.saEncode (.timeSignal (2 ^ 33)) (some (2 ^ 33 + 1)) (some (2 ^ 12)))))
      = some (Error.fieldOverflow 33 (2 ^ 33)).response := by decide +kernel

/-- 95_test_vectors.md 4.4 #21: a zero CRC is a mismatch and the section still comes back; 4.4 #16: cut inside the CRC. -/
theorem test_saDecode :
    ((respOf (exec .saDecode (serving (.saDecode (section4.take 21 ++ [0#8, 0#8, 0#8, 0#8]))))).map fun r =>
        (r.status, r.info, r.sect.map DecodedSection.command))
      = some (.checksumMismatchError, .checksums 0 0x462DD0C0, some (.timeSignal 2160000)) ∧
    respOf (exec .saDecode (serving (.saDecode (section4.take 24)))) = some (Error.truncatedInput 21).response := by
  decide +kernel

/-- 95_test_vectors.md section 3.4. -/
theorem test_ticks : secondsToTicks (57 / 100) = 51300 ∧ secondsToTicks (1 / 180000) = 0 ∧ ticksToSeconds 2160000 = 24 := by
  decide +kernel

/-- An illegal word through `step` (95_test_vectors.md 2.3), and a table word as the first instruction after reset. -/
theorem test_step :
    respOf (step (State.reset.withFetchWord 16 0x0241)) = some (Error.illegalCommand 0x0241#16).response ∧
    respOf (step (State.reset.withFetchWord 16 0x1201)) = some (Error.truncatedInput 0).response ∧
    respOf (step (State.reset.withFetchWord 8 0x06)) = some (Error.truncatedInput 0).response ∧
    respOf (step (State.reset.withFetchWord 16 0x3100)) = some (Response.okValue 0xFFFFFFFF) := by decide +kernel

/-! ### Witnesses: for each statement with hypotheses, a state and operands that meet them -/

/-- Two instances, the second with five packer bits and a loaded reader; the first in focus. -/
def two : State :=
  { State.reset with after := [{ pk := pk10101, rd := ⟨[0xA8#8], 3, 8⟩, resp := none }] }

/-- `two` with events on its port. -/
def twoWith (es : List HostEvent) : State := { two with port := es }

/-- Small capacities. -/
def tight (f : AsmForm) : State :=
  { servingOn pk10101 Reader.empty f with params := { pkCapacityBits := some 8, rdCapacityBytes := some 1 } }

theorem witness_DecodeOfEncode : (Instr.bpWrite 64).wf = true ∧ Instr.spliceInsert.wf = true := by decide
theorem witness_EncodeOfDecode :
    decode (.cmd 0x0240#16) = .ok (.bpWrite 64) ∧ decode (.ctype 6) = .ok .timeSignal := ⟨rfl, rfl⟩
theorem witness_IllegalCommandWords :
    (∃ x, (twoWith [.request 1 { Request.idle with cmd := 0x0280#16 }]).insts[1]? = some x ∧
      legalCommand 0x0280#16 = false) ∧
    legalCommand 0x0240#16 = true ∧
    ∃ t y a, step (twoWith [.request 1 { Request.idle with cmd := 0x0240#16 }]) = .next t ∧ t.insts[1]? = some y ∧
      y.resp = some a := ⟨⟨_, rfl, by decide⟩, by decide, _, _, _, rfl, rfl, rfl⟩
theorem witness_StepRunsTheDecodedInstruction :
    (∃ x, (twoWith [.request 1 (AsmForm.scDecode 5 body1).request]).insts[1]? = some x) ∧
      decode (.cmd (AsmForm.scDecode 5 body1).request.cmd) = .ok .scDecode ∧ decode (.ctype 5) = .ok .spliceInsert :=
  ⟨⟨_, rfl⟩, rfl, rfl⟩
theorem witness_AssemblerForms : (AsmForm.bpWrite 64 0).instr.wf = true := by decide

/-- Both the largest value that fits and the smallest that does not, at the capacity and past it. -/
theorem witness_BpWrite :
    (AsmForm.bpWrite 3 7).request.value < 2 ^ 3 ∧ 2 ^ 3 ≤ (AsmForm.bpWrite 3 8).request.value ∧
    (∀ c, (tight (.bpWrite 3 7)).params.pkCapacityBits = some c → (tight (.bpWrite 3 7)).inst.pk.bits.length + 3 ≤ c) ∧
    (tight (.bpWrite 4 7)).params.pkCapacityBits = some 8 ∧ 8 < (tight (.bpWrite 4 7)).inst.pk.bits.length + 4 :=
  ⟨by decide, by decide, fun c h => by cases h; decide, rfl, by decide⟩
theorem witness_BrLoad :
    (∀ c, (tight (.brLoad [1#8])).params.rdCapacityBytes = some c → (tight (.brLoad [1#8])).req.bytes.length ≤ c) ∧
    (tight (.brLoad [1#8, 2#8])).params.rdCapacityBytes = some 1 ∧ 1 < (tight (.brLoad [1#8, 2#8])).req.bytes.length :=
  ⟨fun c h => by cases h; decide, rfl, by decide⟩
theorem witness_BrRead :
    let d : Reader := ⟨[0xA8#8], 5, 8⟩
    d.wf = true ∧ d.cur + 3 ≤ d.limit ∧ d.limit < d.cur + 4 := by decide
theorem witness_WrittenFieldsReadBack :
    two.unbounded = true ∧ ∀ f ∈ [(1, 1), (2 ^ 64 - 1, 64)], 1 ≤ f.2 ∧ f.2 ≤ 64 ∧ f.1 < 2 ^ f.2 := by decide

/-- Seven bits are left to read after one written bit. -/
theorem witness_WrittenFieldsLeftOver :
    (pack [true]).length = 1 ∧ 1 ≤ 7 ∧ 7 ≤ 8 * (pack [true]).length - ([((1 : Nat), (1 : Nat))].map Prod.snd).sum := by decide

/-- One record for each clause, at the boundary of its width. -/
theorem witness_ScEncInsert :
    ({ scenario1 with eventId := 2 ^ 32 - 1, spliceTimePts := 2 ^ 33 - 1 } : SpliceInsertIn).firstOverflow = none ∧
    ({ scenario1 with eventId := 2 ^ 32, spliceTimePts := 2 ^ 33 } : SpliceInsertIn).firstOverflow = some (32, 2 ^ 32) ∧
    ({ scenario1 with durationTicks := 2 ^ 33 } : SpliceInsertIn).firstOverflow = some (33, 2 ^ 33) := by decide
theorem witness_ScEncTsig :
    (AsmForm.scEncTsig (2 ^ 33 - 1)).request.tsigPts < 2 ^ 33 ∧ 2 ^ 33 ≤ (AsmForm.scEncTsig (2 ^ 33)).request.tsigPts := by
  decide
theorem witness_SpliceInsertBodyDecodes :
    let s := serving (.scDecode 5 body1)
    s.req.bytes = body1.take 4 ++ [0x77#8] ++ (body1.drop 5).take 5 ++ body1.drop 10 ++ [] ∧ (body1.take 4).length = 4 ∧
    ((body1.drop 5).take 5).length = (if (0x77#8).getLsbD 3 then 0 else 5) ∧
    (body1.drop 10).length = (if (0x77#8).getLsbD 4 then 5 else 0) ∧ s.req.ctype = 0x05 := by decide

/-- A length in each clause: 3, 4, 9 and 14 bytes of scenario 1's body. -/
theorem witness_SpliceInsertCutShort :
    (body1.take 3).length < 4 ∧ (body1.take 4).length = 4 ∧
    ((body1.getD 4 0#8).getLsbD 3 = false ∧ 5 ≤ (body1.take 9).length ∧ (body1.take 9).length < 10) ∧
    (10 ≤ (body1.take 14).length ∧ (body1.getD 4 0#8).getLsbD 4 = true ∧ (body1.take 14).length < 15) := by decide
theorem witness_TimeSignal :
    5 ≤ (serving (.scDecode 6 (body1.take 5))).req.bytes.length ∧ (serving (.scDecode 6 [])).req.ctype = 0x06 ∧
    (serving (.scDecode 6 (body1.take 4))).req.bytes.length < 5 := by decide
theorem witness_ScDecodeDispatch :
    decode (.ctype (serving (.scDecode 6 [])).req.ctype) = .ok .timeSignal ∧
    (serving (.scDecode 7 [])).req.ctype ≠ 5 ∧ (serving (.scDecode 7 [])).req.ctype ≠ 6 := ⟨rfl, by decide, by decide⟩
theorem witness_EncodedBodies :
    (SpliceCommandIn.insert scenario1).fitsWire = true ∧ (SpliceCommandIn.timeSignal (2 ^ 33 - 1)).fitsWire = true := by
  decide
theorem witness_InsertBodyLength : ∃ b, encodeInsertBody scenario1 = .ok b := ⟨_, rfl⟩
theorem witness_UnreadInsertFields :
    ({ scenario1 with immediate := true, durationFlag := false } : SpliceInsertIn).immediate = true ∧
    ({ scenario1 with immediate := true, durationFlag := false } : SpliceInsertIn).durationFlag = false := ⟨rfl, rfl⟩
theorem witness_CrcVerify : 2 ^ 32 ≤ (serving (.crcVerify [] (2 ^ 32))).req.value := by decide
theorem witness_CrcBurst :
    unpack [0x00#8] = [] ++ [false] ++ List.replicate 7 false ∧ unpack [0x80#8] = [] ++ [true] ++ List.replicate 7 false ∧
    [false].length = [true].length ∧ [false].length ≤ 32 ∧ [false] ≠ [true] := by decide
theorem witness_SaEncode :
    let s := serving (.saEncode (.timeSignal 0) (some (2 ^ 33 - 1)) none)
    s.req.command.firstOverflow = none ∧ s.req.ptsAdjustment.getD 0 < 2 ^ 33 ∧ s.req.tier.getD 0xFFF < 2 ^ 12 := by decide
theorem witness_SaEncodeOverflow :
    (SpliceCommandIn.timeSignal (2 ^ 33)).firstOverflow = some (33, 2 ^ 33) ∧
    (SpliceCommandIn.timeSignal 0).firstOverflow = none ∧
    2 ^ 33 ≤ (serving (.saEncode (.timeSignal 0) (some (2 ^ 33)) none)).req.ptsAdjustment.getD 0 ∧
    2 ^ 12 ≤ (serving (.saEncode (.timeSignal 0) none (some (2 ^ 12)))).req.tier.getD 0xFFF := by decide
theorem witness_EncodedSection :
    (encodeSection (.timeSignal 2160000) 0 0xFFF).toOption.map List.length = some 25 := by decide +kernel
theorem witness_SaDecodeFields :
    section4 = section4.take 14 ++ (section4.drop 14).take 5 ++ [0x00#8, 0x00#8] ++ [] ++ section4.drop 21 ++ [] ∧
    (section4.take 14).length = 14 ∧ (section4.drop 21).length = 4 ∧
    (∃ r, decodeBody 6 (Reader.new ((section4.drop 14).take 5)) = .ok (.timeSignal 2160000, r) ∧ r.cur = 8 * 5) ∧
    (section4.take 14 ++ (section4.drop 14).take 5 ++ [0x00#8, 0x00#8] ++ []).length + 4 ≤ 3 + (0x30 % 16 * 256 + 0x16) :=
  ⟨by decide, by decide, by decide, ⟨_, rfl, rfl⟩, by decide⟩
theorem witness_SaDecodeUnsupported :
    let hd := (section4.take 13) ++ [0x07#8]
    hd.length = 14 ∧ 14 ≤ 3 + ((hd.getD 1 0#8).toNat % 16 * 256 + (hd.getD 2 0#8).toNat) ∧ (hd.getD 13 0#8).toNat ≠ 0x05 ∧
    (hd.getD 13 0#8).toNat ≠ 0x06 := by decide
theorem witness_DecodedSection : (decodeSection section4).toOption.isSome = true := by decide +kernel

/-- 95_test_vectors.md 4.4: an input in each clause. The header cut at 2 and 12 bytes, a `section_length` one too small (#17),
a descriptor loop of 3 bytes that runs past the input, the CRC cut (#16); an unsupported type (#18); a whole section. -/
theorem witness_SaDecodeCut :
    let at' := fun b => firstCut (sectionSpans b) (sectionBound b)
    at' (section4.take 2) = some (1, 3) ∧ at' (section4.take 12) = some (11, 13) ∧
    at' (section4.set 2 0x15#8) = some (21, 25) ∧ at' ((section4.take 23).set 20 0x03#8) = some (23, 24) ∧
    at' (section4.take 24) = some (21, 25) ∧ at' (section4.set 13 0x07#8) = none ∧ at' section4 = none := by
  decide +kernel
theorem witness_SectionRoundTrip :
    (SpliceCommandIn.insert scenario1).fitsWire = true ∧ 2 ^ 33 - 1 < 2 ^ 33 ∧ 0xFFF < 2 ^ 12 := by decide

/-- A bit for each clause of the integrity law: the type byte, the loop length, `duration_flag`, a 1 bit of
`section_length`, and the first bit of the section. -/
theorem witness_OneFlippedBit :
    (encodeSection (.insert scenario1) 0 0xFFF).toOption.map (fun b => (b.length, bitAt b 18)) = some (35, true) ∧
    (104 ≤ 104 ∧ 104 < 112) ∧ (8 * (35 - 6) ≤ 232 ∧ 232 < 8 * (35 - 4)) ∧ (147 = 147 ∨ 147 = 148) ∧ 279 < 8 * 35 :=
  ⟨by decide +kernel, by decide, by decide, by decide, by decide⟩
theorem witness_ResetEvent :
    (twoWith [.reset 1]).port = .reset 1 :: [] ∧ 1 < (twoWith [.reset 1]).insts.length ∧
    (twoWith [.resetAll]).port = .resetAll :: [] := by decide
theorem witness_Invariant :
    two.inv = true ∧ ∃ t, step (twoWith [.request 1 (AsmForm.brRead 5).request]) = .next t := ⟨by decide, _, rfl⟩
theorem witness_ExecNext : ∃ t, exec (.brRead 1) two = .next t := ⟨_, rfl⟩
theorem witness_StepNext :
    (∃ t, step two = .next t) ∧ two.port = [] ∧
    ∃ t, step (twoWith [.request 0 (AsmForm.brLoad [1#8]).request]) = .next t := ⟨⟨_, rfl⟩, rfl, _, rfl⟩

/-- The same instance at different indices of two machines. -/
theorem witness_RequestsObserveOnlyTheirInstance :
    let x : Instance := { pk := pk10101, rd := ⟨[0xA8#8], 3, 8⟩, resp := none }
    let r := (AsmForm.brRead 5).request
    (twoWith [.request 1 r]).params = ({ State.reset with inst := x, port := [.request 0 r] } : State).params ∧
    (twoWith [.request 1 r]).insts[1]? = some x ∧
    ({ State.reset with inst := x, port := [.request 0 r] } : State).insts[0]? = some x := by decide
theorem witness_Commute :
    0 ≠ 1 ∧ ∃ t, Sys2Proof.core.run 2 (twoWith [.request 0 AsmForm.bpFinish.request, .request 1 (AsmForm.brRead 1).request])
      = .next t := ⟨by decide, _, rfl⟩
theorem witness_Composite : isComposite .saDecode = true ∧ isComposite .bpInit = false := by decide
theorem witness_FailedRequest :
    (∃ t r, exec (.brRead 1) State.reset = .next t ∧ t.inst.resp = some r ∧ r.status ≠ .ok ∧
      r.status ≠ .checksumMismatchError) ∧
    ((respOf (exec .saDecode (serving (.saDecode (section4.take 21 ++ [0#8, 0#8, 0#8, 0#8]))))).map Response.status
      = some .checksumMismatchError) := ⟨⟨_, _, rfl, rfl, by decide, by decide⟩, by decide +kernel⟩
theorem witness_Repeated :
    (∃ t r, issue State.reset (.brRead 1) = some (t, r) ∧ r.status ≠ .ok) ∧
    ∃ t r, issue State.reset (.crcCompute []) = some (t, r) ∧ isComposite (AsmForm.crcCompute []).instr = true :=
  ⟨⟨_, _, rfl, by decide⟩, _, _, rfl, rfl⟩
theorem witness_OperationsFields : ∃ t r, exec .bpFinish State.reset = .next t ∧ t.inst.resp = some r := ⟨_, _, rfl, rfl⟩
theorem witness_PackerAndReader :
    (∃ t, exec .bpFinish State.reset = .next t) ∧ onPacker .bpFinish = true ∧
    (∃ t, exec .brLoad State.reset = .next t) ∧ onReader .brLoad = true := ⟨⟨_, rfl⟩, rfl, ⟨_, rfl⟩, rfl⟩
theorem witness_PortOk :
    (twoWith [.request 1 AsmForm.bpInit.request]).portOk = true ∧ (twoWith [.reset 1]).portOk = true ∧
    two.portOk = true ∧ two.unbounded = true := by decide

/-- One past each capacity, with a reset of all instances behind it on the port. -/
theorem witness_PastACapacity :
    decode (.cmd (AsmForm.bpWrite 4 0).request.cmd) = .ok (.bpWrite 4) ∧ (AsmForm.bpWrite 4 0).request.value < 2 ^ 4 ∧
    (tight .bpInit).params.pkCapacityBits = some 8 ∧ (tight .bpInit).insts[0]? = some (tight .bpInit).inst ∧
    8 < (tight .bpInit).inst.pk.bits.length + 4 ∧
    decode (.cmd (AsmForm.brLoad [1#8, 2#8]).request.cmd) = .ok .brLoad ∧
    (tight .bpInit).params.rdCapacityBytes = some 1 ∧ 1 < (AsmForm.brLoad [1#8, 2#8]).request.bytes.length ∧
    step { tight .bpInit with port := [.request 0 (AsmForm.bpWrite 4 0).request, .resetAll] }
      = .refused (.capacityExceeded 9 8) :=
  ⟨rfl, by decide, rfl, rfl, by decide, rfl, rfl, by decide, rfl⟩
theorem witness_RefusedRequest :
    ∃ c, step { tight .bpInit with port := [.request 0 (AsmForm.bpWrite 8 0).request] } = .refused c := ⟨_, rfl⟩
theorem witness_PrefixAndTicks : 24 < section4.length ∧ (0 : Rat) ≤ 57 / 100 ∧ (-1 / 180000 : Rat) ≤ 0 := by
  refine ⟨by decide, ?_, ?_⟩ <;> norm_num
theorem witness_UnknownIndex :
    two.insts.length ≤ 2 ∧ (twoWith [.request 2 AsmForm.bpInit.request]).port = .request 2 AsmForm.bpInit.request :: [] := by
  decide

end Sys2Proof.Tests
end

section
/-! The composite requests of 10_state.md R25: the response of each as a function of the request record alone. -/

namespace Sys2Proof.Machine

/-- The response of a composite request or command type, from its request record; none for a request on a store. -/
def compositeResponse (i : Instr) (q : Request) : Option Response :=
  match i with
  | .bpInit | .bpWrite _ | .bpFinish | .brLoad | .brRead _ => none
  | .scEncInsert => some (.ofExcept ((encodeInsertBody q.insert).map .okBytes))
  | .scEncTsig => some (.ofExcept ((encodeTimeSignalBody q.tsigPts).map .okBytes))
  | .scDecode => some (.ofExcept ((decodeBody q.ctype (Reader.new q.bytes)).map bodyResponse))
  | .crcCompute => some (.okValue (crc32 q.bytes).toNat)
  | .crcVerify => some (.okValue (flagBit (decide ((crc32 q.bytes).toNat = q.value))))
  | .saEncode => some (.ofExcept ((encodeSection q.command q.ptsAdjustmentOr q.tierOr).map .okBytes))
  | .saDecode => some (.ofExcept ((decodeSection q.bytes).map .ofSection))
  | .spliceInsert => some (.ofExcept ((decodeInsertBody (Reader.new q.bytes)).map bodyResponse))
  | .timeSignal => some (.ofExcept ((decodeTimeSignalBody (Reader.new q.bytes)).map bodyResponse))

/-- Exactly the composite requests have such a response. -/
theorem isSome_compositeResponse (i : Instr) (q : Request) : (compositeResponse i q).isSome = isComposite i := by
  cases i <;> rfl

/-- A composite request answers with its `compositeResponse` and changes nothing else (10_state.md R25). -/
theorem exec_of_compositeResponse {i : Instr} {s : State} {r : Response} (h : compositeResponse i s.req = some r) :
    exec i s = .next (s.answered r) := by
  cases i with
  | bpInit | bpWrite | bpFinish | brLoad | brRead => cases h
  | scEncInsert | scEncTsig | scDecode | crcCompute | crcVerify | saEncode | saDecode | spliceInsert | timeSignal =>
    cases h
    rfl

/-- Settles O46: the response is `compositeResponse`, which is given the request record and not the state. -/
theorem compositeRequestsIgnoreThePersistentState : Obligations.CompositeRequestsIgnoreThePersistentState := by
  intro i hi s
  obtain ⟨r, hr⟩ := Option.isSome_iff_exists.1 ((isSome_compositeResponse i s.req).trans hi)
  exact ⟨r, exec_of_compositeResponse hr, fun s' hreq => exec_of_compositeResponse (hreq ▸ hr)⟩

end Sys2Proof.Machine
end

section
/-! What the codec functions can raise, and what an instruction can answer. A codec function raises only the errors of
60_exceptions.md R202 to R204, with a payload such an error can have; so IllegalCommand comes from the decoder alone. -/

namespace Sys2Proof.Machine

/-- An error a codec function can raise (60_exceptions.md R202 to R204). -/
def Error.fromCodec : Error → Bool
  | .fieldOverflow w v => !fits v w
  | .truncatedInput _ => true
  | .unsupportedCommandType t => decide (t ≠ 0x05) && decide (t ≠ 0x06)
  | .illegalCommand _ => false

/-- A computation whose every error is one a codec function can raise. -/
def RaisesCodecErrors {α : Type} (x : Except Error α) : Prop := ∀ e, x = .error e → e.fromCodec = true

section
variable {α β : Type}

@[simp] theorem raisesCodecErrors_ok (a : α) : RaisesCodecErrors (.ok a : Except Error α) := nofun

@[simp] theorem raisesCodecErrors_pure (a : α) : RaisesCodecErrors (pure a : Except Error α) := nofun

@[simp] theorem raisesCodecErrors_error (e : Error) :
    RaisesCodecErrors (.error e : Except Error α) ↔ e.fromCodec = true := by
  simp [RaisesCodecErrors]

theorem RaisesCodecErrors.bind {x : Except Error α} {f : α → Except Error β} (hx : RaisesCodecErrors x)
    (hf : ∀ a, RaisesCodecErrors (f a)) : RaisesCodecErrors (x >>= f) := by
  cases x with
  | ok a => exact hf a
  | error e =>
    intro e' he
    cases he
    exact hx e rfl

end

@[simp] theorem appendField_raises (p : Packer) (v w : Nat) : RaisesCodecErrors (appendField p v w) := by
  rcases appendField_cases p v w with ⟨-, e⟩ | ⟨hv, e⟩
  · simp [e]
  · simpa [e, Error.fromCodec] using hv

@[simp] theorem appendFields_raises (p : Packer) (fs : List (Nat × Nat)) : RaisesCodecErrors (appendFields p fs) := by
  induction fs generalizing p with
  | nil => simp
  | cons f fs ih => exact (appendField_raises _ _ _).bind ih

@[simp] theorem readField_raises (r : Reader) (w : Nat) : RaisesCodecErrors (readField r w) := by
  rcases readField_cases r w with ⟨-, e⟩ | ⟨-, e⟩ <;> simp [e, Error.fromCodec]

@[simp] theorem readFlag_raises (r : Reader) : RaisesCodecErrors (readFlag r) :=
  (readField_raises _ _).bind fun _ => raisesCodecErrors_ok _

@[simp] theorem readBytes_raises (r : Reader) (n : Nat) : RaisesCodecErrors (readBytes r n) := by
  induction n generalizing r with
  | zero => simp [readBytes]
  | succ n ih => exact (readField_raises _ _).bind fun _ => (ih _).bind fun _ => raisesCodecErrors_pure _

@[simp] theorem encodeSpliceTime_raises (p : Packer) (pts : Nat) : RaisesCodecErrors (encodeSpliceTime p pts) := by
  simp [encodeSpliceTime]

@[simp] theorem encodeBreakDuration_raises (p : Packer) (ar : Bool) (d : Nat) :
    RaisesCodecErrors (encodeBreakDuration p ar d) := by
  simp [encodeBreakDuration]

@[simp] theorem encodeInsertBody_raises (i : SpliceInsertIn) : RaisesCodecErrors (encodeInsertBody i) := by
  have hduration (p : Packer) : RaisesCodecErrors (do
      let p ← if i.durationFlag then encodeBreakDuration p i.autoReturn i.durationTicks else .ok p
      return p.finish) := by
    cases i.durationFlag
    · exact raisesCodecErrors_ok _
    · exact (encodeBreakDuration_raises _ _ _).bind fun _ => raisesCodecErrors_pure _
  refine (appendFields_raises _ _).bind fun _ => ?_
  cases i.immediate
  · exact (encodeSpliceTime_raises _ _).bind hduration
  · exact hduration _

@[simp] theorem encodeTimeSignalBody_raises (pts : Nat) : RaisesCodecErrors (encodeTimeSignalBody pts) :=
  (encodeSpliceTime_raises _ _).bind fun _ => raisesCodecErrors_pure _

@[simp] theorem decodeSpliceTime_raises (r : Reader) : RaisesCodecErrors (decodeSpliceTime r) :=
  (readField_raises _ _).bind fun _ => (readField_raises _ _).bind fun _ => readField_raises _ _

@[simp] theorem decodeBreakDuration_raises (r : Reader) : RaisesCodecErrors (decodeBreakDuration r) := by
  unfold decodeBreakDuration
  repeat refine RaisesCodecErrors.bind (by simp) fun _ => ?_
  simp

@[simp] theorem decodeOptSpliceTime_raises (absent : Bool) (r : Reader) :
    RaisesCodecErrors (decodeOptSpliceTime absent r) := by
  cases absent
  · exact (decodeSpliceTime_raises r).bind fun _ => raisesCodecErrors_pure _
  · exact raisesCodecErrors_ok _

@[simp] theorem decodeOptBreakDuration_raises (present : Bool) (r : Reader) :
    RaisesCodecErrors (decodeOptBreakDuration present r) := by
  cases present
  · exact raisesCodecErrors_ok _
  · exact (decodeBreakDuration_raises r).bind fun _ => raisesCodecErrors_pure _

@[simp] theorem decodeInsertBody_raises (r : Reader) : RaisesCodecErrors (decodeInsertBody r) := by
  unfold decodeInsertBody
  repeat refine RaisesCodecErrors.bind (by simp) fun _ => ?_
  simp

@[simp] theorem decodeTimeSignalBody_raises (r : Reader) : RaisesCodecErrors (decodeTimeSignalBody r) :=
  (decodeSpliceTime_raises r).bind fun _ => raisesCodecErrors_pure _

@[simp] theorem decodeBody_raises (t : Nat) (r : Reader) : RaisesCodecErrors (decodeBody t r) := by
  unfold decodeBody
  split
  · simp
  · split
    · simp
    · simp_all [Error.fromCodec, Config.ctSpliceInsert, Config.ctTimeSignal]

@[simp] theorem SpliceCommandIn.encodeBody_raises (c : SpliceCommandIn) : RaisesCodecErrors c.encodeBody := by
  cases c <;> simp [SpliceCommandIn.encodeBody]

@[simp] theorem encodeSection_raises (c : SpliceCommandIn) (pa tier : Nat) :
    RaisesCodecErrors (encodeSection c pa tier) :=
  c.encodeBody_raises.bind fun _ => (appendFields_raises _ _).bind fun _ => raisesCodecErrors_pure _

@[simp] theorem decodeSection_raises (b : Bytes) : RaisesCodecErrors (decodeSection b) := by
  unfold decodeSection
  repeat refine RaisesCodecErrors.bind (by simp) fun _ => ?_
  simp

/-! ### What an instruction can answer -/

/-- A result of `i`: OK or ChecksumMismatchError (60_exceptions.md R205), with no field but those `i` writes
(30_encoding.md R65). -/
def Response.IsResult (i : Instr) (r : Response) : Prop :=
  (r.status = .ok ∨ r.status = .checksumMismatchError) ∧ r.resultsOf i = r

/-- What `i` can answer: a result of its own, or an error of a codec function with no result field. -/
def Response.IsAnswer (i : Instr) (r : Response) : Prop :=
  r.IsResult i ∨ ∃ e : Error, e.fromCodec = true ∧ r = e.response

theorem Error.resultsOf_response (e : Error) (i : Instr) : e.response.resultsOf i = e.response := by
  cases i <;> rfl

theorem Response.IsAnswer.resultsOf_eq {i : Instr} {r : Response} (h : r.IsAnswer i) : r.resultsOf i = r := by
  obtain ⟨-, hr⟩ | ⟨e, -, rfl⟩ := h
  · exact hr
  · exact e.resultsOf_response i

theorem Response.IsAnswer.status_ne_illegalCommand {i : Instr} {r : Response} (h : r.IsAnswer i) :
    r.status ≠ .illegalCommand := by
  obtain ⟨hs, -⟩ | ⟨e, he, rfl⟩ := h
  · rcases hs with hs | hs <;> simp [hs]
  · cases e with
    | illegalCommand => cases he
    | fieldOverflow | truncatedInput | unsupportedCommandType => nofun

/-- A response made of a codec function's value, or of the error it raises. -/
theorem Response.ofExcept_isAnswer {α : Type} {i : Instr} {x : Except Error α} {f : α → Response}
    (hx : RaisesCodecErrors x) (hf : ∀ a, (f a).IsResult i) : (Response.ofExcept (x.map f)).IsAnswer i := by
  cases x with
  | ok a => exact .inl (hf a)
  | error e => exact .inr ⟨e, hx e rfl, rfl⟩

theorem Response.ofSection_isResult (d : DecodedSection) : (Response.ofSection d).IsResult .saDecode := by
  unfold Response.ofSection
  split
  · exact ⟨.inl rfl, rfl⟩
  · exact ⟨.inr rfl, rfl⟩

theorem compositeResponse_isAnswer {i : Instr} {q : Request} {r : Response} (h : compositeResponse i q = some r) :
    r.IsAnswer i := by
  cases i with
  | bpInit | bpWrite | bpFinish | brLoad | brRead => cases h
  | crcCompute | crcVerify =>
    cases h
    exact .inl ⟨.inl rfl, rfl⟩
  | saDecode =>
    cases h
    exact Response.ofExcept_isAnswer (by simp) Response.ofSection_isResult
  | scEncInsert | scEncTsig | scDecode | saEncode | spliceInsert | timeSignal =>
    cases h
    exact Response.ofExcept_isAnswer (by simp) fun _ => ⟨.inl rfl, rfl⟩

/-- Whatever an instruction answers is a result of its own or an error of a codec function. -/
theorem exec_isAnswer {i : Instr} {s t : State} {r : Response} (h : exec i s = .next t) (hr : t.inst.resp = some r) :
    r.IsAnswer i := by
  cases hc : compositeResponse i s.req with
  | some r' =>
    rw [exec_of_compositeResponse hc] at h
    cases h
    cases hr
    exact compositeResponse_isAnswer hc
  | none =>
    cases i with
    | scEncInsert | scEncTsig | scDecode | crcCompute | crcVerify | saEncode | saDecode | spliceInsert | timeSignal =>
      cases hc
    | bpInit | bpFinish =>
      cases h
      cases hr
      exact .inl ⟨.inl rfl, rfl⟩
    | brLoad =>
      simp only [exec, execBrLoad, refuseCapacity] at h
      split at h <;> cases h
      cases hr
      exact .inl ⟨.inl rfl, rfl⟩
    | bpWrite w =>
      simp only [exec, execBpWrite, refuseCapacity] at h
      split at h
      · next e he =>
        cases h
        cases hr
        exact .inr ⟨e, appendField_raises _ _ _ e he, rfl⟩
      · split at h <;> cases h
        cases hr
        exact .inl ⟨.inl rfl, rfl⟩
    | brRead w =>
      simp only [exec, execBrRead] at h
      split at h
      · next e he =>
        cases h
        cases hr
        exact .inr ⟨e, readField_raises _ _ e he, rfl⟩
      · cases h
        cases hr
        exact .inl ⟨.inl rfl, rfl⟩

/-- An instruction's meaning is the same on the request cut down to the fields it reads (30_encoding.md R65). -/
theorem exec_operandsOf (i : Instr) (s : State) : exec i { s with req := s.req.operandsOf i } = exec i s := by
  cases i <;> rfl

/-- Settles O49: the read fields by `exec_operandsOf`, the written ones by what an instruction can answer. -/
theorem operationsReadAndWriteOnlyTheirFields : Obligations.OperationsReadAndWriteOnlyTheirFields :=
  fun i s => ⟨exec_operandsOf i s, fun _ _ h hr => (exec_isAnswer h hr).resultsOf_eq⟩

end Sys2Proof.Machine
end

section
/-! The command words that decode, the request an event brings into service, and IllegalCommand (30_encoding.md R64;
60_exceptions.md R206). -/

namespace Sys2Proof.Machine

/-! ### Legal command words -/

theorem CmdWord.op_eq (c : CmdWord) : CmdWord.op c = c.toNat / 256 := by
  simp only [CmdWord.op, BitVec.extractLsb_toNat, Nat.shiftRight_eq_div_pow]
  omega

theorem CmdWord.rsv_eq (c : CmdWord) : CmdWord.rsv c = decide (c.toNat / 128 % 2 = 1) := by
  rw [CmdWord.rsv, BitVec.getLsbD, Nat.testBit_eq_decide_div_mod_eq]

theorem CmdWord.width_eq (c : CmdWord) : CmdWord.width c = c.toNat % 128 := by
  simp [CmdWord.width]

theorem isOk_decodeNoWidth (w : Nat) (i : Instr) : (decodeNoWidth w i).isOk = decide (w = 0) := by
  by_cases h : w = 0 <;> simp [decodeNoWidth, h, Except.isOk, Except.toBool]

theorem isOk_decodeWidth (w : Nat) (i : Instr) : (decodeWidth w i).isOk = (decide (1 ≤ w) && decide (w ≤ 64)) := by
  change _ = legalWidth w
  cases h : legalWidth w <;> simp [decodeWidth, h, Except.isOk, Except.toBool]

/-- The opcode map accepts an opcode with a width in its range, or one without a width (30_encoding.md R64 (a), (c),
(d)). -/
theorem isOk_decodeOp (op w : Nat) :
    (decodeOp op w).isOk = ((decide (op ∈ [0x02, 0x12]) && decide (1 ≤ w) && decide (w ≤ 64))
      || (decide (op ∈ [0x01, 0x03, 0x11, 0x21, 0x22, 0x23, 0x31, 0x32, 0x41, 0x42]) && decide (w = 0))) := by
  unfold decodeOp
  split
  case h_2 | h_5 => simp [isOk_decodeWidth]
  case h_13 => simp_all [Except.isOk, Except.toBool]
  all_goals simp [isOk_decodeNoWidth]

/-- A command word decodes exactly when `legal(cmd)` accepts it (30_encoding.md R64). -/
theorem isOk_decodeCmd (c : CmdWord) : (decodeCmd c).isOk = legalCommand c := by
  unfold decodeCmd legalCommand
  rw [CmdWord.rsv_eq, CmdWord.op_eq, CmdWord.width_eq]
  rcases Nat.mod_two_eq_zero_or_one (c.toNat / 128) with h | h
  · simp [h, isOk_decodeOp]
  · simp [h, Except.isOk, Except.toBool]

/-- The type operand selects an instruction, but makes no command word illegal (41_splice_command.md R130, R131). -/
theorem Request.isOk_instr (r : Request) : r.instr.isOk = legalCommand r.cmd := by
  rw [← isOk_decodeCmd, Request.instr, decodeRequest]
  split
  · next h =>
    rw [h]
    split <;> rfl
  · rfl

/-! ### Serving a request -/

theorem serve_of_illegal {s : State} (h : legalCommand s.req.cmd = false) : serve s = .next s.raiseIllegal := by
  rw [← Request.isOk_instr] at h
  unfold serve
  split
  · rfl
  · next e => simp [e, Except.isOk, Except.toBool] at h

theorem serve_of_legal {s : State} (h : legalCommand s.req.cmd = true) : ∃ i, serve s = exec i s := by
  rw [← Request.isOk_instr] at h
  unfold serve
  split
  · next e => simp [e, Except.isOk, Except.toBool] at h
  · exact ⟨_, rfl⟩

/-- A step on a request to `k` serves it with `k` in focus, its record in service and the event taken from the port. -/
theorem step_request {s : State} {k : Nat} {r : Request} {rest : List HostEvent} {x : Instance}
    (hp : s.port = .request k r :: rest) (hx : s.insts[k]? = some x) :
    ∃ u : State, step s = serve u ∧ u.req = r ∧ u.inst = x ∧ u.index = k ∧ u.insts = s.insts ∧
      u.params = s.params ∧ u.port = rest := by
  have hk : k < s.popPort.insts.length := (List.getElem?_eq_some_iff.1 hx).1
  obtain ⟨t, ht⟩ := State.focus_of_lt hk
  obtain ⟨-, hinst, hinsts, hindex, -, -, hparams, -, hport⟩ := State.focus_some ht
  refine ⟨t.accept r, ?_, rfl, ?_, hindex, hinsts, hparams, ?_⟩
  · simp [step, hp, ht]
  · exact Option.some.inj (hinst.symm.trans hx)
  · simp [hport, hp]

/-- What an instruction leaves in focus stands at the index it was served at. -/
theorem exec_inst_at_index {i : Instr} {s t : State} (h : exec i s = .next t) : t.insts[s.index]? = some t.inst := by
  obtain ⟨p, d, r, rfl⟩ := exec_inv h
  simp [State.insts, State.index]

/-- Settles O4: an illegal word is answered by `State.raiseIllegal`, and a legal one runs an instruction, which never
answers IllegalCommand. -/
theorem illegalCommandExactlyForIllegalWords : Obligations.IllegalCommandExactlyForIllegalWords := by
  intro s k r rest x hp hx
  obtain ⟨u, hstep, rfl, rfl, rfl, hinsts, hparams, hport⟩ := step_request hp hx
  constructor
  · intro hl
    refine ⟨u.raiseIllegal, hstep.trans (serve_of_illegal hl), hparams, hport, rfl, ?_⟩
    rw [← hinsts]
    exact u.insts_done ..
  · intro hl t y a ht hy ha
    obtain ⟨i, hi⟩ := serve_of_legal hl
    have hexec : exec i u = .next t := by rw [← hi, ← hstep, ht]
    obtain rfl : t.inst = y := Option.some.inj ((exec_inst_at_index hexec).symm.trans hy)
    exact (exec_isAnswer hexec ha).status_ne_illegalCommand

end Sys2Proof.Machine
end

section
/-! The packer and the reader by position, and what the requests of 40_bitpacker.md R101 to R105 do. -/

namespace Sys2Proof.Machine

/-! ### The command word as a number -/

/-- The opcode is the high byte of a command word and the width its low seven bits (30_encoding.md R60). -/
theorem cmdWord_eq_ofNat {op w : Nat} (hop : op < 2 ^ 8) (hw : w < 2 ^ 7) :
    cmdWord op w = BitVec.ofNat 16 (256 * op + w) := by
  have hor : op * 2 ^ 8 ||| w = op * 2 ^ 8 + w := by
    rw [← Nat.shiftLeft_eq, Nat.shiftLeft_add_eq_or_of_lt (by omega)]
  apply BitVec.eq_of_toNat_eq
  simp only [cmdWord, BitVec.toNat_append, BitVec.toNat_ofNat, Nat.shiftLeft_eq, Nat.mod_eq_of_lt hop,
    Nat.mod_eq_of_lt hw]
  rw [Nat.zero_mod, Nat.or_zero, mul_assoc, ← pow_add, hor, Nat.mod_eq_of_lt (by omega)]
  omega

/-! ### Bits by position -/

/-- `Bits(v, w)` position by position (00_scope.md R8). -/
theorem bitsOf_eq_bitsByPosition (v w : Nat) : bitsOf v w = bitsByPosition v w := by
  apply List.ext_getElem?
  intro j
  by_cases h : j < w
  · rw [bitsOf_getElem? v w j h]
    simp [bitsByPosition, h]
  · rw [List.getElem?_eq_none (by simp; omega), List.getElem?_eq_none (by simp [bitsByPosition]; omega)]

/-- Bit `n` of a byte string is bit `n` of its bits, each byte's bit 7 first (20_memory.md R41). -/
theorem unpack_getD (b : Bytes) (n : Nat) : (unpack b).getD n false = bitAt b n := by
  induction b generalizing n with
  | nil => simp [bitAt]
  | cons x b ih =>
    rw [unpack_cons]
    by_cases h : n < 8
    · rw [List.getD_append _ _ _ _ (by simpa using h), List.getD_eq_getElem?_getD, bitsOf_getElem? _ _ _ h]
      simp [bitAt, Nat.div_eq_of_lt h, Nat.mod_eq_of_lt h, BitVec.getMsbD, BitVec.getLsbD, h]
    · obtain ⟨m, rfl⟩ := Nat.exists_eq_add_of_le' (Nat.le_of_not_lt h)
      rw [List.getD_append_right _ _ _ _ (by simp), bitsOf_length, Nat.add_sub_cancel, ih]
      simp [bitAt]

/-- Past the end of a bit string stand only its padding zeros. -/
theorem padded_getD (s : Bits) (n : Nat) : (padded s).getD n false = s.getD n false := by
  rcases Nat.lt_or_ge n s.length with h | h
  · rw [padded, List.getD_append _ _ _ _ h]
  · rw [padded, List.getD_append_right _ _ _ _ h, List.getD_eq_default _ _ h,
      List.getD_eq_getElem?_getD, List.getElem?_getD_replicate_default_eq]

/-- Bit `n` of the byte image is bit `n` of the bit string, and zero past its end (00_scope.md R8). -/
theorem bitAt_pack (s : Bits) (n : Nat) : bitAt (pack s) n = s.getD n false := by
  rw [← unpack_getD, unpack_pack, padded_getD]

section
variable {d : Reader} {w : Nat}

/-- Inside the limit of a well-formed reader all `w` bits stand at the cursor (10_state.md R24). -/
theorem Reader.bitsAt_length (hd : d.wf = true) (hw : d.cur + w ≤ d.limit) : (d.bitsAt w).length = w := by
  obtain ⟨-, hlimit⟩ := d.wf_iff.1 hd
  simp only [Reader.bitsAt, List.length_take, List.length_drop, unpack_length]
  omega

/-- The bits at the cursor are those of the buffer from there on (40_bitpacker.md R105). -/
theorem Reader.bitsAt_getElem {j : Nat} (hj : j < (d.bitsAt w).length) :
    (d.bitsAt w)[j] = bitAt d.buf (d.cur + j) := by
  have hlen : d.cur + j < (unpack d.buf).length := by
    simp only [Reader.bitsAt, List.length_take, List.length_drop] at hj
    omega
  rw [← unpack_getD, List.getD_eq_getElem _ _ hlen]
  simp [Reader.bitsAt]

end

/-! ### Capacity -/

theorem admits_iff {cap : Option Nat} {n : Nat} : admits cap n = true ↔ ∀ c, cap = some c → n ≤ c := by
  cases cap <;> simp

theorem admits_eq_false {c n : Nat} (h : c < n) : admits (some c) n = false := by
  simpa [admits] using h

/-! ### What each request does -/

section
variable {s : State} {w c : Nat}

/-- BP.WRITE appends a value that fits, within the capacity (40_bitpacker.md R102). -/
theorem exec_bpWrite_of_admits (hv : s.req.value < 2 ^ w)
    (hc : admits s.params.pkCapacityBits (s.inst.pk.n + w) = true) :
    exec (.bpWrite w) s = .next (s.done (s.inst.pk.append s.req.value w) s.inst.rd Response.ok) := by
  simp [exec, execBpWrite, appendField_ok _ hv, hc, State.respond_eq_done, State.done]

/-- BP.WRITE raises FieldOverflowError for a value that does not fit, whatever the capacity (40_bitpacker.md R102). -/
theorem exec_bpWrite_of_overflow (hv : 2 ^ w ≤ s.req.value) :
    exec (.bpWrite w) s = .next (s.answered (Error.fieldOverflow w s.req.value).response) := by
  simp only [exec, execBpWrite, appendField_error _ hv, State.raise_eq_answered]

/-- BP.WRITE past the capacity is refused (40_bitpacker.md R111). -/
theorem exec_bpWrite_of_capacity (hv : s.req.value < 2 ^ w) (hcap : s.params.pkCapacityBits = some c)
    (hc : c < s.inst.pk.n + w) :
    exec (.bpWrite w) s = .refused (.capacityExceeded (s.inst.pk.n + w) c) := by
  simp [exec, execBpWrite, appendField_ok _ hv, hcap, admits_eq_false hc, refuseCapacity]

/-- BR.LOAD replaces the reader, within the capacity (40_bitpacker.md R104). -/
theorem exec_brLoad_of_admits (hc : admits s.params.rdCapacityBytes s.req.bytes.length = true) :
    exec .brLoad s = .next (s.done s.inst.pk (Reader.new s.req.bytes) Response.ok) := by
  simp only [exec, execBrLoad, hc, if_true]
  rfl

/-- BR.LOAD past the capacity is refused (40_bitpacker.md R111). -/
theorem exec_brLoad_of_capacity (hcap : s.params.rdCapacityBytes = some c) (hc : c < s.req.bytes.length) :
    exec .brLoad s = .refused (.capacityExceeded s.req.bytes.length c) := by
  simp [exec, execBrLoad, hcap, admits_eq_false hc, refuseCapacity]

/-- BR.READ inside the limit returns the value of the bits at the cursor and moves past them (40_bitpacker.md R105). -/
theorem exec_brRead_of_le (hw : s.inst.rd.cur + w ≤ s.inst.rd.limit) :
    exec (.brRead w) s
      = .next (s.done s.inst.pk (s.inst.rd.advance w) (Response.okValue (val (s.inst.rd.bitsAt w)))) := by
  rcases readField_cases s.inst.rd w with ⟨-, e⟩ | ⟨hlt, -⟩
  · simp only [exec, execBrRead, e]
    rfl
  · omega

/-- BR.READ past the limit raises TruncatedInputError at the cursor's byte (40_bitpacker.md R105). -/
theorem exec_brRead_of_lt (hw : s.inst.rd.limit < s.inst.rd.cur + w) :
    exec (.brRead w) s = .next (s.answered (Error.truncatedInput (s.inst.rd.cur / 8)).response) := by
  rcases readField_cases s.inst.rd w with ⟨hle, -⟩ | ⟨-, e⟩
  · omega
  · simp only [exec, execBrRead, e, State.raise_eq_answered]

end

/-! ### The obligations -/

/-- Settles O9: one lemma per outcome, with the appended bits by position. -/
theorem bpWriteAppendsMostSignificantBitFirst : Obligations.BpWriteAppendsMostSignificantBitFirst := by
  intro s w _ hw
  refine ⟨congrArg Code.cmd (cmdWord_eq_ofNat (by decide) (by omega)), fun hv hc => ?_, exec_bpWrite_of_overflow,
    fun c => exec_bpWrite_of_capacity⟩
  rw [exec_bpWrite_of_admits hv (admits_iff.2 hc), Packer.append, bitsOf_eq_bitsByPosition]

/-- Settles O10: the image is `Packer.finish`, whose bits `bitAt_pack` gives. -/
theorem bpFinishReturnsTheZeroPaddedImage : Obligations.BpFinishReturnsTheZeroPaddedImage :=
  ⟨rfl, fun s => ⟨s.inst.pk.finish, rfl, pack_length _, bitAt_pack _⟩⟩

/-- Settles O12: the value is `val` of the bits at the cursor, of which the reader's invariant says there are `w`. -/
theorem brReadTakesTheBitsAtTheCursor : Obligations.BrReadTakesTheBitsAtTheCursor := by
  intro s w _ hw
  refine ⟨congrArg Code.cmd (cmdWord_eq_ofNat (by decide) (by omega)), fun hd hl => ?_, exec_brRead_of_lt⟩
  have hlen := Reader.bitsAt_length hd hl
  refine ⟨_, exec_brRead_of_le hl, ?_, fun j hj => ?_⟩
  · simpa only [hlen] using val_lt (s.inst.rd.bitsAt w)
  · have hj' : j < (s.inst.rd.bitsAt w).length := by rwa [hlen]
    have hbit := testBit_val (s.inst.rd.bitsAt w) j hj'
    rwa [hlen, Reader.bitsAt_getElem] at hbit

/-- Settles O8: BP.INIT is one update of the packer with the answer OK. -/
theorem bpInitEmptiesThePacker : Obligations.BpInitEmptiesThePacker := ⟨rfl, fun _ => rfl⟩

/-- Settles O11: one lemma on each side of the capacity. -/
theorem brLoadReplacesTheReader : Obligations.BrLoadReplacesTheReader :=
  ⟨rfl, fun _ => ⟨fun hc => exec_brLoad_of_admits (admits_iff.2 hc), fun _ => exec_brLoad_of_capacity⟩⟩

end Sys2Proof.Machine
end

section
/-! What the encoders of a command body answer (41_splice_command.md R120 to R125): a body is one list of fields, whose bits
are those of the byte view, and whose first field that does not fit is the one reported (60_exceptions.md R208). -/

namespace Sys2Proof.Machine

/-! ### Lists of fields -/

/-- Appending two lists of fields in turn. -/
theorem appendFields_append (p : Packer) (fs gs : List (Nat × Nat)) :
    appendFields p (fs ++ gs) = appendFields p fs >>= fun q => appendFields q gs := by
  induction fs generalizing p with
  | nil => rfl
  | cons f fs ih =>
    rcases appendField_cases p f.1 f.2 with ⟨-, e⟩ | ⟨-, e⟩
    · simp only [List.cons_append, appendFields, e]
      exact ih _
    · simp only [List.cons_append, appendFields, e]
      rfl

/-- The first field, value and width, that does not fit. -/
def firstMisfit (fs : List (Nat × Nat)) : Option (Nat × Nat) := fs.find? fun f => !fits f.1 f.2

theorem firstMisfit_eq_none {fs : List (Nat × Nat)} : firstMisfit fs = none ↔ ∀ f ∈ fs, f.1 < 2 ^ f.2 := by
  simp [firstMisfit]

@[simp] theorem firstMisfit_nil : firstMisfit [] = none := rfl

@[simp] theorem firstMisfit_cons (v w : Nat) (fs : List (Nat × Nat)) :
    firstMisfit ((v, w) :: fs) = if 2 ^ w ≤ v then some (v, w) else firstMisfit fs := by
  rw [firstMisfit, List.find?_cons]
  split <;> simp_all [firstMisfit]

/-- The first field that does not fit is the one reported (60_exceptions.md R208). -/
theorem appendFields_of_firstMisfit {fs : List (Nat × Nat)} {v w : Nat} (p : Packer)
    (h : firstMisfit fs = some (v, w)) : appendFields p fs = .error (.fieldOverflow w v) := by
  obtain ⟨hv, l, r, rfl, hl⟩ := List.find?_eq_some_iff_append.1 h
  exact appendFields_error p (by simpa using hl) (by simpa using hv)

/-! ### The fields of a body -/

/-- A flag, six reserved ones and a 33-bit tick count: a break_duration, and with the flag set a splice_time
(30_encoding.md R75, R76). -/
def ticksFields (flag : Bool) (ticks : Nat) : List (Nat × Nat) :=
  [(flagBit flag, 1), (Config.reserved6, 6), (ticks, Config.ptsBits)]

/-- The fields of a splice_insert body, in write order (41_splice_command.md R122). -/
def insertFields (i : SpliceInsertIn) : List (Nat × Nat) :=
  insertHeaderFields i ++ (if i.immediate then [] else ticksFields true i.spliceTimePts)
    ++ (if i.durationFlag then ticksFields i.autoReturn i.durationTicks else [])

/-- The fields of a command's body, in write order (41_splice_command.md R122, R123). -/
def SpliceCommandIn.bodyFields : SpliceCommandIn → List (Nat × Nat)
  | .insert i => insertFields i
  | .timeSignal pts => ticksFields true pts

theorem encodeSpliceTime_eq_appendFields (p : Packer) (pts : Nat) :
    encodeSpliceTime p pts = appendFields p (ticksFields true pts) := rfl

theorem encodeBreakDuration_eq_appendFields (p : Packer) (autoReturn : Bool) (d : Nat) :
    encodeBreakDuration p autoReturn d = appendFields p (ticksFields autoReturn d) := rfl

theorem encodeInsertBody_eq_appendFields (i : SpliceInsertIn) :
    encodeInsertBody i = Packer.finish <$> appendFields Packer.empty (insertFields i) := by
  simp only [encodeInsertBody, insertFields, appendFields_append, bind_assoc, map_bind]
  cases i.immediate <;> cases i.durationFlag <;>
    simp [encodeSpliceTime_eq_appendFields, encodeBreakDuration_eq_appendFields]

/-- A body is the image of its fields. -/
theorem SpliceCommandIn.encodeBody_eq_appendFields (c : SpliceCommandIn) :
    c.encodeBody = Packer.finish <$> appendFields Packer.empty c.bodyFields := by
  cases c with
  | insert i => exact encodeInsertBody_eq_appendFields i
  | timeSignal pts => rfl

/-! ### The first field that overflows -/

@[simp] theorem not_two_le_flagBit (b : Bool) : ¬ 2 ≤ flagBit b := by cases b <;> decide

/-- The overflow of a command is the first of its fields that does not fit (60_exceptions.md R208). -/
theorem SpliceCommandIn.firstOverflow_eq_firstMisfit (c : SpliceCommandIn) :
    c.firstOverflow = (firstMisfit c.bodyFields).map Prod.swap := by
  cases c with
  | insert i =>
    simp only [firstOverflow, SpliceInsertIn.firstOverflow, bodyFields, insertFields]
    cases i.immediate <;> cases i.durationFlag <;>
      simp [insertHeaderFields, ticksFields, apply_ite (Option.map Prod.swap), Config.programSplice, Config.reserved3,
        Config.reserved6, Config.ptsBits]
  | timeSignal pts =>
    simp [firstOverflow, bodyFields, ticksFields, apply_ite (Option.map Prod.swap), Config.reserved6, Config.ptsBits]

/-! ### The bits of the byte views -/

theorem unpack_be32 (v : Nat) : unpack (be32 v) = bitsOf v 32 := by
  have h : be32 v = beBytes 4 v := by simp [be32, beBytes]
  rw [h, unpack_beBytes]

/-- Byte 0 of a break_duration by its masks (30_encoding.md R76): the flag, six ones and bit 32. -/
theorem unpack_ticksByte : ∀ flag : Bool, ∀ top < 2,
    unpack [BitVec.ofNat 8 (flag.toNat * 0x80 + 0x7E + top)]
      = bitsOf (flagBit flag) 1 ++ bitsOf Config.reserved6 6 ++ bitsOf top 1 := by
  decide

/-- The flags byte by its masks (30_encoding.md R74). -/
theorem unpack_flagsByte : ∀ cancel out duration immediate : Bool,
    unpack [BitVec.ofNat 8 (cancel.toNat * 0x80 + out.toNat * 0x40 + 0x20 + duration.toNat * 0x10
        + immediate.toNat * 0x08 + 0x07)]
      = fieldBits [(flagBit cancel, 1), (flagBit out, 1), (Config.programSplice, 1), (flagBit duration, 1),
        (flagBit immediate, 1), (Config.reserved3, 3)] := by
  decide

theorem unpack_breakDurationView (flag : Bool) {ticks : Nat} (h : ticks < 2 ^ 33) :
    unpack (breakDurationView flag ticks) = fieldBits (ticksFields flag ticks) := by
  have hsplit : bitsOf ticks Config.ptsBits = bitsOf (ticks / 2 ^ 32) 1 ++ bitsOf ticks 32 := bitsOf_add ticks 1 32
  rw [breakDurationView, ← List.singleton_append, unpack_append, unpack_ticksByte flag _ (by omega), unpack_be32]
  simp [ticksFields, hsplit]

/-- A splice_time is a break_duration with the flag set (30_encoding.md R75, R76). -/
theorem unpack_spliceTimeView {pts : Nat} (h : pts < 2 ^ 33) :
    unpack (spliceTimeView pts) = fieldBits (ticksFields true pts) :=
  unpack_breakDurationView true h

theorem unpack_insertHeaderView (i : SpliceInsertIn) :
    unpack (be32 i.eventId ++ [flagsByteView i]) = fieldBits (insertHeaderFields i) := by
  rw [unpack_append, unpack_be32, flagsByteView, unpack_flagsByte]
  rfl

theorem mem_ticksFields (flag : Bool) (ticks : Nat) : (ticks, 33) ∈ ticksFields flag ticks := by
  simp [ticksFields, Config.ptsBits]

/-- The byte view of a body has the bits of its fields, where they fit. -/
theorem SpliceCommandIn.unpack_bodyView (c : SpliceCommandIn) (h : ∀ f ∈ c.bodyFields, f.1 < 2 ^ f.2) :
    unpack c.bodyView = fieldBits c.bodyFields := by
  cases c with
  | timeSignal pts => exact unpack_spliceTimeView (h (pts, 33) (mem_ticksFields true pts))
  | insert i =>
    simp only [bodyView, insertBodyView, bodyFields, insertFields, unpack_append _ (ite _ _ _), fieldBits_append,
      unpack_insertHeaderView]
    congr 2
    · split
      · rfl
      · next hi =>
        exact unpack_spliceTimeView (h (i.spliceTimePts, 33) (by simp [bodyFields, insertFields, hi, mem_ticksFields]))
    · split
      · next hd =>
        exact unpack_breakDurationView _ (h (i.durationTicks, 33) (by simp [bodyFields, insertFields, hd, mem_ticksFields]))
      · rfl

/-! ### What the encoders answer -/

section
variable {c : SpliceCommandIn}

/-- Where every field fits, a body is its byte view (41_splice_command.md R122, R123). -/
theorem SpliceCommandIn.encodeBody_of_fits (h : c.firstOverflow = none) : c.encodeBody = .ok c.bodyView := by
  rw [firstOverflow_eq_firstMisfit, Option.map_eq_none_iff, firstMisfit_eq_none] at h
  rw [encodeBody_eq_appendFields, appendFields_ok _ h, ← unpack_bodyView c h]
  exact congrArg Except.ok (pack_unpack c.bodyView)

/-- The first field that does not fit is the one reported (60_exceptions.md R208). -/
theorem SpliceCommandIn.encodeBody_of_overflow {w v : Nat} (h : c.firstOverflow = some (w, v)) :
    c.encodeBody = .error (.fieldOverflow w v) := by
  rw [firstOverflow_eq_firstMisfit, Option.map_eq_some_iff] at h
  obtain ⟨⟨v', w'⟩, hf, he⟩ := h
  cases he
  rw [encodeBody_eq_appendFields, appendFields_of_firstMisfit _ hf]
  rfl

/-- An instruction that answers with the body of `c` returns its byte view, or the first overflow. -/
theorem exec_of_encodeBody {i : Instr} {s : State}
    (h : compositeResponse i s.req = some (.ofExcept (c.encodeBody.map .okBytes))) :
    (c.firstOverflow = none → exec i s = .next (s.answered (Response.okBytes c.bodyView))) ∧
      ∀ w v, c.firstOverflow = some (w, v) → exec i s = .next (s.answered (Error.fieldOverflow w v).response) := by
  refine ⟨fun hf => ?_, fun w v hf => ?_⟩
  · rw [c.encodeBody_of_fits hf] at h
    exact exec_of_compositeResponse h
  · rw [c.encodeBody_of_overflow hf] at h
    exact exec_of_compositeResponse h

end

/-- Settles O14: the body of the command `insert`, whose overflow is the record's. -/
theorem scEncInsertReturnsTheBody : Obligations.ScEncInsertReturnsTheBody :=
  ⟨rfl, fun s => exec_of_encodeBody (c := .insert s.req.insert) rfl⟩

/-- Settles O15: the body of the command `timeSignal`, whose one overflow is its tick count. -/
theorem scEncTsigReturnsTheBody : Obligations.ScEncTsigReturnsTheBody := by
  refine ⟨rfl, fun s => ?_⟩
  obtain ⟨hfits, hoverflow⟩ := exec_of_encodeBody (i := .scEncTsig) (s := s) (c := .timeSignal s.req.tsigPts) rfl
  exact ⟨fun h => hfits (if_neg h.not_ge), fun h => hoverflow _ _ (if_pos h)⟩

end Sys2Proof.Machine
end

section
/-! The conversion between seconds and ticks (41_splice_command.md R132, R133): rounding toward zero is the floor above zero
and the ceiling below it. -/

namespace Sys2Proof.Machine

theorem secondsToTicks_of_nonneg {s : Rat} (h : 0 ≤ s) : secondsToTicks s = ⌊s * 90000⌋ := by
  have hnum : 0 ≤ (s * 90000).num := Rat.num_nonneg.2 (by positivity)
  rw [Rat.floor_def', ← Int.tdiv_eq_ediv_of_nonneg hnum]
  rfl

theorem secondsToTicks_neg (s : Rat) : secondsToTicks (-s) = -secondsToTicks s := by
  simp [secondsToTicks, Int.neg_tdiv]

theorem secondsToTicks_of_nonpos {s : Rat} (h : s ≤ 0) : secondsToTicks s = ⌈s * 90000⌉ := by
  have := secondsToTicks_of_nonneg (neg_nonneg.2 h)
  rwa [secondsToTicks_neg, neg_mul, Int.floor_neg, neg_inj] at this

/-- `TicksToSeconds` is exact (41_splice_command.md R133). -/
theorem ticksToSeconds_mul (t : Int) : ticksToSeconds t * 90000 = t :=
  div_mul_cancel₀ _ (by norm_num [Config.ticksPerSecond])

theorem ticksToSeconds_nonneg {t : Int} (h : 0 ≤ t) : 0 ≤ ticksToSeconds t :=
  div_nonneg (Int.cast_nonneg h) (Nat.cast_nonneg _)

/-- Settles O55: the bounds of the floor for `0 ≤ s`, and of the ceiling for `s ≤ 0`. -/
theorem secondsToTicksTruncatesTowardZero : Obligations.SecondsToTicksTruncatesTowardZero := by
  intro s
  constructor
  · intro h
    rw [secondsToTicks_of_nonneg h]
    exact ⟨Int.floor_nonneg.2 (by positivity), Int.floor_le _, Int.lt_floor_add_one _⟩
  · intro h
    rw [secondsToTicks_of_nonpos h]
    exact ⟨Int.ceil_nonpos.2 (by linarith), Int.le_ceil _, sub_lt_iff_lt_add.2 (Int.ceil_lt_add_one _)⟩

/-- Settles O56: a nonnegative time's ticks are the floor of `s · 90000`, and for a tick count that product is the count. -/
theorem ticksAndSecondsConvertBack : Obligations.TicksAndSecondsConvertBack := by
  refine ⟨fun t => ⟨ticksToSeconds_mul t, ?_⟩, fun s h => ?_⟩
  · rw [secondsToTicks_of_nonneg (ticksToSeconds_nonneg t.cast_nonneg), ticksToSeconds_mul, Int.floor_intCast]
  · rw [secondsToTicks_of_nonneg h]
    rfl

end Sys2Proof.Machine
end

section
/-! What SA.DECODE reads before the body (43_section_assembler.md R166 to R168): the header fields by their place, and
the bound that `section_length` sets. -/

namespace Sys2Proof.Machine

/-! ### Values of bytes -/

/-- The value of the low bits of a bit string. -/
theorem val_drop (s : Bits) (n : Nat) : val (s.drop n) = val s % 2 ^ (s.length - n) := by
  have hsplit := val_append (s.take n) (s.drop n)
  have hlt := val_lt (s.drop n)
  rw [List.take_append_drop] at hsplit
  rw [hsplit, ← List.length_drop, Nat.mul_add_mod_self_right, Nat.mod_eq_of_lt hlt]

/-- The bits of two bytes are a 16-bit number, most significant byte first (20_memory.md R42). -/
theorem val_unpack_pair (x y : Byte) : val (unpack [x, y]) = 256 * x.toNat + y.toNat := by
  simp [val_append, val_bitsOf _ _ x.isLt, val_bitsOf _ _ y.isLt, Nat.mul_comm]

section
variable {r : Reader} {k : Nat}

/-- The bits at byte `k` are those of the bytes from there on. -/
theorem Reader.bitsAt_bytes {n : Nat} (hc : r.cur = 8 * k) :
    r.bitsAt (8 * n) = unpack ((r.buf.drop k).take n) := by
  rw [Reader.bitsAt, hc, drop_unpack, take_unpack]

/-- Eight bits read at byte `k` are that byte (40_bitpacker.md R105). -/
theorem Reader.val_bitsAt_byte (hc : r.cur = 8 * k) (hk : k < r.buf.length) :
    val (r.bitsAt 8) = (r.buf.getD k 0#8).toNat := by
  have hbyte : (r.buf.drop k).take 1 = [r.buf.getD k 0#8] := by
    rw [List.drop_eq_getElem_cons hk, List.getD_eq_getElem _ _ hk]
    rfl
  rw [Reader.bitsAt_bytes (n := 1) hc, hbyte, unpack_cons, unpack_nil, List.append_nil, val_bitsOf _ _ (BitVec.isLt _)]

/-- Twelve bits read at the low half of byte `k` are that half and the byte after it (30_encoding.md R70). -/
theorem Reader.val_bitsAt_length12 (hc : r.cur = 8 * k + 4) (hk : k + 1 < r.buf.length) :
    val (r.bitsAt 12) = (r.buf.getD k 0#8).toNat % 16 * 256 + (r.buf.getD (k + 1) 0#8).toNat := by
  have hbytes : (r.buf.drop k).take 2 = [r.buf.getD k 0#8, r.buf.getD (k + 1) 0#8] := by
    rw [List.drop_eq_getElem_cons (Nat.lt_of_succ_lt hk), List.drop_eq_getElem_cons hk,
      List.getD_eq_getElem _ _ (Nat.lt_of_succ_lt hk), List.getD_eq_getElem _ _ hk]
    rfl
  have hbits : r.bitsAt 12 = (unpack [r.buf.getD k 0#8, r.buf.getD (k + 1) 0#8]).drop 4 := by
    rw [Reader.bitsAt, hc, ← List.drop_drop, drop_unpack, ← hbytes, ← take_unpack, List.drop_take]
  have hlow : (r.buf.getD (k + 1) 0#8).toNat < 256 := BitVec.isLt _
  rw [hbits, val_drop, val_unpack_pair, unpack_length]
  simp only [List.length_cons, List.length_nil]
  omega

end

/-! ### The header -/

/-- A field that ends inside the limit is read, and the parse goes on past it (40_bitpacker.md R107). -/
theorem readField_bind_of_le {α : Type} {b : Bytes} {cur limit w : Nat} (f : Nat × Reader → Except Error α)
    (h : cur + w ≤ limit) :
    readField { buf := b, cur := cur, limit := limit } w >>= f
      = f (val (({ buf := b, cur := cur, limit := limit } : Reader).bitsAt w),
          { buf := b, cur := cur + w, limit := limit }) := by
  rcases readField_cases { buf := b, cur := cur, limit := limit } w with ⟨-, e⟩ | ⟨hlt, -⟩
  · rw [e]
    rfl
  · exact absurd h hlt.not_ge

/-- The reader SA.DECODE hands to `DecodeBody`: past the 14 header bytes, with the bound in force
(43_section_assembler.md R167, R168). -/
def bodyReader (b : Bytes) : Reader := { buf := b, cur := 8 * 14, limit := 8 * sectionBound b }

/-- The bound once `section_length` can be read (43_section_assembler.md R167). -/
theorem sectionBound_eq {b : Bytes} (h : 3 ≤ b.length) :
    sectionBound b = min b.length (3 + ((b.getD 1 0#8).toNat % 16 * 256 + (b.getD 2 0#8).toNat)) :=
  if_neg h.not_gt

theorem sectionBound_le_length (b : Bytes) : sectionBound b ≤ b.length := by
  unfold sectionBound
  split
  · exact le_rfl
  · exact min_le_left _ _

/-- Where the header ends inside the bound, the reader bounded by `section_length` stands at byte 3 with that bound. -/
theorem bound_sectionLength {b : Bytes} (hb : 14 ≤ sectionBound b) :
    ({ buf := b, cur := 24, limit := 8 * b.length } : Reader).bound
        (3 + val (({ buf := b, cur := 12, limit := 8 * b.length } : Reader).bitsAt 12))
      = { buf := b, cur := 24, limit := 8 * sectionBound b } := by
  have hlen := hb.trans (sectionBound_le_length b)
  rw [Reader.val_bitsAt_length12 (k := 1) rfl (show 1 + 1 < b.length by omega), sectionBound_eq (by omega),
    ← Nat.mul_min_mul_left]
  rfl

/-- With the whole header inside the bound, an error of `DecodeBody` ends SA.DECODE. -/
theorem decodeSection_of_decodeBody_error {b : Bytes} {e : Error} (hb : 14 ≤ sectionBound b)
    (he : decodeBody (b.getD 13 0#8).toNat (bodyReader b) = .error e) : decodeSection b = .error e := by
  have hlen := hb.trans (sectionBound_le_length b)
  have htype :
      val (({ buf := b, cur := 104, limit := 8 * sectionBound b } : Reader).bitsAt 8) = (b.getD 13 0#8).toNat :=
    Reader.val_bitsAt_byte (k := 13) rfl (show 13 < b.length by omega)
  have hbody : decodeBody (b.getD 13 0#8).toNat { buf := b, cur := 112, limit := 8 * sectionBound b } = .error e := he
  simp (disch := omega) only [decodeSection, Reader.new, readField_bind_of_le, Config.ptsBits, Nat.reduceAdd,
    bound_sectionLength hb, htype, hbody]
  rfl

/-- A type byte outside 0x05 and 0x06 has no body decoder (41_splice_command.md R130). -/
theorem decodeBody_of_unsupported {t : Nat} (h5 : t ≠ 0x05) (h6 : t ≠ 0x06) (r : Reader) :
    decodeBody t r = .error (.unsupportedCommandType t) :=
  (if_neg h5).trans (if_neg h6)

/-- SA.DECODE answers an error of the parse with it. -/
theorem exec_saDecode_of_error {s : State} {e : Error} (h : decodeSection s.req.bytes = .error e) :
    exec .saDecode s = .next (s.answered e.response) := by
  apply exec_of_compositeResponse
  rw [compositeResponse, h]
  rfl

/-- Settles O32: the header ends inside the bound, and `DecodeBody` raises the error before it reads a bit. -/
theorem saDecodeRejectsAnUnsupportedType : Obligations.SaDecodeRejectsAnUnsupportedType := by
  intro s hd rest hbytes hlen hbound h5 h6
  have hhd (n : Nat) (hn : n < 14) : s.req.bytes.getD n 0#8 = hd.getD n 0#8 := by
    rw [hbytes, List.getD_append _ _ _ _ (by omega)]
  have hin : 14 ≤ sectionBound s.req.bytes := by
    have hall : 14 ≤ s.req.bytes.length := by
      rw [hbytes, List.length_append]
      omega
    rw [sectionBound_eq (by omega), hhd 1 (by omega), hhd 2 (by omega)]
    exact le_min hall hbound
  rw [← hhd 13 (by omega)] at h5 h6 ⊢
  exact exec_saDecode_of_error (decodeSection_of_decodeBody_error hin (decodeBody_of_unsupported h5 h6 _))

end Sys2Proof.Machine
end

section
/-! The requests that fail: an error raised by a codec function, or the checksum mismatch of SA.DECODE, and nothing changed
but the response (60_exceptions.md R205, R209). -/

namespace Sys2Proof.Machine

/-! ### The responses of a failed request -/

/-- What a failed `i` answers: an error with no result field, or for SA.DECODE a section whose two checksums differ. -/
def Response.IsFailure (i : Instr) (r : Response) : Prop :=
  (∃ e : Error, r = e.response) ∨ i = .saDecode ∧ ∃ d, d.crcStored ≠ d.crcComputed ∧ r = Response.ofSection d

/-- ChecksumMismatchError is no error a computation raises: it is made of a parsed section alone (60_exceptions.md R205). -/
theorem Error.status_response_ne_checksumMismatchError (e : Error) : e.response.status ≠ .checksumMismatchError := by
  cases e <;> nofun

theorem Response.ofSection_status_of_ne {d : DecodedSection} (h : d.crcStored ≠ d.crcComputed) :
    (Response.ofSection d).status = .checksumMismatchError := by
  rw [ofSection_status, if_neg h]

/-- The payload of a mismatch is the two checksums of the section (43_section_assembler.md R170). -/
theorem Response.ofSection_info_of_ne {d : DecodedSection} (h : d.crcStored ≠ d.crcComputed) :
    (Response.ofSection d).info = .checksums d.crcStored d.crcComputed := by
  rw [ofSection, if_neg h]

theorem Response.ofSection_ok_or_isFailure (d : DecodedSection) :
    (Response.ofSection d).status = .ok ∨ (Response.ofSection d).IsFailure .saDecode := by
  by_cases h : d.crcStored = d.crcComputed
  · exact .inl (by rw [ofSection_status, if_pos h])
  · exact .inr (.inr ⟨rfl, d, h, rfl⟩)

/-- A computation's response is OK or a failure where that of each of its values is: its error is a failure. -/
theorem Response.ofExcept_ok_or_isFailure {α : Type} {i : Instr} {f : α → Response}
    (hf : ∀ a, (f a).status = .ok ∨ (f a).IsFailure i) (x : Except Error α) :
    (Response.ofExcept (x.map f)).status = .ok ∨ (Response.ofExcept (x.map f)).IsFailure i := by
  cases x with
  | ok a => exact hf a
  | error e => exact .inr (.inl ⟨e, rfl⟩)

/-- A composite request answers OK or fails. -/
theorem compositeResponse_ok_or_isFailure {i : Instr} {q : Request} {r : Response} (h : compositeResponse i q = some r) :
    r.status = .ok ∨ r.IsFailure i := by
  cases i with
  | bpInit | bpWrite | bpFinish | brLoad | brRead => cases h
  | crcCompute | crcVerify =>
    cases h
    exact .inl rfl
  | saDecode =>
    cases h
    exact Response.ofExcept_ok_or_isFailure Response.ofSection_ok_or_isFailure _
  | scEncInsert | scEncTsig | scDecode | saEncode | spliceInsert | timeSignal =>
    cases h
    exact Response.ofExcept_ok_or_isFailure (fun _ => .inl rfl) _

/-! ### What a failed request leaves behind -/

theorem exists_capacity_lt {cap : Option Nat} {n : Nat} (h : ¬admits cap n = true) : ∃ c, cap = some c ∧ c < n := by
  simpa [admits_iff] using h

/-- A request on a store that goes on answers OK, or raises an error and leaves both stores (40_bitpacker.md R101 to
R105). -/
theorem exec_ok_or_answered_of_not_isComposite {i : Instr} {s t : State} (hi : isComposite i = false)
    (h : exec i s = .next t) :
    (∃ p d r, r.status = .ok ∧ t = s.done p d r) ∨ ∃ e : Error, t = s.answered e.response := by
  cases i with
  | scEncInsert | scEncTsig | scDecode | crcCompute | crcVerify | saEncode | saDecode | spliceInsert | timeSignal =>
    cases hi
  | bpInit | bpFinish =>
    cases h
    exact .inl ⟨_, _, _, rfl, rfl⟩
  | bpWrite w =>
    rcases Nat.lt_or_ge s.req.value (2 ^ w) with hv | hv
    · by_cases ha : admits s.params.pkCapacityBits (s.inst.pk.n + w) = true
      · cases (exec_bpWrite_of_admits hv ha).symm.trans h
        exact .inl ⟨_, _, _, rfl, rfl⟩
      · obtain ⟨c, hcap, hc⟩ := exists_capacity_lt ha
        cases (exec_bpWrite_of_capacity hv hcap hc).symm.trans h
    · cases (exec_bpWrite_of_overflow hv).symm.trans h
      exact .inr ⟨_, rfl⟩
  | brLoad =>
    by_cases ha : admits s.params.rdCapacityBytes s.req.bytes.length = true
    · cases (exec_brLoad_of_admits ha).symm.trans h
      exact .inl ⟨_, _, _, rfl, rfl⟩
    · obtain ⟨c, hcap, hc⟩ := exists_capacity_lt ha
      cases (exec_brLoad_of_capacity hcap hc).symm.trans h
  | brRead w =>
    rcases Nat.lt_or_ge s.inst.rd.limit (s.inst.rd.cur + w) with hw | hw
    · cases (exec_brRead_of_lt hw).symm.trans h
      exact .inr ⟨_, rfl⟩
    · cases (exec_brRead_of_le hw).symm.trans h
      exact .inl ⟨_, _, _, rfl, rfl⟩

/-- A request that does not end with OK only answers, and its answer is a failure. -/
theorem exec_of_status_ne_ok {i : Instr} {s t : State} {r : Response} (h : exec i s = .next t)
    (hr : t.inst.resp = some r) (hs : r.status ≠ .ok) : t = s.answered r ∧ r.IsFailure i := by
  cases hc : compositeResponse i s.req with
  | some r' =>
    cases (exec_of_compositeResponse hc).symm.trans h
    cases hr
    exact ⟨rfl, (compositeResponse_ok_or_isFailure hc).resolve_left hs⟩
  | none =>
    have hi : isComposite i = false := by rw [← isSome_compositeResponse i s.req, hc, Option.isSome_none]
    obtain ⟨p, d, r', hok, rfl⟩ | ⟨e, rfl⟩ := exec_ok_or_answered_of_not_isComposite hi h
    · cases hr
      exact absurd hok hs
    · cases hr
      exact ⟨rfl, .inl ⟨e, rfl⟩⟩

/-- Settles O47: a failed request only answers, with an error's response or with a section whose checksums differ. -/
theorem failedRequestsChangeNothing : Obligations.FailedRequestsChangeNothing := by
  intro i s t r h hr hs
  obtain ⟨rfl, ⟨e, rfl⟩ | ⟨hi, d, hd, rfl⟩⟩ := exec_of_status_ne_ok h hr hs
  · exact ⟨rfl, rfl, fun _ => e.response_noResults, fun hm => absurd hm e.status_response_ne_checksumMismatchError⟩
  · exact ⟨rfl, rfl, fun hn => absurd (Response.ofSection_status_of_ne hd) hn,
      fun _ => ⟨hi, d, Response.ofSection_sect d, Response.ofSection_info_of_ne hd, hd⟩⟩

end Sys2Proof.Machine
end

section
/-! The two directions of the encoding (30_encoding.md R60 to R66, R72): a command word is its opcode, a reserved 0 and its
width, and the opcode map sends each pair it accepts to the one instruction encoded by it. -/

namespace Sys2Proof.Machine

/-! ### Command words and their fields -/

/-- A command word is put together from its own fields where its reserved bit is 0 (30_encoding.md R60, R63). -/
theorem cmdWord_op_width {c : CmdWord} (h : CmdWord.rsv c = false) : cmdWord (CmdWord.op c) (CmdWord.width c) = c := by
  have hrsv : c.toNat / 128 % 2 = 0 := by simpa [CmdWord.rsv_eq] using h
  have hlt : c.toNat < 65536 := c.isLt
  apply BitVec.eq_of_toNat_eq
  rw [CmdWord.op_eq, CmdWord.width_eq, cmdWord_eq_ofNat (by omega) (by omega), BitVec.toNat_ofNat]
  omega

/-- The decoder reads a command word's opcode and width back (30_encoding.md R60). -/
theorem decodeCmd_cmdWord {op w : Nat} (hop : op < 2 ^ 8) (hw : w < 2 ^ 7) :
    decodeCmd (cmdWord op w) = decodeOp op w := by
  have hnat : (cmdWord op w).toNat = 256 * op + w := by
    rw [cmdWord_eq_ofNat hop hw, BitVec.toNat_ofNat, Nat.mod_eq_of_lt (by omega)]
  have hrsv : CmdWord.rsv (cmdWord op w) = false := by
    rw [CmdWord.rsv_eq, hnat, decide_eq_false_iff_not]
    omega
  have hop' : CmdWord.op (cmdWord op w) = op := by
    rw [CmdWord.op_eq, hnat]
    omega
  have hw' : CmdWord.width (cmdWord op w) = w := by
    rw [CmdWord.width_eq, hnat]
    omega
  simp [decodeCmd, hrsv, hop', hw']

theorem legalWidth_iff {w : Nat} : legalWidth w = true ↔ 1 ≤ w ∧ w ≤ 64 := by
  rw [legalWidth, Bool.and_eq_true, decide_eq_true_eq, decide_eq_true_eq]
  rfl

theorem decodeWidth_of_legal {w : Nat} (i : Instr) (h : legalWidth w = true) : decodeWidth w i = .ok i :=
  if_pos h

theorem decodeNoWidth_eq_ok {w : Nat} {i j : Instr} : decodeNoWidth w i = .ok j ↔ w = 0 ∧ i = j := by
  unfold decodeNoWidth
  split <;> simp_all

theorem decodeWidth_eq_ok {w : Nat} {i j : Instr} : decodeWidth w i = .ok j ↔ legalWidth w = true ∧ i = j := by
  unfold decodeWidth
  split <;> simp_all

/-- What the opcode map accepts is well formed, and is encoded by that opcode and width (30_encoding.md R61). -/
theorem decodeOp_eq_ok {op w : Nat} {i : Instr} (h : decodeOp op w = .ok i) :
    i.wf = true ∧ encode i = .cmd (cmdWord op w) := by
  unfold decodeOp at h
  split at h
  case h_2 | h_5 =>
    obtain ⟨hw, rfl⟩ := decodeWidth_eq_ok.1 h
    exact ⟨hw, rfl⟩
  case h_13 => cases h
  all_goals
    obtain ⟨rfl, rfl⟩ := decodeNoWidth_eq_ok.1 h
    exact ⟨rfl, rfl⟩

theorem decodeCmd_eq_ok {c : CmdWord} {i : Instr} (h : decodeCmd c = .ok i) : i.wf = true ∧ encode i = .cmd c := by
  unfold decodeCmd at h
  split at h
  · cases h
  · next hrsv =>
    have hi := decodeOp_eq_ok h
    rwa [cmdWord_op_width (Bool.eq_false_of_not_eq_true hrsv)] at hi

theorem decodeType_eq_ok {t : Nat} {i : Instr} (h : decodeType t = .ok i) :
    (t = 0x05 ∧ i = .spliceInsert) ∨ (t = 0x06 ∧ i = .timeSignal) := by
  unfold decodeType at h
  split at h
  · next ht =>
    cases h
    exact .inl ⟨ht, rfl⟩
  · split at h
    · next ht =>
      cases h
      exact .inr ⟨ht, rfl⟩
    · cases h

/-! ### The obligations -/

/-- Settles O1: the words without a width are decoded by evaluation, BP.WRITE and BR.READ by the fields of `cmdWord`. -/
theorem decodeOfEncodeIsTheInstruction : Obligations.DecodeOfEncodeIsTheInstruction := by
  intro i hi
  cases i with
  | bpWrite w | brRead w =>
    obtain ⟨-, hw⟩ := legalWidth_iff.1 hi
    exact (decodeCmd_cmdWord (by decide) (by omega)).trans (decodeWidth_of_legal _ hi)
  | bpInit | bpFinish | brLoad | scEncInsert | scEncTsig | scDecode | crcCompute | crcVerify | saEncode | saDecode
  | spliceInsert | timeSignal => rfl

/-- Settles O2: the opcode map's accepted pairs for a command word, and the two values of a type byte. -/
theorem encodeOfDecodeIsTheCode : Obligations.EncodeOfDecodeIsTheCode := by
  intro c i h
  cases c with
  | cmd c => exact decodeCmd_eq_ok h
  | ctype t => obtain ⟨rfl, rfl⟩ | ⟨rfl, rfl⟩ := decodeType_eq_ok h <;> exact ⟨rfl, rfl⟩

theorem Except.isOk_iff_exists {ε α : Type} {x : Except ε α} : x.isOk = true ↔ ∃ a, x = .ok a := by
  cases x <;> simp [Except.isOk, Except.toBool]

/-- Settles O3: `isOk_decodeCmd`, which holds the decoder to the pseudocode. -/
theorem commandWordDecodesIffLegal : Obligations.CommandWordDecodesIffLegal := fun c => by
  rw [← isOk_decodeCmd, Except.isOk_iff_exists]
  rfl

/-- Settles O5: evaluation of the decoder on each word. -/
theorem writtenOutWordsDecode : Obligations.WrittenOutWordsDecode := ⟨rfl, rfl, rfl, rfl, rfl, rfl⟩

/-- Settles O7: a form with a width adds it to the number of its opcode; every other form has a fixed word. -/
theorem assemblerFormsEncodeTheirInstruction : Obligations.AssemblerFormsEncodeTheirInstruction := by
  intro f hf
  cases f with
  | bpWrite w v | brRead w =>
    obtain ⟨-, hw⟩ := legalWidth_iff.1 hf
    exact congrArg Code.cmd ((cmdWord_eq_ofNat (by decide) (by omega)).trans (BitVec.ofNat_add _ _))
  | bpInit | bpFinish | brLoad | scEncInsert | scEncTsig | scDecode | crcCompute | crcVerify | saEncode | saDecode => rfl

end Sys2Proof.Machine
end

section
/-! What a step does: the command word alone selects the meaning that serves a request (41_splice_command.md R130), that
meaning reads and writes one codec's stores (20_memory.md R51), and only a full store refuses (40_bitpacker.md R111). -/

namespace Sys2Proof.Machine

/-! ### The meaning a command word selects -/

/-- SC.DECODE and the command type its type operand selects have one meaning (41_splice_command.md R130, R131). -/
theorem exec_scDecode_of_decodeType {s : State} {i : Instr} (h : decodeType s.req.ctype = .ok i) :
    exec .scDecode s = exec i s := by
  obtain ⟨ht, rfl⟩ | ⟨ht, rfl⟩ := decodeType_eq_ok h <;> simp only [exec, execScDecode, ht] <;> rfl

/-- SC.DECODE rejects any other type before it reads a byte (41_splice_command.md R131). -/
theorem exec_scDecode_of_unsupported {s : State} (h5 : s.req.ctype ≠ 0x05) (h6 : s.req.ctype ≠ 0x06) :
    exec .scDecode s = .next (s.answered (Error.unsupportedCommandType s.req.ctype).response) := by
  apply exec_of_compositeResponse
  rw [compositeResponse, decodeBody_of_unsupported h5 h6]
  rfl

/-- A request runs the instruction of its command word, whatever its type operand. -/
theorem serve_of_decodeCmd {s : State} {i : Instr} (h : decodeCmd s.req.cmd = .ok i) : serve s = exec i s := by
  by_cases hi : i = .scDecode
  · subst hi
    cases ht : decodeType s.req.ctype with
    | ok j => simp [serve, Request.instr, decodeRequest, h, ht, exec_scDecode_of_decodeType ht]
    | error e => simp [serve, Request.instr, decodeRequest, h, ht]
  · have hr : s.req.instr = .ok i := by
      unfold Request.instr decodeRequest
      split
      · next h' => exact absurd (Except.ok.inj (h.symm.trans h')) hi
      · exact h
    simp [serve, hr]

/-- Everything serving a request can come to: IllegalCommand, or the meaning of its command word. -/
theorem serve_cases (s : State) :
    (legalCommand s.req.cmd = false ∧ serve s = .next s.raiseIllegal) ∨
      ∃ i, decodeCmd s.req.cmd = .ok i ∧ serve s = exec i s := by
  cases h : legalCommand s.req.cmd with
  | false => exact .inl ⟨rfl, serve_of_illegal h⟩
  | true =>
    obtain ⟨i, hi⟩ := Except.isOk_iff_exists.1 ((isOk_decodeCmd _).trans h)
    exact .inr ⟨i, hi, serve_of_decodeCmd hi⟩

/-! ### What a meaning reads and writes -/

/-- An outcome moved to the unit `s`: its codec and its request record there, everything else as in `s`. -/
def State.place (s : State) : Host.Outcome State Fault Refusal → Host.Outcome State Fault Refusal
  | .next t => .next { s with inst := t.inst, req := t.req }
  | .fault f => .fault f
  | .refused q => .refused q

/-- A meaning depends on the parameters, the two stores in focus and the request record, and on nothing else of the unit. -/
theorem exec_eq_place {s s' : State} (i : Instr) (hparams : s'.params = s.params) (hpk : s'.inst.pk = s.inst.pk)
    (hrd : s'.inst.rd = s.inst.rd) (hreq : s'.req = s.req) : exec i s' = s'.place (exec i s) := by
  cases i with
  | bpInit => simp only [exec, execBpInit, State.place, State.respond, State.setPk, hrd]
  | bpFinish => simp only [exec, execBpFinish, State.place, State.respond, hpk, hrd]
  | bpWrite w =>
    simp only [exec, execBpWrite, hparams, hpk, hreq]
    split
    · simp only [State.place, State.raise, State.respond, hpk, hrd]
    · split
      · simp only [State.place, State.respond, State.setPk, hrd]
      · rfl
  | brLoad =>
    simp only [exec, execBrLoad, hparams, hreq]
    split
    · simp only [State.place, State.respond, State.setRd, hpk]
    · rfl
  | brRead w =>
    simp only [exec, execBrRead, hrd]
    split
    · simp only [State.place, State.raise, State.respond, hpk, hrd]
    · simp only [State.place, State.respond, State.setRd, hpk]
  | scEncInsert | scEncTsig | scDecode | crcCompute | crcVerify | saEncode | saDecode | spliceInsert | timeSignal =>
    simp only [exec, execScEncInsert, execScEncTsig, execScDecode, execCrcCompute, execCrcVerify, execSaEncode,
      execSaDecode, execSpliceInsert, execTimeSignal, State.place, State.answer, State.respond, hpk, hrd, hreq]

theorem serve_eq_place {s s' : State} (hparams : s'.params = s.params) (hpk : s'.inst.pk = s.inst.pk)
    (hrd : s'.inst.rd = s.inst.rd) (hreq : s'.req = s.req) : serve s' = s'.place (serve s) := by
  obtain ⟨hl, h⟩ | ⟨i, hi, h⟩ := serve_cases s
  · rw [h, serve_of_illegal (hreq ▸ hl)]
    simp only [State.place, State.raiseIllegal, State.raise, State.respond, hpk, hrd, hreq]
  · rw [h, serve_of_decodeCmd (hreq ▸ hi)]
    exact exec_eq_place i hparams hpk hrd hreq

/-- Everything a meaning can come to: it goes on with its codec alone changed, or BP.WRITE or BR.LOAD is refused past the
capacity (40_bitpacker.md R111). -/
theorem exec_cases (i : Instr) (s : State) :
    (∃ p d r, exec i s = .next (s.done p d r)) ∨
      (∃ w c, i = .bpWrite w ∧ s.req.value < 2 ^ w ∧ s.params.pkCapacityBits = some c ∧ c < s.inst.pk.n + w ∧
        exec i s = .refused (.capacityExceeded (s.inst.pk.n + w) c)) ∨
      ∃ c, i = .brLoad ∧ s.params.rdCapacityBytes = some c ∧ c < s.req.bytes.length ∧
        exec i s = .refused (.capacityExceeded s.req.bytes.length c) := by
  cases i with
  | bpInit | bpFinish | scEncInsert | scEncTsig | scDecode | crcCompute | crcVerify | saEncode | saDecode | spliceInsert
  | timeSignal => exact .inl ⟨_, _, _, rfl⟩
  | bpWrite w =>
    rcases Nat.lt_or_ge s.req.value (2 ^ w) with hv | hv
    · by_cases ha : admits s.params.pkCapacityBits (s.inst.pk.n + w) = true
      · exact .inl ⟨_, _, _, exec_bpWrite_of_admits hv ha⟩
      · obtain ⟨c, hcap, hc⟩ := exists_capacity_lt ha
        exact .inr (.inl ⟨w, c, rfl, hv, hcap, hc, exec_bpWrite_of_capacity hv hcap hc⟩)
    · exact .inl ⟨_, _, _, exec_bpWrite_of_overflow hv⟩
  | brLoad =>
    by_cases ha : admits s.params.rdCapacityBytes s.req.bytes.length = true
    · exact .inl ⟨_, _, _, exec_brLoad_of_admits ha⟩
    · obtain ⟨c, hcap, hc⟩ := exists_capacity_lt ha
      exact .inr (.inr ⟨c, rfl, hcap, hc, exec_brLoad_of_capacity hcap hc⟩)
  | brRead w =>
    rcases Nat.lt_or_ge s.inst.rd.limit (s.inst.rd.cur + w) with hw | hw
    · exact .inl ⟨_, _, _, exec_brRead_of_lt hw⟩
    · exact .inl ⟨_, _, _, exec_brRead_of_le hw⟩

/-- Serving a request goes on with its codec alone changed, or is refused as past a capacity. -/
theorem serve_done_or_refused (s : State) :
    (∃ p d r, serve s = .next (s.done p d r)) ∨ ∃ n c, serve s = .refused (.capacityExceeded n c) := by
  obtain ⟨-, h⟩ | ⟨i, -, h⟩ := serve_cases s
  · exact .inl ⟨_, _, _, h⟩
  · rw [h]
    obtain hdone | ⟨w, c, -, -, -, -, hr⟩ | ⟨c, -, -, -, hr⟩ := exec_cases i s
    · exact .inl hdone
    · exact .inr ⟨_, _, hr⟩
    · exact .inr ⟨_, _, hr⟩

/-! ### A step by its event -/

/-- The unit with codec `k` in focus. -/
theorem State.focus_eq {s : State} {k : Nat} {x : Instance} (h : s.insts[k]? = some x) :
    s.focus k = some { s with before := s.insts.take k, inst := x, after := s.insts.drop (k + 1) } := by
  obtain ⟨hk, hx⟩ := List.getElem?_eq_some_iff.1 h
  rw [State.focus, List.drop_eq_getElem_cons hk, hx]

/-- The unit with codec `k`, which is `x`, in focus, the request `r` in service and the events `rest` left. -/
def State.serving (s : State) (k : Nat) (x : Instance) (r : Request) (rest : List HostEvent) : State :=
  { s with port := rest, before := s.insts.take k, inst := x, after := s.insts.drop (k + 1), req := r }

theorem step_of_request {s : State} {k : Nat} {r : Request} {rest : List HostEvent} {x : Instance}
    (hp : s.port = .request k r :: rest) (hx : s.insts[k]? = some x) : step s = serve (s.serving k x r rest) := by
  have hf := State.focus_eq (s := s.popPort) hx
  simp only [step, hp, hf]
  simp only [State.accept, State.popPort_port, hp]
  rfl

theorem step_of_reset {s : State} {k : Nat} {rest : List HostEvent} {x : Instance} (hp : s.port = .reset k :: rest)
    (hx : s.insts[k]? = some x) :
    step s = .next { s with port := rest, before := s.insts.take k, inst := Instance.reset,
                            after := s.insts.drop (k + 1) } := by
  have hf := State.focus_eq (s := s.popPort) hx
  simp only [step, hp, hf]
  simp only [State.resetInstance, State.popPort_port, hp]
  rfl

theorem step_of_resetAll {s : State} {rest : List HostEvent} (hp : s.port = .resetAll :: rest) :
    step s = .next s.popPort.resetAll := by
  simp only [step, hp]

theorem step_of_idle {s : State} (hp : s.port = []) : step s = .next s := by
  simp only [step, hp]

/-- The codec in focus replaced, with `k` in focus, is codec `k` replaced. -/
theorem take_append_cons_drop {α : Type} {l : List α} {k : Nat} (h : k < l.length) (y : α) :
    l.take k ++ y :: l.drop (k + 1) = l.set k y := by
  rw [List.set_eq_take_append_cons_drop, if_pos h]

/-- A unit of the one codec `x`, with `r` in service. -/
def Instance.alone (p : Config.Params) (x : Instance) (r : Request) : State :=
  { params := p, before := [], inst := x, after := [], req := r, port := [] }

/-- What serving the request `r` makes of the codec `x`, under the parameters `p`. -/
def Instance.serve (p : Config.Params) (x : Instance) (r : Request) : Host.Outcome Instance Fault Refusal :=
  match Machine.serve (x.alone p r) with
  | .next t => .next t.inst
  | .fault f => .fault f
  | .refused q => .refused q

/-- Everything a step on a request can do: `Instance.serve` gives what becomes of the addressed codec, or the refusal; the
parameters and every other codec stay, and one event is taken from the port. -/
theorem step_request_cases {s : State} {k : Nat} {r : Request} {rest : List HostEvent} {x : Instance}
    (hp : s.port = .request k r :: rest) (hx : s.insts[k]? = some x) :
    (∃ y t, x.serve s.params r = .next y ∧ step s = .next t ∧ t.params = s.params ∧ t.port = rest ∧
        t.req = Request.idle ∧ (∃ a, y.resp = some a) ∧ t.insts = s.insts.set k y) ∨
      ∃ n c, x.serve s.params r = .refused (.capacityExceeded n c) ∧ step s = .refused (.capacityExceeded n c) := by
  have hk := (List.getElem?_eq_some_iff.1 hx).1
  have hplace : serve (s.serving k x r rest) = (s.serving k x r rest).place (serve (x.alone s.params r)) :=
    serve_eq_place rfl rfl rfl rfl
  rw [step_of_request hp hx, hplace, Instance.serve]
  obtain ⟨p, d, a, h⟩ | ⟨n, c, h⟩ := serve_done_or_refused (x.alone s.params r)
  · rw [h]
    exact .inl ⟨_, _, rfl, rfl, rfl, rfl, rfl, ⟨a, rfl⟩, take_append_cons_drop hk _⟩
  · rw [h]
    exact .inr ⟨n, c, rfl, rfl⟩

end Sys2Proof.Machine
end

section
/-! The statements about a step: what it runs, what it leaves alone, and when it is refused (10_state.md R20;
40_bitpacker.md R111; 60_exceptions.md R215, R218, R219; 70_reset_and_hazards.md R220, R224). -/

namespace Sys2Proof.Machine

/-! ### What a step runs -/

/-- Settles O19: the type operand's two values, and every other one. -/
theorem scDecodeDispatchesOnTheType : Obligations.ScDecodeDispatchesOnTheType :=
  ⟨rfl, fun _ => ⟨fun _ => exec_scDecode_of_decodeType, exec_scDecode_of_unsupported⟩⟩

/-- Settles O6: the step serves the request, and serving it runs the instruction of the command word. -/
theorem stepRunsTheDecodedInstruction : Obligations.StepRunsTheDecodedInstruction := by
  intro s k r rest x i hp hx hi u
  have hstep : step s = exec i u := (step_of_request hp hx).trans (serve_of_decodeCmd hi)
  refine ⟨hstep, fun hsc j hj => ?_⟩
  rw [hstep, hsc]
  exact exec_scDecode_of_decodeType hj

/-- Settles O54: no codec with that index can come into focus. -/
theorem unknownInstanceIndexFaults : Obligations.UnknownInstanceIndexFaults := by
  intro s k r rest hk hp
  have hf : s.popPort.focus k = none := State.focus_none.2 hk
  rcases hp with hp | hp <;> simp only [step, hp, hf]

/-! ### Reset -/

/-- Settles O38: the one codec of the reset state. -/
theorem resetStateIsEmpty : Obligations.ResetStateIsEmpty := by
  refine ⟨nofun, fun x hx => ?_⟩
  obtain rfl := List.mem_singleton.1 hx
  exact ⟨rfl, rfl, rfl, rfl⟩

/-- Settles O39: the codec in focus, or every codec, is replaced by the reset values. -/
theorem resetEventEmptiesItsInstances : Obligations.ResetEventEmptiesItsInstances := by
  refine fun s rest => ⟨fun k hp hk => ?_, fun hp => ?_⟩
  · exact ⟨_, step_of_reset hp (List.getElem?_eq_getElem hk), rfl, rfl, take_append_cons_drop hk _⟩
  · refine ⟨_, step_of_resetAll hp, rfl, by simp [hp], ?_⟩
    rw [State.insts_resetAll, List.map_const']
    rfl

/-! ### What a step leaves alone -/

/-- Settles O42: a meaning that goes on is `State.done`. -/
theorem execStaysInsideItsInstance : Obligations.ExecStaysInsideItsInstance := by
  intro i s t h
  obtain ⟨p, d, r, rfl⟩ := exec_inv h
  exact ⟨⟨rfl, rfl, rfl, rfl⟩, rfl, r, rfl⟩

/-- A request that goes on is addressed to a codec that exists. -/
theorem exists_inst_of_step_next {s t : State} {k : Nat} {r : Request} {rest : List HostEvent}
    (hp : s.port = .request k r :: rest) (h : step s = .next t) : ∃ x, s.insts[k]? = some x := by
  rcases Nat.lt_or_ge k s.insts.length with hk | hk
  · exact ⟨_, List.getElem?_eq_getElem hk⟩
  · cases (unknownInstanceIndexFaults s k r rest hk (.inl hp)).symm.trans h

/-- A reset that goes on is addressed to a codec that exists. -/
theorem exists_inst_of_reset_next {s t : State} {k : Nat} {rest : List HostEvent}
    (hp : s.port = .reset k :: rest) (h : step s = .next t) : ∃ x, s.insts[k]? = some x := by
  rcases Nat.lt_or_ge k s.insts.length with hk | hk
  · exact ⟨_, List.getElem?_eq_getElem hk⟩
  · cases (unknownInstanceIndexFaults s k Request.idle rest hk (.inr hp)).symm.trans h

/-- Everything a step on a request that goes on does. -/
theorem step_request_next {s t : State} {k : Nat} {r : Request} {rest : List HostEvent}
    (hp : s.port = .request k r :: rest) (h : step s = .next t) :
    ∃ x y, s.insts[k]? = some x ∧ x.serve s.params r = .next y ∧ t.params = s.params ∧ t.port = rest ∧
      t.req = Request.idle ∧ (∃ a, y.resp = some a) ∧ t.insts = s.insts.set k y := by
  obtain ⟨x, hx⟩ := exists_inst_of_step_next hp h
  obtain ⟨y, t', hy, ht, hrest⟩ | ⟨n, c, -, ht⟩ := step_request_cases hp hx
  · cases ht.symm.trans h
    exact ⟨x, y, hx, hy, hrest⟩
  · cases ht.symm.trans h

/-- A step on a request to a codec whose request goes on. -/
theorem step_next_of_serve {s : State} {k : Nat} {r : Request} {rest : List HostEvent} {x y : Instance}
    (hp : s.port = .request k r :: rest) (hx : s.insts[k]? = some x) (hy : x.serve s.params r = .next y) :
    ∃ t, step s = .next t ∧ t.params = s.params ∧ t.port = rest ∧ t.insts = s.insts.set k y := by
  obtain ⟨y', t, hy', ht, hparams, hport, -, -, hinsts⟩ | ⟨n, c, hq, -⟩ := step_request_cases hp hx
  · cases hy'.symm.trans hy
    exact ⟨t, ht, hparams, hport, hinsts⟩
  · cases hq.symm.trans hy

/-- Settles O43: by the event at the head of the port; a request or a reset sets one codec. -/
theorem stepLeavesOtherInstancesAlone : Obligations.StepLeavesOtherInstancesAlone := by
  intro s t h
  have hport : s.port = [] → t = s := fun hp => (Host.Outcome.next.inj ((step_of_idle hp).symm.trans h)).symm
  have hrequest : ∀ k r rest, s.port = .request k r :: rest →
      t.port = rest ∧ ∀ j, j ≠ k → t.insts[j]? = s.insts[j]? := by
    intro k r rest hp
    obtain ⟨x, y, -, -, -, hport, -, -, hinsts⟩ := step_request_next hp h
    exact ⟨hport, fun j hj => by rw [hinsts, List.getElem?_set_ne hj.symm]⟩
  suffices t.params = s.params ∧ t.insts.length = s.insts.length from ⟨this.1, this.2, hport, hrequest⟩
  cases hp : s.port with
  | nil =>
    rw [hport hp]
    exact ⟨rfl, rfl⟩
  | cons e rest =>
    cases e with
    | request k r =>
      obtain ⟨x, y, -, -, hparams, -, -, -, hinsts⟩ := step_request_next hp h
      exact ⟨hparams, by rw [hinsts, List.length_set]⟩
    | reset k =>
      obtain ⟨x, hx⟩ := exists_inst_of_reset_next hp h
      cases (step_of_reset hp hx).symm.trans h
      exact ⟨rfl, (congrArg List.length (take_append_cons_drop (List.getElem?_eq_some_iff.1 hx).1 _)).trans
        List.length_set⟩
    | resetAll =>
      cases (step_of_resetAll hp).symm.trans h
      exact ⟨rfl, by rw [State.insts_resetAll, List.length_map, State.insts_popPort]⟩

/-- Settles O44: both units leave in the addressed place what `Instance.serve` makes of it. -/
theorem requestsObserveOnlyTheirInstance : Obligations.RequestsObserveOnlyTheirInstance := by
  intro s s' k k' r rest rest' x hparams hp hp' hx hx'
  have hk := (List.getElem?_eq_some_iff.1 hx).1
  have hk' := (List.getElem?_eq_some_iff.1 hx').1
  obtain ⟨y, t, hy, ht, -, -, -, -, hinsts⟩ | ⟨n, c, hq, ht⟩ := step_request_cases hp hx
  · obtain ⟨t', ht', -, -, hinsts'⟩ := step_next_of_serve hp' hx' (hparams ▸ hy)
    refine ⟨fun u hu => ⟨t', ht', ?_⟩, fun q hq => by cases ht.symm.trans hq⟩
    cases ht.symm.trans hu
    rw [hinsts, hinsts', List.getElem?_set_self hk, List.getElem?_set_self hk']
  · refine ⟨fun u hu => by (cases ht.symm.trans hu), fun q hq' => ?_⟩
    cases ht.symm.trans hq'
    obtain ⟨y, t', hy, -⟩ | ⟨n', c', hq', ht'⟩ := step_request_cases hp' hx'
    · cases (hparams ▸ hy).symm.trans hq
    · cases hq'.symm.trans (hparams ▸ hq)
      exact ht'

end Sys2Proof.Machine
end

section
/-! Runs of several steps, the refusals, the two stores, and the invariant of the machine (10_state.md R24;
40_bitpacker.md R111; 60_exceptions.md R201 to R219; 70_reset_and_hazards.md R224). -/

namespace Sys2Proof.Machine

/-! ### Runs -/

section
variable {s : State} (m : Nat)

theorem run_succ_of_next {u : State} (h : step s = .next u) :
    Sys2Proof.core.run (m + 1) s = Sys2Proof.core.run m u := by
  have hc : Sys2Proof.core.step s = .next u := h
  simp only [Host.Core.run, hc]

theorem run_succ_of_fault {f : Fault} (h : step s = .fault f) : Sys2Proof.core.run (m + 1) s = .fault f := by
  have hc : Sys2Proof.core.step s = .fault f := h
  simp only [Host.Core.run, hc]

theorem run_succ_of_refused {q : Refusal} (h : step s = .refused q) : Sys2Proof.core.run (m + 1) s = .refused q := by
  have hc : Sys2Proof.core.step s = .refused q := h
  simp only [Host.Core.run, hc]

end

/-- A run that goes on takes a first step that goes on. -/
theorem run_succ_eq_next {s t : State} {m : Nat} :
    Sys2Proof.core.run (m + 1) s = .next t ↔ ∃ u, step s = .next u ∧ Sys2Proof.core.run m u = .next t := by
  cases h : step s with
  | next u => simp [run_succ_of_next m h]
  | fault f =>
    rw [run_succ_of_fault m h]
    simp
  | refused q =>
    rw [run_succ_of_refused m h]
    simp

theorem run_two_eq_next {s t : State} :
    Sys2Proof.core.run 2 s = .next t ↔ ∃ u, step s = .next u ∧ step u = .next t := by
  have hone (u : State) : Sys2Proof.core.run 1 u = .next t ↔ step u = .next t :=
    run_succ_eq_next.trans ⟨fun ⟨_, hv, he⟩ => by cases he; exact hv, fun h => ⟨t, h, rfl⟩⟩
  exact run_succ_eq_next.trans (by simp only [hone])

/-- Settles O45: each request makes of its own codec what `Instance.serve` gives, and replacing two different codecs
commutes. -/
theorem requestsToDifferentInstancesCommute : Obligations.RequestsToDifferentInstancesCommute := by
  intro s t j k q r rest hjk h
  obtain ⟨u, hu, ht⟩ := run_two_eq_next.1 h
  obtain ⟨x, x', hx, hx', hparams, hport, -, -, hinsts⟩ := step_request_next rfl hu
  obtain ⟨y, y', hy, hy', -, -, -, -, hinsts'⟩ := step_request_next hport ht
  rw [hinsts, List.getElem?_set_ne hjk] at hy
  rw [hparams] at hy'
  obtain ⟨v, hv, hvparams, hvport, hvinsts⟩ :=
    step_next_of_serve (s := { s with port := .request k r :: .request j q :: rest }) rfl hy hy'
  have hxv : v.insts[j]? = some x := by rwa [hvinsts, List.getElem?_set_ne hjk.symm]
  obtain ⟨w, hw, -, -, hwinsts⟩ := step_next_of_serve hvport hxv (hvparams ▸ hx')
  refine ⟨w, run_two_eq_next.2 ⟨v, hv, hw⟩, ?_⟩
  rw [hwinsts, hvinsts, hinsts', hinsts]
  exact List.set_comm _ _ hjk.symm

/-! ### When a step is refused -/

theorem State.lt_of_portOk_request {s : State} {k : Nat} {r : Request} {rest : List HostEvent} (hok : s.portOk = true)
    (hp : s.port = .request k r :: rest) : k < s.insts.length := by
  rw [State.portOk, hp] at hok
  exact of_decide_eq_true hok

theorem State.lt_of_portOk_reset {s : State} {k : Nat} {rest : List HostEvent} (hok : s.portOk = true)
    (hp : s.port = .reset k :: rest) : k < s.insts.length := by
  rw [State.portOk, hp] at hok
  exact of_decide_eq_true hok

/-- Settles O51: a request goes on or is refused past a capacity; a reset and an idle step go on. -/
theorem everyRequestIsAnsweredOrRefused : Obligations.EveryRequestIsAnsweredOrRefused := by
  intro s hok
  refine ⟨?_, fun k r rest t hp h => ?_⟩
  · cases hp : s.port with
    | nil => exact .inl ⟨s, step_of_idle hp⟩
    | cons e rest =>
      cases e with
      | request k r =>
        have hk := State.lt_of_portOk_request hok hp
        obtain ⟨y, t, -, ht, -⟩ | ⟨n, c, -, ht⟩ := step_request_cases hp (List.getElem?_eq_getElem hk)
        · exact .inl ⟨t, ht⟩
        · exact .inr ⟨n, c, ht⟩
      | reset k =>
        exact .inl ⟨_, step_of_reset hp (List.getElem?_eq_getElem (State.lt_of_portOk_reset hok hp))⟩
      | resetAll => exact .inl ⟨_, step_of_resetAll hp⟩
  · obtain ⟨x, y, hx, -, -, -, -, ⟨a, ha⟩, hinsts⟩ := step_request_next hp h
    exact ⟨y, a, by rw [hinsts, List.getElem?_set_self (List.getElem?_eq_some_iff.1 hx).1], ha⟩

/-- A step is refused for a request to BP.WRITE or BR.LOAD past a capacity alone (40_bitpacker.md R111). -/
theorem step_refused_inv {s : State} {k : Nat} {r : Request} {rest : List HostEvent} {x : Instance} {q : Refusal}
    (hp : s.port = .request k r :: rest) (hx : s.insts[k]? = some x) (h : step s = .refused q) :
    (∃ w c, decodeCmd r.cmd = .ok (.bpWrite w) ∧ r.value < 2 ^ w ∧ s.params.pkCapacityBits = some c ∧
        c < x.pk.n + w) ∨
      ∃ c, decodeCmd r.cmd = .ok .brLoad ∧ s.params.rdCapacityBytes = some c ∧ c < r.bytes.length := by
  rw [step_of_request hp hx] at h
  obtain ⟨-, hs⟩ | ⟨i, hi, hs⟩ := serve_cases (s.serving k x r rest)
  · cases hs.symm.trans h
  · obtain ⟨p, d, a, he⟩ | ⟨w, c, rfl, hv, hcap, hc, -⟩ | ⟨c, rfl, hcap, hc, -⟩ := exec_cases i (s.serving k x r rest)
    · cases (hs.trans he).symm.trans h
    · exact .inl ⟨w, c, hi, hv, hcap, hc⟩
    · exact .inr ⟨c, hi, hcap, hc⟩

theorem exists_request_of_step_refused {s : State} {q : Refusal} (hok : s.portOk = true) (h : step s = .refused q) :
    ∃ k r rest, s.port = .request k r :: rest := by
  cases hp : s.port with
  | nil => cases (step_of_idle hp).symm.trans h
  | cons e rest =>
    cases e with
    | request k r => exact ⟨k, r, rest, rfl⟩
    | reset k =>
      cases (step_of_reset hp (List.getElem?_eq_getElem (State.lt_of_portOk_reset hok hp))).symm.trans h
    | resetAll => cases (step_of_resetAll hp).symm.trans h

/-- Settles O53: both refusals by the lemma of their request, every other request by `step_refused_inv`. -/
theorem requestPastACapacityIsRefusedWhateverFollows : Obligations.RequestPastACapacityIsRefusedWhateverFollows := by
  intro s k r rest x hp hx pastPacker pastReader
  refine ⟨fun w c hpast => ?_, fun c hpast => ?_, fun q => step_refused_inv hp hx⟩
  · obtain ⟨hi, hv, hcap, hc⟩ := hpast
    have hstep : step s = .refused (.capacityExceeded (x.pk.n + w) c) := by
      rw [step_of_request hp hx, serve_of_decodeCmd (s := s.serving k x r rest) hi]
      exact exec_bpWrite_of_capacity (s := s.serving k x r rest) hv hcap hc
    exact ⟨hstep, fun m => run_succ_of_refused m hstep⟩
  · obtain ⟨hi, hcap, hc⟩ := hpast
    have hstep : step s = .refused (.capacityExceeded r.bytes.length c) := by
      rw [step_of_request hp hx, serve_of_decodeCmd (s := s.serving k x r rest) hi]
      exact exec_brLoad_of_capacity (s := s.serving k x r rest) hcap hc
    exact ⟨hstep, fun m => run_succ_of_refused m hstep⟩

/-- Settles O52: a refusal is of a request past a capacity, and the default parameters have none. -/
theorem unboundedStoresNeverRefuse : Obligations.UnboundedStoresNeverRefuse := by
  intro s hun hok
  have hparams : s.params = Config.Params.default := of_decide_eq_true hun
  obtain ⟨⟨t, ht⟩ | ⟨n, c, hq⟩, -⟩ := everyRequestIsAnsweredOrRefused s hok
  · rw [ht]
    rfl
  · obtain ⟨k, r, rest, hp⟩ := exists_request_of_step_refused hok hq
    have hk := State.lt_of_portOk_request hok hp
    obtain ⟨w, c, -, -, hcap, -⟩ | ⟨c, -, hcap, -⟩ := step_refused_inv hp (List.getElem?_eq_getElem hk) hq <;>
      cases (congrArg _ hparams).symm.trans hcap

/-! ### The two stores -/

/-- Settles O50: the requests on one store, each with the other store replaced. -/
theorem packerAndReaderAreIndependent : Obligations.PackerAndReaderAreIndependent := by
  intro i s t h
  constructor
  · intro hi
    cases i with
    | bpInit | bpFinish =>
      cases h
      exact ⟨rfl, fun _ => rfl⟩
    | bpWrite w =>
      rcases Nat.lt_or_ge s.req.value (2 ^ w) with hv | hv
      · by_cases ha : admits s.params.pkCapacityBits (s.inst.pk.n + w) = true
        · cases (exec_bpWrite_of_admits hv ha).symm.trans h
          exact ⟨rfl, fun d => exec_bpWrite_of_admits (s := s.setRd d) hv ha⟩
        · obtain ⟨c, hcap, hc⟩ := exists_capacity_lt ha
          cases (exec_bpWrite_of_capacity hv hcap hc).symm.trans h
      · cases (exec_bpWrite_of_overflow hv).symm.trans h
        exact ⟨rfl, fun d => exec_bpWrite_of_overflow (s := s.setRd d) hv⟩
    | brLoad | brRead | scEncInsert | scEncTsig | scDecode | crcCompute | crcVerify | saEncode | saDecode | spliceInsert
    | timeSignal => cases hi
  · intro hi
    cases i with
    | brLoad =>
      by_cases ha : admits s.params.rdCapacityBytes s.req.bytes.length = true
      · cases (exec_brLoad_of_admits ha).symm.trans h
        exact ⟨rfl, fun p => exec_brLoad_of_admits (s := s.setPk p) ha⟩
      · obtain ⟨c, hcap, hc⟩ := exists_capacity_lt ha
        cases (exec_brLoad_of_capacity hcap hc).symm.trans h
    | brRead w =>
      rcases Nat.lt_or_ge s.inst.rd.limit (s.inst.rd.cur + w) with hw | hw
      · cases (exec_brRead_of_lt hw).symm.trans h
        exact ⟨rfl, fun p => exec_brRead_of_lt (s := s.setPk p) hw⟩
      · cases (exec_brRead_of_le hw).symm.trans h
        exact ⟨rfl, fun p => exec_brRead_of_le (s := s.setPk p) hw⟩
    | bpInit | bpWrite | bpFinish | scEncInsert | scEncTsig | scDecode | crcCompute | crcVerify | saEncode | saDecode
    | spliceInsert | timeSignal => cases hi

/-! ### The invariant -/

/-- The response of a codec error is legal (60_exceptions.md R201 to R204, R209). -/
theorem Error.response_wf {e : Error} (h : e.fromCodec = true) : e.response.wf = true := by
  cases e with
  | fieldOverflow w v =>
    simpa [Response.wf, Error.response, Error.status, Error.info, Response.noResults, Error.fromCodec] using h
  | truncatedInput n => rfl
  | unsupportedCommandType t =>
    simpa [Response.wf, Error.response, Error.status, Error.info, Response.noResults, Error.fromCodec] using h
  | illegalCommand c => cases h

/-- IllegalCommand is a legal response to an illegal word (60_exceptions.md R206). -/
theorem Error.illegalCommand_response_wf {c : CmdWord} (h : legalCommand c = false) :
    (Error.illegalCommand c).response.wf = true := by
  simp [Response.wf, Error.response, Error.status, Error.info, Response.noResults, h]

/-- The response to a parsed section is legal whether its checksums agree or not (60_exceptions.md R205). -/
theorem Response.ofSection_wf (d : DecodedSection) : (Response.ofSection d).wf = true := by
  unfold Response.ofSection
  split <;> simp_all [Response.wf, Response.ok]

theorem Response.ofExcept_wf {α : Type} {x : Except Error α} {f : α → Response} (hx : RaisesCodecErrors x)
    (hf : ∀ a, (f a).wf = true) : (Response.ofExcept (x.map f)).wf = true := by
  cases x with
  | ok a => exact hf a
  | error e => exact Error.response_wf (hx e rfl)

theorem compositeResponse_wf {i : Instr} {q : Request} {r : Response} (h : compositeResponse i q = some r) :
    r.wf = true := by
  cases i with
  | bpInit | bpWrite | bpFinish | brLoad | brRead => cases h
  | crcCompute | crcVerify =>
    cases h
    rfl
  | saDecode =>
    cases h
    exact Response.ofExcept_wf (by simp) Response.ofSection_wf
  | scEncInsert | scEncTsig | scDecode | saEncode | spliceInsert | timeSignal =>
    cases h
    exact Response.ofExcept_wf (by simp) fun _ => rfl

/-- The stores of a codec as every run keeps them (10_state.md R24; 40_bitpacker.md R111). -/
structure StoresWf (p : Config.Params) (k : Packer) (d : Reader) : Prop where
  cursor : d.cur ≤ d.limit
  limit : d.limit = 8 * d.buf.length
  packer : admits p.pkCapacityBits k.n = true
  reader : admits p.rdCapacityBytes d.buf.length = true

theorem Instance.wf_iff {p : Config.Params} {x : Instance} :
    x.wf p = true ↔ StoresWf p x.pk x.rd ∧ ∀ r, x.resp = some r → r.wf = true := by
  simp only [Instance.wf, Bool.and_eq_true, decide_eq_true_eq, Reader.wf_iff, Option.all_eq_true]
  constructor
  · rintro ⟨⟨⟨⟨⟨hcur, -⟩, hlimit⟩, hpk⟩, hrd⟩, hresp⟩
    exact ⟨⟨hcur, hlimit, hpk, hrd⟩, hresp⟩
  · rintro ⟨⟨hcur, hlimit, hpk, hrd⟩, hresp⟩
    exact ⟨⟨⟨⟨⟨hcur, hlimit.le⟩, hlimit⟩, hpk⟩, hrd⟩, hresp⟩

@[simp] theorem admits_zero (cap : Option Nat) : admits cap 0 = true := by
  cases cap <;> simp

theorem storesWf_empty (p : Config.Params) : StoresWf p Packer.empty Reader.empty :=
  ⟨le_rfl, rfl, admits_zero _, admits_zero _⟩

theorem Instance.reset_wf (p : Config.Params) : Instance.reset.wf p = true :=
  Instance.wf_iff.2 ⟨storesWf_empty p, fun _ h => by cases h⟩

theorem State.done_inst_wf {p : Config.Params} {s : State} {k : Packer} {d : Reader} {r : Response} (hs : StoresWf p k d)
    (hr : r.wf = true) : (s.done k d r).inst.wf p = true :=
  Instance.wf_iff.2 ⟨hs, fun _ h => Option.some.inj h ▸ hr⟩

/-- Every meaning that goes on keeps its codec's stores well formed and answers with a legal response. -/
theorem exec_keeps_wf {i : Instr} {s t : State} (hs : StoresWf s.params s.inst.pk s.inst.rd)
    (h : exec i s = .next t) : t.inst.wf s.params = true := by
  have ⟨hcur, hlimit, hpk, hrd⟩ := hs
  cases hc : compositeResponse i s.req with
  | some r =>
    cases (exec_of_compositeResponse hc).symm.trans h
    exact State.done_inst_wf hs (compositeResponse_wf hc)
  | none =>
    cases i with
    | scEncInsert | scEncTsig | scDecode | crcCompute | crcVerify | saEncode | saDecode | spliceInsert | timeSignal =>
      cases hc
    | bpInit =>
      cases h
      exact State.done_inst_wf ⟨hcur, hlimit, admits_zero _, hrd⟩ rfl
    | bpFinish =>
      cases h
      exact State.done_inst_wf hs rfl
    | bpWrite w =>
      rcases Nat.lt_or_ge s.req.value (2 ^ w) with hv | hv
      · by_cases ha : admits s.params.pkCapacityBits (s.inst.pk.n + w) = true
        · cases (exec_bpWrite_of_admits hv ha).symm.trans h
          rw [← Packer.append_n s.inst.pk s.req.value w] at ha
          exact State.done_inst_wf ⟨hcur, hlimit, ha, hrd⟩ rfl
        · obtain ⟨c, hcap, hc⟩ := exists_capacity_lt ha
          cases (exec_bpWrite_of_capacity hv hcap hc).symm.trans h
      · cases (exec_bpWrite_of_overflow hv).symm.trans h
        have he : (Error.fieldOverflow w s.req.value).fromCodec = true := by simpa [Error.fromCodec] using hv
        exact State.done_inst_wf hs (Error.response_wf he)
    | brLoad =>
      by_cases ha : admits s.params.rdCapacityBytes s.req.bytes.length = true
      · cases (exec_brLoad_of_admits ha).symm.trans h
        exact State.done_inst_wf ⟨Nat.zero_le _, rfl, hpk, ha⟩ rfl
      · obtain ⟨c, hcap, hc⟩ := exists_capacity_lt ha
        cases (exec_brLoad_of_capacity hcap hc).symm.trans h
    | brRead w =>
      rcases Nat.lt_or_ge s.inst.rd.limit (s.inst.rd.cur + w) with hw | hw
      · cases (exec_brRead_of_lt hw).symm.trans h
        exact State.done_inst_wf hs rfl
      · cases (exec_brRead_of_le hw).symm.trans h
        exact State.done_inst_wf ⟨hw, hlimit, hpk, hrd⟩ rfl

theorem serve_keeps_wf {s t : State} (hs : StoresWf s.params s.inst.pk s.inst.rd) (h : serve s = .next t) :
    t.inst.wf s.params = true := by
  obtain ⟨hl, he⟩ | ⟨i, -, he⟩ := serve_cases s
  · cases he.symm.trans h
    exact Instance.wf_iff.2 ⟨hs, fun a ha => Option.some.inj ha ▸ Error.illegalCommand_response_wf hl⟩
  · exact exec_keeps_wf hs (he.symm.trans h)

theorem Instance.serve_keeps_wf {p : Config.Params} {x y : Instance} {r : Request} (hx : x.wf p = true)
    (h : x.serve p r = .next y) : y.wf p = true := by
  unfold Instance.serve at h
  split at h <;> cases h
  next t ht => exact Machine.serve_keeps_wf (s := x.alone p r) (Instance.wf_iff.1 hx).1 ht

theorem State.inv_iff {s : State} :
    s.inv = true ↔ (∀ x ∈ s.insts, x.wf s.params = true) ∧ s.req = Request.idle := by
  simp [State.inv]

/-- Replacing one codec by a well-formed one keeps the invariant. -/
theorem State.inv_of_set {s t : State} {k : Nat} {y : Instance} (hs : ∀ x ∈ s.insts, x.wf s.params = true)
    (hy : y.wf s.params = true) (hparams : t.params = s.params) (hreq : t.req = Request.idle)
    (hinsts : t.insts = s.insts.set k y) : t.inv = true := by
  refine State.inv_iff.2 ⟨fun x hx => ?_, hreq⟩
  rw [hinsts] at hx
  rw [hparams]
  rcases List.mem_or_eq_of_mem_set hx with hx | rfl
  · exact hs x hx
  · exact hy

/-- Settles O40: the reset values of the one codec. -/
theorem invariantHoldsAtReset : Obligations.InvariantHoldsAtReset :=
  State.inv_iff.2 ⟨fun x hx => by rw [List.mem_singleton.1 hx]; exact Instance.reset_wf _, rfl⟩

/-- Settles O41: a request or a reset replaces codecs by well-formed ones, and an idle step changes nothing. -/
theorem everyStepKeepsTheInvariant : Obligations.EveryStepKeepsTheInvariant := by
  intro s t hs h
  obtain ⟨hwf, hreq⟩ := State.inv_iff.1 hs
  cases hp : s.port with
  | nil => rwa [← Host.Outcome.next.inj ((step_of_idle hp).symm.trans h)]
  | cons e rest =>
    cases e with
    | request k r =>
      obtain ⟨x, y, hx, hy, hparams, -, hidle, -, hinsts⟩ := step_request_next hp h
      exact State.inv_of_set hwf (Instance.serve_keeps_wf (hwf x (List.mem_of_getElem? hx)) hy) hparams hidle hinsts
    | reset k =>
      obtain ⟨x, hx⟩ := exists_inst_of_reset_next hp h
      cases (step_of_reset hp hx).symm.trans h
      exact State.inv_of_set hwf (Instance.reset_wf _) rfl hreq
        (take_append_cons_drop (List.getElem?_eq_some_iff.1 hx).1 _)
    | resetAll =>
      cases (step_of_resetAll hp).symm.trans h
      refine State.inv_iff.2 ⟨fun x hx => ?_, hreq⟩
      rw [State.insts_resetAll] at hx
      obtain ⟨-, -, rfl⟩ := List.mem_map.1 hx
      exact Instance.reset_wf _

end Sys2Proof.Machine
end

section
/-! Requests issued one after the other (70_reset_and_hazards.md R223): the answer to one from its meaning, repeated requests
(60_exceptions.md R210), and the round trip of the packer and the reader (40_bitpacker.md R110). -/

namespace Sys2Proof.Machine

/-! ### Issuing one request -/

theorem State.getElem?_index (s : State) : s.insts[s.index]? = some s.inst := by
  simp [State.insts, State.index]

/-- The unit that serves the request of the form `f`, with nothing else on its port. -/
def State.issuing (s : State) (f : AsmForm) : State := { s with port := [], req := f.request }

/-- An issued request is served by the codec in focus, which stays in focus. -/
theorem step_issue (s : State) (f : AsmForm) :
    step { s with port := [.request s.index f.request] } = serve (s.issuing f) := by
  rw [step_of_request (s := { s with port := [.request s.index f.request] }) rfl s.getElem?_index]
  congr 1
  simp [State.serving, State.issuing, State.insts, State.index]

/-- A request is answered where serving it goes on. -/
theorem issue_eq_some {s t : State} {f : AsmForm} {r : Response} :
    issue s f = some (t, r) ↔ serve (s.issuing f) = .next t ∧ t.inst.resp = some r := by
  rw [issue, step_issue]
  cases h : serve (s.issuing f) with
  | next u =>
    simp only [Option.map_eq_some_iff, Prod.mk.injEq, Host.Outcome.next.injEq]
    constructor
    · rintro ⟨a, ha, rfl, rfl⟩
      exact ⟨rfl, ha⟩
    · rintro ⟨rfl, hr⟩
      exact ⟨r, hr, rfl, rfl⟩
  | fault f => simp
  | refused q => simp

/-- A form with a legal width runs the instruction it names (30_encoding.md R66). -/
theorem decodeCmd_request {f : AsmForm} (h : f.instr.wf = true) : decodeCmd f.request.cmd = .ok f.instr := by
  have hdecode := decodeOfEncodeIsTheInstruction f.instr h
  rwa [assemblerFormsEncodeTheirInstruction f h] at hdecode

/-- The answer to a form with a legal width is that of the instruction it names. -/
theorem issue_of_exec {s : State} {f : AsmForm} {p : Packer} {d : Reader} {r : Response} (h : f.instr.wf = true)
    (he : exec f.instr (s.issuing f) = .next ((s.issuing f).done p d r)) :
    issue s f = some ((s.issuing f).done p d r, r) :=
  issue_eq_some.2 ⟨(serve_of_decodeCmd (s := s.issuing f) (decodeCmd_request h)).trans he, rfl⟩

/-- Composite requests are forms without a width. -/
theorem AsmForm.wf_of_isComposite {f : AsmForm} (h : isComposite f.instr = true) : f.instr.wf = true := by
  cases f with
  | bpInit | bpWrite | bpFinish | brLoad | brRead => cases h
  | scEncInsert | scEncTsig | scDecode | crcCompute | crcVerify | saEncode | saDecode => rfl

/-- A request that is composite, or ends with an error, only answers. -/
theorem issue_answered {s t : State} {f : AsmForm} {r : Response} (h : issue s f = some (t, r))
    (hf : isComposite f.instr = true ∨ r.status ≠ .ok) : t = (s.issuing f).answered r := by
  obtain ⟨hserve, hr⟩ := issue_eq_some.1 h
  rcases hf with hf | hs
  · rw [serve_of_decodeCmd (s := s.issuing f) (decodeCmd_request (AsmForm.wf_of_isComposite hf))] at hserve
    obtain ⟨a, ha, -⟩ := compositeRequestsIgnoreThePersistentState _ hf (s.issuing f)
    cases ha.symm.trans hserve
    rw [Option.some.inj hr]
  · obtain ⟨-, he⟩ | ⟨i, -, he⟩ := serve_cases (s.issuing f)
    · cases he.symm.trans hserve
      rw [← Option.some.inj hr]
      rfl
    · exact (exec_of_status_ne_ok (he.symm.trans hserve) hr hs).1

/-- Settles O48: the first answer left the stores as they were, and the meaning depends on nothing else. -/
theorem repeatedRequestsGiveTheSameResponse : Obligations.RepeatedRequestsGiveTheSameResponse := by
  intro s t f r h hf
  obtain rfl := issue_answered h hf
  obtain ⟨hserve, -⟩ := issue_eq_some.1 h
  have hagain : serve (((s.issuing f).answered r).issuing f)
      = (((s.issuing f).answered r).issuing f).place (serve (s.issuing f)) :=
    serve_eq_place rfl rfl rfl rfl
  rw [hserve] at hagain
  exact ⟨_, issue_eq_some.2 ⟨hagain, rfl⟩⟩

/-! ### Issuing several requests -/

theorem issueAll_cons {s t u : State} {f : AsmForm} {fs : List AsmForm} {r : Response} {rs : List Response}
    (h : issue s f = some (t, r)) (hs : issueAll t fs = some (u, rs)) : issueAll s (f :: fs) = some (u, r :: rs) := by
  rw [issueAll, h, Option.bind_eq_bind, Option.bind_some]
  simp only [hs]
  rfl

theorem issueAll_append {s t u : State} {fs gs : List AsmForm} {rs qs : List Response}
    (hf : issueAll s fs = some (t, rs)) (hg : issueAll t gs = some (u, qs)) :
    issueAll s (fs ++ gs) = some (u, rs ++ qs) := by
  induction fs generalizing s rs with
  | nil =>
    cases hf
    exact hg
  | cons f fs ih =>
    simp only [issueAll, Option.bind_eq_bind, Option.bind_eq_some_iff, Prod.exists, Option.pure_def,
      Option.some.injEq, Prod.mk.injEq] at hf
    obtain ⟨v, r, hv, w, ps, hw, rfl, rfl⟩ := hf
    exact issueAll_cons hv (ih hw)

section
variable {s : State} (hs : s.unbounded = true)
include hs

theorem State.params_of_unbounded : s.params = Config.Params.default := of_decide_eq_true hs

/-- BP.INIT empties the packer. -/
theorem issue_bpInit :
    ∃ t, issue s .bpInit = some (t, Response.ok) ∧ t.unbounded = true ∧ t.inst.pk.bits = [] :=
  ⟨_, issue_of_exec rfl rfl, hs, rfl⟩

/-- BP.WRITE appends a fitting value to an unbounded packer. -/
theorem issue_bpWrite {v w : Nat} (hw : legalWidth w = true) (hv : v < 2 ^ w) :
    ∃ t, issue s (.bpWrite w v) = some (t, Response.ok) ∧ t.unbounded = true ∧
      t.inst.pk.bits = s.inst.pk.bits ++ bitsOf v w := by
  have ha : admits (s.issuing (.bpWrite w v)).params.pkCapacityBits ((s.issuing (.bpWrite w v)).inst.pk.n + w) = true := by
    rw [show (s.issuing (.bpWrite w v)).params = _ from State.params_of_unbounded hs]
    rfl
  exact ⟨_, issue_of_exec hw (exec_bpWrite_of_admits (s := s.issuing (.bpWrite w v)) hv ha), hs, rfl⟩

/-- Fitting fields written one after the other stand in the packer in order (40_bitpacker.md R102). -/
theorem issueAll_bpWrite {fs : List (Nat × Nat)} (hf : ∀ f ∈ fs, 1 ≤ f.2 ∧ f.2 ≤ 64 ∧ f.1 < 2 ^ f.2) :
    ∃ t, issueAll s (fs.map fun f => .bpWrite f.2 f.1) = some (t, List.replicate fs.length Response.ok) ∧
      t.unbounded = true ∧ t.inst.pk.bits = s.inst.pk.bits ++ fieldBits fs := by
  induction fs generalizing s with
  | nil => exact ⟨s, rfl, hs, by simp⟩
  | cons f fs ih =>
    obtain ⟨h1, h64, hv⟩ := hf f (by simp)
    obtain ⟨t, ht, hun, hbits⟩ := issue_bpWrite hs (legalWidth_iff.2 ⟨h1, h64⟩) hv
    obtain ⟨u, hu, hun', hbits'⟩ := ih hun fun g hg => hf g (by simp [hg])
    exact ⟨u, issueAll_cons ht hu, hun', by simp [hbits', hbits]⟩

/-- BP.FINISH returns the image of the packer's bits (40_bitpacker.md R103). -/
theorem issue_bpFinish :
    ∃ t, issue s .bpFinish = some (t, Response.okBytes (pack s.inst.pk.bits)) ∧ t.unbounded = true :=
  ⟨_, issue_of_exec rfl rfl, hs⟩

/-- BR.LOAD sets an unbounded reader to the start of its bytes (40_bitpacker.md R104). -/
theorem issue_brLoad (b : Bytes) :
    ∃ t, issue s (.brLoad b) = some (t, Response.ok) ∧ t.inst.rd = Reader.new b := by
  have ha : admits (s.issuing (.brLoad b)).params.rdCapacityBytes (s.issuing (.brLoad b)).req.bytes.length = true := by
    rw [show (s.issuing (.brLoad b)).params = _ from State.params_of_unbounded hs]
    rfl
  exact ⟨_, issue_of_exec rfl (exec_brLoad_of_admits (s := s.issuing (.brLoad b)) ha), rfl⟩

end

/-- BR.READ returns the value that stands at the cursor and moves past it (40_bitpacker.md R105). -/
theorem issue_brRead {s : State} {pre post : Bits} {v w : Nat} (hw : legalWidth w = true) (hv : v < 2 ^ w)
    (hb : unpack s.inst.rd.buf = pre ++ bitsOf v w ++ post) (hc : s.inst.rd.cur = pre.length)
    (hl : s.inst.rd.limit = 8 * s.inst.rd.buf.length) :
    ∃ t, issue s (.brRead w) = some (t, Response.okValue v) ∧ t.inst.rd = s.inst.rd.advance w := by
  have hin : s.inst.rd.cur + w ≤ s.inst.rd.limit := by
    rw [hc, hl, ← unpack_length, hb]
    simp
  have hread := readField_of_bits hb hc hin hv
  refine ⟨_, issue_of_exec hw (p := s.inst.pk) (d := s.inst.rd.advance w) ?_, rfl⟩
  change execBrRead w (s.issuing (.brRead w)) = _
  rw [execBrRead, show (s.issuing (.brRead w)).inst.rd = s.inst.rd from rfl, hread]
  rfl

/-- Fields that stand in the buffer one after the other are read in order (20_memory.md R43). -/
theorem issueAll_brRead {s : State} {pre post : Bits} {fs : List (Nat × Nat)}
    (hf : ∀ f ∈ fs, 1 ≤ f.2 ∧ f.2 ≤ 64 ∧ f.1 < 2 ^ f.2) (hb : unpack s.inst.rd.buf = pre ++ fieldBits fs ++ post)
    (hc : s.inst.rd.cur = pre.length) (hl : s.inst.rd.limit = 8 * s.inst.rd.buf.length) :
    ∃ t, issueAll s (fs.map fun f => .brRead f.2) = some (t, fs.map fun f => Response.okValue f.1) ∧
      t.inst.rd = s.inst.rd.advance (fieldBits fs).length := by
  induction fs generalizing s pre with
  | nil => exact ⟨s, rfl, rfl⟩
  | cons f fs ih =>
    obtain ⟨h1, h64, hv⟩ := hf f (by simp)
    obtain ⟨t, ht, hrd⟩ := issue_brRead (post := fieldBits fs ++ post) (legalWidth_iff.2 ⟨h1, h64⟩) hv
      (by simpa using hb) hc hl
    obtain ⟨u, hu, hrd'⟩ := ih (s := t) (pre := pre ++ bitsOf f.1 f.2) (fun g hg => hf g (by simp [hg]))
      (by simpa [hrd] using hb) (by simp [hrd, hc]) (by simp [hrd, hl])
    refine ⟨u, issueAll_cons ht hu, ?_⟩
    rw [hrd', hrd]
    simp [Reader.advance, Nat.add_assoc]

theorem bitsOf_zero (w : Nat) : bitsOf 0 w = List.replicate w false := by
  have h := bitsOf_val (List.replicate w false)
  rwa [val_replicate_false, List.length_replicate] at h

/-- Zero bits read in two goes. -/
theorem replicate_false_split {w m : Nat} (h : w ≤ m) :
    List.replicate m false = bitsOf 0 w ++ List.replicate (m - w) false := by
  rw [bitsOf_zero, List.replicate_append_replicate, Nat.add_sub_cancel' h]

/-- Settles O13: the image holds the written fields and zero padding, and the reader takes the fields from it in order. -/
theorem writtenFieldsReadBack : Obligations.WrittenFieldsReadBack := by
  intro s fs hs hf
  obtain ⟨s1, h1, hun1, hbits1⟩ := issue_bpInit hs
  obtain ⟨s2, h2, hun2, hbits2⟩ := issueAll_bpWrite hun1 hf
  obtain ⟨s3, h3, hun3⟩ := issue_bpFinish hun2
  obtain ⟨s4, h4, hrd4⟩ := issue_brLoad hun3 (pack s2.inst.pk.bits)
  have hbits : s2.inst.pk.bits = fieldBits fs := by rw [hbits2, hbits1, List.nil_append]
  have hunpack : unpack (pack s2.inst.pk.bits)
      = fieldBits fs ++ List.replicate (padLength (fieldBits fs).length) false := by
    rw [unpack_pack, hbits, padded]
  obtain ⟨s5, h5, hrd5⟩ := issueAll_brRead (s := s4) (pre := []) hf (by rw [hrd4]; exact hunpack) (by rw [hrd4]; rfl)
    (by rw [hrd4]; rfl)
  refine ⟨s3, s5, pack s2.inst.pk.bits, ?_, issueAll_cons h4 h5, fun w hw1 hw => ?_⟩
  · exact issueAll_append (issueAll_cons h1 h2) (issueAll_cons h3 rfl)
  · have hpad : 8 * (pack s2.inst.pk.bits).length - (fs.map Prod.snd).sum = padLength (fieldBits fs).length := by
      rw [← unpack_length, hunpack, List.length_append, List.length_replicate, fieldBits_length,
        Nat.add_sub_cancel_left]
    rw [hpad] at hw
    have h64 : w ≤ 64 := by
      have := padLength_lt (fieldBits fs).length
      omega
    have hsplit := replicate_false_split hw
    obtain ⟨v, hv, -⟩ := issue_brRead (s := s5) (pre := fieldBits fs) (v := 0) (legalWidth_iff.2 ⟨hw1, h64⟩)
      (Nat.two_pow_pos w) (by rw [hrd5, hrd4, Reader.advance_buf, List.append_assoc, ← hsplit]; exact hunpack)
      (by rw [hrd5, hrd4]; simp [Reader.new]) (by rw [hrd5, hrd4]; rfl)
    exact ⟨v, hv⟩

end Sys2Proof.Machine
end

section
/-! The CRC (42_crc32.md R150 to R155): the register's shift is linear and injective, a byte enters it bit by bit, and so the
checksum is a linear function of the bits that tells strings apart which differ in a window of 32 bits. -/

namespace Sys2Proof.Machine

/-! ### The register over naturals -/

theorem toNat_crcShift (c : CrcWord) : (crcShift c).toNat = crcRefShift c.toNat := by
  have hlt : c.toNat < 2 ^ 32 := c.isLt
  have hshl : (c <<< 1).toNat = 2 * c.toNat % 2 ^ 32 := by
    rw [BitVec.toNat_shiftLeft, Nat.shiftLeft_eq]
    congr 1
    omega
  have hmsb : c.msb = decide (2 ^ 31 ≤ c.toNat) := BitVec.msb_eq_decide c
  unfold crcShift crcRefShift
  by_cases h : 2 ^ 31 ≤ c.toNat
  · rw [if_pos (by rw [hmsb]; exact decide_eq_true h), if_pos h, BitVec.toNat_xor, hshl]
    rfl
  · rw [if_neg (by rw [hmsb]; simpa using h), if_neg h, hshl, Nat.mod_eq_of_lt (by omega)]

theorem toNat_crcShifts (n : Nat) (c : CrcWord) : (crcShifts n c).toNat = crcRefShift^[n] c.toNat := by
  induction n generalizing c with
  | zero => rfl
  | succ n ih => rw [crcShifts, ih, toNat_crcShift, Function.iterate_succ_apply]

/-- A byte aligned with the top of the register. -/
theorem toNat_topByte (b : Byte) : (b.setWidth 32 <<< 24 : CrcWord).toNat = b.toNat * 2 ^ 24 := by
  have hlt : b.toNat < 256 := b.isLt
  rw [BitVec.toNat_shiftLeft, BitVec.toNat_setWidth, Nat.shiftLeft_eq]
  omega

theorem toNat_crcByte (c : CrcWord) (b : Byte) : (crcByte c b).toNat = crcRefByte c.toNat b := by
  rw [crcByte, toNat_crcShifts, BitVec.toNat_xor, toNat_topByte, crcRefByte]

/-- The register after a byte string, from `c`. -/
def crcFrom (c : CrcWord) (b : Bytes) : CrcWord := b.foldl crcByte c

theorem crc32_eq_crcFrom (b : Bytes) : crc32 b = crcFrom Config.crcInit b := BitVec.xor_zero

theorem toNat_crcFrom (c : CrcWord) (b : Bytes) : (crcFrom c b).toNat = b.foldl crcRefByte c.toNat := by
  induction b generalizing c with
  | nil => rfl
  | cons x b ih =>
    rw [crcFrom, List.foldl_cons, List.foldl_cons, ← toNat_crcByte]
    exact ih _

/-- The model's register over bit vectors is the pseudocode over naturals (42_crc32.md R151). -/
theorem crcReference_eq (b : Bytes) : crcReference b = (crc32 b).toNat := by
  rw [crc32_eq_crcFrom, toNat_crcFrom]
  rfl

/-! ### Linearity -/

/-- What a bit that leaves the register adds to it. -/
def crcFeedback (b : Bool) : CrcWord := if b then Config.crcPoly else 0#32

theorem crcFeedback_xor : ∀ a b : Bool, crcFeedback (a ^^ b) = crcFeedback a ^^^ crcFeedback b := by decide

/-- One shift by its two parts: the register moved up, and the polynomial where a 1 bit left it (42_crc32.md R151). -/
theorem crcShift_eq (c : CrcWord) : crcShift c = c <<< 1 ^^^ crcFeedback c.msb := by
  unfold crcShift crcFeedback
  split <;> simp

theorem crcShift_xor (c d : CrcWord) : crcShift (c ^^^ d) = crcShift c ^^^ crcShift d := by
  simp only [crcShift_eq, BitVec.msb_xor, BitVec.shiftLeft_xor_distrib, crcFeedback_xor]
  ac_rfl

@[simp] theorem crcShift_zero : crcShift 0#32 = 0#32 := by decide

theorem crcShifts_xor (n : Nat) (c d : CrcWord) : crcShifts n (c ^^^ d) = crcShifts n c ^^^ crcShifts n d := by
  induction n generalizing c d with
  | zero => rfl
  | succ n ih => rw [crcShifts, crcShift_xor, ih]; rfl

@[simp] theorem crcShifts_zero (n : Nat) : crcShifts n 0#32 = 0#32 := by
  induction n with
  | zero => rfl
  | succ n ih => rw [crcShifts, crcShift_zero, ih]

/-- The lowest bit after a shift is the bit that left the register: the polynomial is odd. -/
theorem crcShift_getLsbD_zero (c : CrcWord) : (crcShift c).getLsbD 0 = c.msb := by
  rw [crcShift_eq]
  cases c.msb <;> simp [crcFeedback, Config.crcPoly]

/-- No shift of the register loses information. -/
theorem crcShift_eq_zero {c : CrcWord} (h : crcShift c = 0#32) : c = 0#32 := by
  have hmsb : c.msb = false := by rw [← crcShift_getLsbD_zero, h]; rfl
  rw [crcShift_eq, hmsb] at h
  have hshl : c <<< 1 = 0#32 := by simpa [crcFeedback] using h
  apply BitVec.eq_of_getLsbD_eq
  intro i hi
  rcases Nat.lt_or_ge (i + 1) 32 with hlt | hge
  · have hbit : (c <<< 1).getLsbD (i + 1) = false := by rw [hshl]; simp
    rw [BitVec.getLsbD_shiftLeft] at hbit
    simpa [hlt] using hbit
  · obtain rfl : i = 31 := by omega
    simpa [BitVec.msb_eq_getLsbD_last] using hmsb

theorem crcShifts_eq_zero {n : Nat} {c : CrcWord} (h : crcShifts n c = 0#32) : c = 0#32 := by
  induction n generalizing c with
  | zero => exact h
  | succ n ih => exact crcShift_eq_zero (ih h)

theorem crcShifts_injective (n : Nat) : Function.Injective (crcShifts n) := by
  intro c d h
  apply BitVec.xor_eq_zero_iff.1
  apply crcShifts_eq_zero (n := n)
  rw [crcShifts_xor, h, BitVec.xor_self]

/-- Low bits move up unchanged as long as none leaves the register. -/
theorem crcShifts_of_lt {n : Nat} {c : CrcWord} (hn : n ≤ 32) (h : c.toNat < 2 ^ (32 - n)) : crcShifts n c = c <<< n := by
  induction n generalizing c with
  | zero => simp [crcShifts]
  | succ n ih =>
    have hpow : 2 ^ (32 - n) = 2 * 2 ^ (32 - (n + 1)) := by
      rw [← pow_succ']
      congr 1
      omega
    have hle : 2 ^ (32 - (n + 1)) ≤ 2 ^ 31 := Nat.pow_le_pow_right (by omega) (by omega)
    have hmsb : c.msb = false := by
      rw [BitVec.msb_eq_decide, decide_eq_false_iff_not]
      exact (h.trans_le hle).not_ge
    have hshift : crcShift c = c <<< 1 := by simp [crcShift_eq, hmsb, crcFeedback]
    have htoNat : (c <<< 1).toNat = 2 * c.toNat := by
      rw [BitVec.toNat_shiftLeft, Nat.shiftLeft_eq, Nat.mod_eq_of_lt] <;> omega
    rw [crcShifts, hshift, ih (by omega) (by omega), ← BitVec.shiftLeft_add, Nat.add_comm]

theorem crcWord_xor_right_comm (a b c : CrcWord) : a ^^^ b ^^^ c = a ^^^ c ^^^ b := by ac_rfl

theorem crcWord_xor_rotate (a b c : CrcWord) : a ^^^ b ^^^ c = b ^^^ (a ^^^ c) := by ac_rfl

/-! ### The table-driven form -/

/-- The register is its top byte and the rest. -/
theorem crc_split (c : CrcWord) : c = (c >>> 24) <<< 24 ^^^ (c <<< 8) >>> 8 := by
  apply BitVec.eq_of_getLsbD_eq
  intro i hi
  simp only [BitVec.getLsbD_xor, BitVec.getLsbD_shiftLeft, BitVec.getLsbD_ushiftRight]
  by_cases h : i < 24
  · simp [h, hi, show 8 + i < 32 by omega]
  · simp [h, hi, show ¬8 + i < 32 by omega, show 24 + (i - 24) = i by omega]

/-- Eight shifts move the low bytes up, and the top byte, with the byte that enters, selects what is added to them
(42_crc32.md R151). -/
theorem crcByte_eq_lookup (c : CrcWord) (x : Byte) :
    crcByte c x = c <<< 8 ^^^ crcShifts 8 ((c >>> 24 ^^^ x.setWidth 32) <<< 24) := by
  have hlow : ((c <<< 8) >>> 8).toNat < 2 ^ (32 - 8) := by
    have hlt : (c <<< 8).toNat < 2 ^ 32 := BitVec.isLt _
    rw [BitVec.toNat_ushiftRight, Nat.shiftRight_eq_div_pow]
    omega
  have hup : ((c <<< 8) >>> 8) <<< 8 = c <<< 8 := by
    apply BitVec.eq_of_getLsbD_eq
    intro i hi
    simp only [BitVec.getLsbD_shiftLeft, BitVec.getLsbD_ushiftRight]
    by_cases h : i < 8
    · simp [h]
    · simp [h, hi, show 8 + (i - 8) = i by omega]
  calc crcByte c x = crcShifts 8 (((c >>> 24) <<< 24 ^^^ (c <<< 8) >>> 8) ^^^ x.setWidth 32 <<< 24) := by
        rw [← crc_split, crcByte]
    _ = crcShifts 8 ((c <<< 8) >>> 8 ^^^ (c >>> 24 ^^^ x.setWidth 32) <<< 24) := by
        rw [BitVec.shiftLeft_xor_distrib, crcWord_xor_rotate]
    _ = _ := by rw [crcShifts_xor, crcShifts_of_lt (by decide) hlow, hup]

/-- The lookup over naturals. -/
theorem toNat_crcByte_eq_lookup (c : CrcWord) (x : Byte) :
    (crcByte c x).toNat
      = (c.toNat * 256 % 2 ^ 32) ^^^ crcRefShift^[8] ((c.toNat / 2 ^ 24 ^^^ x.toNat) * 2 ^ 24) := by
  have hc : c.toNat / 2 ^ 24 < 2 ^ 8 := by
    have hlt : c.toNat < 2 ^ 32 := c.isLt
    omega
  have hx : x.toNat < 2 ^ 8 := x.isLt
  have hxor := Nat.xor_lt_two_pow hc hx
  have htop : ((c >>> 24 ^^^ x.setWidth 32) <<< 24).toNat = (c.toNat / 2 ^ 24 ^^^ x.toNat) * 2 ^ 24 := by
    rw [BitVec.toNat_shiftLeft, BitVec.toNat_xor, BitVec.toNat_ushiftRight, BitVec.toNat_setWidth,
      Nat.mod_eq_of_lt (by omega : x.toNat < 2 ^ 32), Nat.shiftRight_eq_div_pow, Nat.shiftLeft_eq,
      Nat.mod_eq_of_lt (by omega)]
  rw [crcByte_eq_lookup, BitVec.toNat_xor, toNat_crcShifts, htop, BitVec.toNat_shiftLeft, Nat.shiftLeft_eq]

theorem crcTableDriven_eq (b : Bytes) : crcTableDriven b = (crc32 b).toNat := by
  rw [crc32_eq_crcFrom, crcTableDriven, show (0xFFFFFFFF : Nat) = Config.crcInit.toNat from rfl]
  generalize Config.crcInit = c
  induction b generalizing c with
  | nil => rfl
  | cons x b ih =>
    rw [List.foldl_cons, ← toNat_crcByte_eq_lookup, ih]
    rfl

/-! ### The residue -/

/-- The register's own top byte is shifted out and adds nothing. -/
theorem crcByte_of_top {c : CrcWord} {x : Byte} (h : c.toNat / 2 ^ 24 = x.toNat) : crcByte c x = c <<< 8 := by
  have hsame : c >>> 24 = x.setWidth 32 := by
    have hx : x.toNat < 256 := x.isLt
    apply BitVec.eq_of_toNat_eq
    rw [BitVec.toNat_ushiftRight, BitVec.toNat_setWidth, Nat.shiftRight_eq_div_pow, h]
    omega
  rw [crcByte_eq_lookup, hsame, BitVec.xor_self, BitVec.zero_shiftLeft, crcShifts_zero, BitVec.xor_zero]

/-- The register's own bytes, most significant first, shift it out. -/
theorem crcFrom_be32 (c : CrcWord) : crcFrom c (be32 c.toNat) = 0#32 := by
  have hlt : c.toNat < 2 ^ 32 := c.isLt
  have hbyte (k : Nat) (v : Nat) (h : c.toNat * 2 ^ k % 2 ^ 32 / 2 ^ 24 = v % 256) :
      crcByte (c <<< k) (BitVec.ofNat 8 v) = c <<< (k + 8) := by
    rw [crcByte_of_top, BitVec.shiftLeft_add]
    rw [BitVec.toNat_shiftLeft, Nat.shiftLeft_eq, BitVec.toNat_ofNat]
    exact h
  have h0 := hbyte 0 (c.toNat / 2 ^ 24) (by omega)
  rw [BitVec.shiftLeft_zero] at h0
  simp only [crcFrom, be32, List.foldl_cons, List.foldl_nil]
  rw [h0, hbyte 8 _ (by omega), hbyte 16 _ (by omega), hbyte 24 _ (by omega)]
  exact BitVec.shiftLeft_eq_zero (by decide)

theorem crcFrom_append (c : CrcWord) (a b : Bytes) : crcFrom c (a ++ b) = crcFrom (crcFrom c a) b :=
  List.foldl_append

/-! ### The register bit by bit -/

/-- One bit enters the register at the top. -/
def crcBit (c : CrcWord) (b : Bool) : CrcWord := crcShift (c ^^^ BitVec.ofNat 32 b.toNat <<< 31)

/-- The register after a bit string, from `c`. -/
def crcBits (c : CrcWord) (s : Bits) : CrcWord := s.foldl crcBit c

theorem crcBits_cons (c : CrcWord) (b : Bool) (s : Bits) : crcBits c (b :: s) = crcBits (crcBit c b) s := rfl

theorem crcBits_append (c : CrcWord) (s t : Bits) : crcBits c (s ++ t) = crcBits (crcBits c s) t := List.foldl_append

theorem crcBit_zero : ∀ b : Bool, crcBit 0#32 b = crcFeedback b := by decide

/-- What the register held and what entered it add up. -/
theorem crcBits_xor (c d : CrcWord) (s : Bits) : crcBits (c ^^^ d) s = crcBits c s ^^^ crcShifts s.length d := by
  induction s generalizing c d with
  | nil => rfl
  | cons b s ih =>
    have hbit : crcBit (c ^^^ d) b = crcBit c b ^^^ crcShift d := by
      rw [crcBit, crcBit, ← crcShift_xor, crcWord_xor_right_comm]
    rw [crcBits_cons, hbit, ih]
    rfl

theorem crcBits_eq_zero_xor (c : CrcWord) (s : Bits) : crcBits c s = crcBits 0#32 s ^^^ crcShifts s.length c := by
  rw [← crcBits_xor, BitVec.zero_xor]

/-- Bits that enter one by one are a field aligned with the top of the register that enters at once. -/
theorem crcBits_bitsOf {v w : Nat} (hw : w ≤ 32) :
    crcBits 0#32 (bitsOf v w) = crcShifts w (BitVec.ofNat 32 v <<< (32 - w)) := by
  induction w with
  | zero => simp [crcBits, crcShifts]
  | succ w ih =>
    have hmsb : (BitVec.ofNat 32 v <<< (32 - (w + 1))).msb = v.testBit w := by
      rw [BitVec.msb_eq_getLsbD_last, BitVec.getLsbD_shiftLeft, BitVec.getLsbD_ofNat]
      simp [show 31 - (31 - w) = w by omega, show w < 32 by omega]
    rw [bitsOf, crcBits_cons, crcBit_zero, crcBits_eq_zero_xor, ih (by omega), bitsOf_length, crcShifts, crcShift_eq,
      hmsb, ← BitVec.shiftLeft_add, show 32 - (w + 1) + 1 = 32 - w by omega, crcShifts_xor]

/-- A byte enters the register bit by bit (42_crc32.md R151). -/
theorem crcByte_eq_crcBits (c : CrcWord) (x : Byte) : crcByte c x = crcBits c (bitsOf x.toNat 8) := by
  rw [crcBits_eq_zero_xor, crcBits_bitsOf (by decide), bitsOf_length, BitVec.ofNat_toNat, crcByte, crcShifts_xor, BitVec.xor_comm]

theorem crcFrom_eq_crcBits (c : CrcWord) (b : Bytes) : crcFrom c b = crcBits c (unpack b) := by
  induction b generalizing c with
  | nil => rfl
  | cons x b ih =>
    rw [unpack_cons, crcBits_append, ← crcByte_eq_crcBits, ← ih]
    rfl

/-! ### Error detection -/

/-- Different registers stay different whatever enters them. -/
theorem crcBits_injective (s : Bits) : Function.Injective fun c => crcBits c s := by
  intro c d h
  have h : crcBits c s = crcBits d s := h
  rw [crcBits_eq_zero_xor c, crcBits_eq_zero_xor d] at h
  exact crcShifts_injective _ (BitVec.xor_right_inj _ |>.1 h)

/-- Different windows of at most 32 bits leave different registers. -/
theorem eq_of_crcBits_eq {c : CrcWord} {d e : Bits} (hlen : d.length = e.length) (h32 : d.length ≤ 32)
    (h : crcBits c d = crcBits c e) : d = e := by
  have hzero : crcBits 0#32 d = crcBits 0#32 e := by
    rw [crcBits_eq_zero_xor c, crcBits_eq_zero_xor c e, hlen] at h
    exact BitVec.xor_left_inj _ |>.1 h
  have htop (s : Bits) (hs : s.length ≤ 32) :
      (BitVec.ofNat 32 (val s) <<< (32 - s.length)).toNat = val s * 2 ^ (32 - s.length) := by
    have hv := val_lt s
    have hpow : 2 ^ s.length * 2 ^ (32 - s.length) = 2 ^ 32 := by
      rw [← pow_add]
      congr 1
      omega
    have hlt : val s * 2 ^ (32 - s.length) < 2 ^ 32 := hpow ▸ Nat.mul_lt_mul_of_pos_right hv (Nat.two_pow_pos _)
    have hle : 2 ^ s.length ≤ 2 ^ 32 := Nat.pow_le_pow_right (by decide) hs
    rw [BitVec.toNat_shiftLeft, BitVec.toNat_ofNat, Nat.shiftLeft_eq, Nat.mod_eq_of_lt (hv.trans_le hle),
      Nat.mod_eq_of_lt hlt]
  rw [← bitsOf_val d, ← bitsOf_val e, crcBits_bitsOf h32, crcBits_bitsOf (hlen ▸ h32), ← hlen] at hzero
  have hval := congrArg BitVec.toNat (crcShifts_injective _ hzero)
  rw [htop d h32, hlen, htop e (hlen ▸ h32)] at hval
  rw [← bitsOf_val d, ← bitsOf_val e, hlen, Nat.eq_of_mul_eq_mul_right (Nat.two_pow_pos _) hval]

/-! ### The obligations -/

/-- Settles O23: the register over naturals. -/
theorem crcComputeReturnsTheCrc : Obligations.CrcComputeReturnsTheCrc := by
  refine ⟨rfl, fun s => ⟨?_, ?_⟩⟩
  · rw [crcReference_eq]
    rfl
  · rw [crcReference_eq]
    exact BitVec.isLt _

/-- Settles O24: the comparison with the CRC, which is below 2^32. -/
theorem crcVerifyComparesWithTheCrc : Obligations.CrcVerifyComparesWithTheCrc := by
  refine ⟨rfl, fun s => ⟨?_, fun h => ?_⟩⟩
  · apply exec_of_compositeResponse
    rw [compositeResponse, crcReference_eq, flagBit]
    simp only [decide_eq_true_eq]
  · rw [crcReference_eq]
    exact ((BitVec.isLt _).trans_le h).ne

/-- Settles O25: `crcByte_eq_lookup`, byte by byte. -/
theorem tableDrivenCrcIsTheBitwiseCrc : Obligations.TableDrivenCrcIsTheBitwiseCrc := crcTableDriven_eq

/-- Settles O26: after the data the register holds the CRC, whose own bytes shift it out. -/
theorem crcOfDataAndItsCrcIsZero : Obligations.CrcOfDataAndItsCrcIsZero := by
  intro b
  rw [crc32_eq_crcFrom, crcFrom_append, ← crc32_eq_crcFrom]
  exact crcFrom_be32 _

/-- Settles O27: the register is the same before the window, different after it, and stays different. -/
theorem crcDetectsEveryBurstOfAtMost32Bits : Obligations.CrcDetectsEveryBurstOfAtMost32Bits := by
  intro b c p d e q hb hc hlen h32 hne h
  rw [crc32_eq_crcFrom, crc32_eq_crcFrom, crcFrom_eq_crcBits, crcFrom_eq_crcBits, hb, hc, crcBits_append,
    crcBits_append _ _ q, crcBits_append, crcBits_append _ p e] at h
  exact hne (eq_of_crcBits_eq hlen h32 (crcBits_injective q h))

end Sys2Proof.Machine
end

section
/-! Fields by position: the value of `w` bits of a byte string from bit `c` on, as a number made of the bytes they stand in
(00_scope.md R8; 20_memory.md R41, R42), and what is inside a piece of a longer string. -/

namespace Sys2Proof.Machine

/-! ### Bits of pieces -/

/-- A bit of a byte by its place in it. -/
theorem bitAt_byte (b : Bytes) (k : Nat) {i : Nat} (hi : i < 8) :
    bitAt b (8 * k + i) = (b.getD k 0#8).getLsbD (7 - i) := by
  rw [bitAt, Nat.mul_add_div (by decide), Nat.div_eq_of_lt hi, Nat.add_zero, Nat.mul_add_mod, Nat.mod_eq_of_lt hi,
    BitVec.getMsbD_eq_getLsbD]
  simp [hi]

theorem bitAt_append_left {a : Bytes} {n : Nat} (h : n < 8 * a.length) (b : Bytes) : bitAt (a ++ b) n = bitAt a n := by
  rw [bitAt, bitAt, List.getD_append _ _ _ _ (by omega)]

theorem bitAt_append_right (a b : Bytes) (n : Nat) : bitAt (a ++ b) (8 * a.length + n) = bitAt b n := by
  rw [bitAt, bitAt, Nat.mul_add_div (by decide), Nat.mul_add_mod, List.getD_append_right _ _ _ _ (by omega),
    Nat.add_sub_cancel_left]

/-! ### Fields -/

/-- The value of the `w` bits from bit `c` on, zero past the end (00_scope.md R8). -/
def fieldAt (b : Bytes) (c w : Nat) : Nat := val ((List.range w).map fun j => bitAt b (c + j))

theorem fieldAt_lt (b : Bytes) (c w : Nat) : fieldAt b c w < 2 ^ w := by
  simpa [fieldAt] using val_lt ((List.range w).map fun j => bitAt b (c + j))

theorem fieldAt_congr {a b : Bytes} {c d w : Nat} (h : ∀ j < w, bitAt a (c + j) = bitAt b (d + j)) :
    fieldAt a c w = fieldAt b d w := by
  rw [fieldAt, fieldAt]
  congr 1
  exact List.map_congr_left fun j hj => h j (List.mem_range.1 hj)

/-- A field is its high part and its low part. -/
theorem fieldAt_add (b : Bytes) (c v w : Nat) :
    fieldAt b c (v + w) = fieldAt b c v * 2 ^ w + fieldAt b (c + v) w := by
  rw [fieldAt, List.range_add, List.map_append, val_append, List.length_map, List.length_map,
    List.length_range, List.map_map]
  simp only [fieldAt, Function.comp_def, Nat.add_assoc]

theorem fieldAt_one (b : Bytes) (c : Nat) : fieldAt b c 1 = (bitAt b c).toNat := by
  simp [fieldAt, val_cons]

/-- A field inside one byte. -/
theorem fieldAt_inside (b : Bytes) (k : Nat) {i w : Nat} (h : i + w ≤ 8) :
    fieldAt b (8 * k + i) w = (b.getD k 0#8).toNat / 2 ^ (8 - i - w) % 2 ^ w := by
  rw [← val_bitsOf_mod, fieldAt]
  congr 1
  apply List.ext_getElem?
  intro j
  by_cases hj : j < w
  · rw [bitsOf_getElem? _ _ _ hj, List.getElem?_map, List.getElem?_range hj, Option.map_some, Nat.add_assoc,
      bitAt_byte b k (by omega), Nat.testBit_div_two_pow, BitVec.getLsbD]
    congr 2
    omega
  · rw [List.getElem?_eq_none (by simpa using hj), List.getElem?_eq_none (by simpa using hj)]

theorem fieldAt_byte (b : Bytes) (k : Nat) : fieldAt b (8 * k) 8 = (b.getD k 0#8).toNat := by
  have h := fieldAt_inside b k (i := 0) (w := 8) (by decide)
  rwa [Nat.add_zero, Nat.sub_zero, Nat.sub_self, pow_zero, Nat.div_one, Nat.mod_eq_of_lt (BitVec.isLt _)] at h

/-- Two whole bytes (20_memory.md R42). -/
theorem fieldAt_two_bytes (b : Bytes) (k : Nat) :
    fieldAt b (8 * k) 16 = (b.getD k 0#8).toNat * 256 + (b.getD (k + 1) 0#8).toNat := by
  rw [show 16 = 8 + 8 from rfl, fieldAt_add, fieldAt_byte, ← Nat.mul_add_one, fieldAt_byte]
  rfl

/-- Twelve bits that end with a byte (30_encoding.md R70). -/
theorem fieldAt_low12 (b : Bytes) (k : Nat) :
    fieldAt b (8 * k + 4) 12 = (b.getD k 0#8).toNat % 16 * 256 + (b.getD (k + 1) 0#8).toNat := by
  rw [show 12 = 4 + 8 from rfl, fieldAt_add, fieldAt_inside b k (by decide), Nat.add_assoc, ← Nat.mul_add_one, fieldAt_byte]
  simp

/-- Twelve bits that start with a byte (30_encoding.md R70). -/
theorem fieldAt_high12 (b : Bytes) (k : Nat) :
    fieldAt b (8 * k) 12 = (b.getD k 0#8).toNat * 16 + (b.getD (k + 1) 0#8).toNat / 16 := by
  have hlow := fieldAt_inside b (k + 1) (i := 0) (w := 4) (by decide)
  have hlt : (b.getD (k + 1) 0#8).toNat < 256 := BitVec.isLt _
  rw [Nat.add_zero] at hlow
  rw [show 12 = 8 + 4 from rfl, fieldAt_add, fieldAt_byte, ← Nat.mul_add_one, hlow]
  simp only [Nat.reducePow, Nat.reduceSub]
  omega

/-! ### Fields of pieces -/

theorem fieldAt_append_left {a : Bytes} {c w : Nat} (h : c + w ≤ 8 * a.length) (b : Bytes) :
    fieldAt (a ++ b) c w = fieldAt a c w :=
  fieldAt_congr fun _ hj => bitAt_append_left (by omega) b

theorem fieldAt_append_right (a b : Bytes) (c w : Nat) : fieldAt (a ++ b) (8 * a.length + c) w = fieldAt b c w :=
  fieldAt_congr fun _ _ => by rw [Nat.add_assoc, bitAt_append_right]

/-- A field inside the first `n` bytes. -/
theorem fieldAt_take {b : Bytes} {n c w : Nat} (h : c + w ≤ 8 * n) : fieldAt (b.take n) c w = fieldAt b c w := by
  rcases Nat.le_total b.length n with hb | hb
  · rw [List.take_of_length_le hb]
  · conv_rhs => rw [← List.take_append_drop n b]
    exact (fieldAt_append_left (by rw [List.length_take]; omega) _).symm

/-- Whole bytes are their number, most significant first (20_memory.md R42). -/
theorem beValue_eq_fieldAt (b : Bytes) : beValue b = fieldAt b 0 (8 * b.length) := by
  have hfold (v : Nat) : b.foldl (fun v x => 256 * v + x.toNat) v = v * 2 ^ (8 * b.length) + fieldAt b 0 (8 * b.length) := by
    induction b generalizing v with
    | nil => simp [fieldAt]
    | cons x b ih =>
      have hhead := fieldAt_byte (x :: b) 0
      have htail := fieldAt_append_right [x] b 0 (8 * b.length)
      rw [List.length_cons, Nat.mul_succ, Nat.add_comm (8 * b.length), fieldAt_add, List.foldl_cons, ih, pow_add]
      simp only [List.singleton_append, List.length_singleton, Nat.mul_one, Nat.add_zero, Nat.mul_zero,
        List.getD_cons_zero] at hhead htail
      rw [hhead, Nat.zero_add, htail]
      ring
  simpa [beValue] using hfold 0

/-- A 33-bit value in five bytes is their last 33 bits (30_encoding.md R78). -/
theorem value33_eq_fieldAt {b : Bytes} (h : b.length = 5) : value33 b = fieldAt b 7 33 := by
  cases b with
  | nil => cases h
  | cons x b =>
    have hb : b.length = 4 := Nat.succ.inj h
    have htop := fieldAt_inside (x :: b) 0 (i := 7) (w := 1) (by decide)
    have hlow := fieldAt_append_right [x] b 0 32
    simp only [List.singleton_append, List.length_singleton, Nat.mul_one, Nat.add_zero, Nat.mul_zero, Nat.zero_add,
      List.getD_cons_zero, Nat.reduceSub, pow_zero, pow_one, Nat.div_one] at htop hlow
    rw [value33, List.getD_cons_zero, List.drop_one, List.tail_cons, beValue_eq_fieldAt, hb, show 33 = 1 + 32 from rfl,
      fieldAt_add, htop, hlow]

end Sys2Proof.Machine
end

section
/-! What a parse does on any input: it reads fields by their place, and ends at the first field that needs a byte past the
bound (40_bitpacker.md R107; 41_splice_command.md R126 to R130; 60_exceptions.md R203). -/

namespace Sys2Proof.Machine

/-! ### The first field that is cut -/

/-- A parse that raises TruncatedInputError at a field that is cut, and goes on as `x` where none is. -/
def orTruncated {α : Type} (cut : Option (Nat × Nat)) (x : Except Error α) : Except Error α :=
  match cut with
  | some f => .error (.truncatedInput f.1)
  | none => x

section
variable {α β : Type} (fs gs : List (Nat × Nat)) (n : Nat)

@[simp] theorem firstCut_nil : firstCut [] n = none := rfl

theorem firstCut_cons (f : Nat × Nat) : firstCut (f :: fs) n = if n < f.2 then some f else firstCut fs n := by
  by_cases h : n < f.2 <;> simp [firstCut, h]

/-- A field read in parts counts once. -/
theorem firstCut_cons_dup (f g : Nat × Nat) : firstCut (f :: g :: g :: fs) n = firstCut (f :: g :: fs) n := by
  simp only [firstCut_cons]
  by_cases h : n < g.2 <;> simp only [h, if_true, if_false]

theorem firstCut_append : firstCut (fs ++ gs) n = (firstCut fs n).or (firstCut gs n) := List.find?_append

theorem firstCut_eq_none {fs : List (Nat × Nat)} {n : Nat} : firstCut fs n = none ↔ ∀ f ∈ fs, f.2 ≤ n := by
  simp [firstCut]

@[simp] theorem orTruncated_none (x : Except Error α) : orTruncated none x = x := rfl

@[simp] theorem orTruncated_some (f : Nat × Nat) (x : Except Error α) :
    orTruncated (some f) x = .error (.truncatedInput f.1) := rfl

theorem orTruncated_bind (cut : Option (Nat × Nat)) (x : Except Error α) (f : α → Except Error β) :
    orTruncated cut x >>= f = orTruncated cut (x >>= f) := by
  cases cut <;> rfl

/-- A parse of some fields and then of others. -/
theorem orTruncated_orTruncated (x : Except Error α) :
    orTruncated (firstCut fs n) (orTruncated (firstCut gs n) x) = orTruncated (firstCut (fs ++ gs) n) x := by
  rw [firstCut_append]
  cases firstCut fs n <;> rfl

/-- Parts of one field, each from its first byte on, are cut where the field is. -/
theorem orTruncated_merge {k e e' : Nat} (h : e ≤ e') (x : Except Error α) :
    orTruncated (firstCut ((k, e) :: (k, e') :: fs) n) x = orTruncated (firstCut ((k, e') :: fs) n) x := by
  simp only [firstCut_cons]
  by_cases he : n < e
  · rw [if_pos he, if_pos (he.trans_le h)]
    rfl
  · rw [if_neg he]

end

/-! ### Readers by position -/

/-- A reader of `b` at bit `j` from byte `k` on, bounded at byte `n`. -/
def readerAt (b : Bytes) (k j n : Nat) : Reader := { buf := b, cur := 8 * k + j, limit := 8 * n }

theorem readerAt_bytes (b : Bytes) (k m n : Nat) : readerAt b k (8 * m) n = readerAt b (k + m) 0 n := by
  simp only [readerAt, Reader.mk.injEq, true_and, and_true]
  omega

theorem Reader.new_eq_readerAt (b : Bytes) : Reader.new b = readerAt b 0 0 b.length := rfl

/-- Inside the buffer the bits at the cursor are the field there. -/
theorem Reader.val_bitsAt {r : Reader} {w : Nat} (h : r.cur + w ≤ 8 * r.buf.length) :
    val (r.bitsAt w) = fieldAt r.buf r.cur w := by
  have hlen : (r.bitsAt w).length = w := by
    simp only [Reader.bitsAt, List.length_take, List.length_drop, unpack_length]
    omega
  rw [fieldAt]
  congr 1
  apply List.ext_getElem (by simp [hlen])
  intro j h1 h2
  rw [Reader.bitsAt_getElem]
  simp

section
variable {b : Bytes} {n : Nat} (hn : n ≤ b.length)
include hn

/-- `ReadField` by position: the field there, or TruncatedInputError at its first byte (40_bitpacker.md R107). -/
theorem readField_readerAt (k j w : Nat) :
    readField (readerAt b k j n) w
      = orTruncated (firstCut [(k + j / 8, k + (j + w + 7) / 8)] n)
          (.ok (fieldAt b (8 * k + j) w, readerAt b k (j + w) n)) := by
  rw [firstCut_cons, firstCut_nil]
  rcases readField_cases (readerAt b k j n) w with ⟨hle, e⟩ | ⟨hlt, e⟩
  · have hle : 8 * k + j + w ≤ 8 * n := hle
    rw [e, if_neg (show ¬n < k + (j + w + 7) / 8 by omega),
      Reader.val_bitsAt (show 8 * k + j + w ≤ 8 * b.length by omega)]
    simp only [readerAt, Reader.advance, Nat.add_assoc, orTruncated_none]
  · have hlt : 8 * n < 8 * k + j + w := hlt
    rw [e, if_pos (show n < k + (j + w + 7) / 8 by omega)]
    simp only [orTruncated_some, readerAt, Nat.mul_add_div (show 0 < 8 by decide)]

theorem readFlag_readerAt (k j : Nat) :
    readFlag (readerAt b k j n)
      = orTruncated (firstCut [(k + j / 8, k + (j + 1 + 7) / 8)] n)
          (.ok (bitAt b (8 * k + j), readerAt b k (j + 1) n)) := by
  rw [readFlag, readField_readerAt hn, orTruncated_bind, fieldAt_one]
  cases bitAt b (8 * k + j) <;> rfl

/-- The first byte of each of `m` single-byte fields from byte `k` on, and the byte after it. -/
def byteSpans (k m : Nat) : List (Nat × Nat) := (List.range m).map fun i => (k + i, k + 1 + i)

omit hn in
theorem byteSpans_succ (k m : Nat) : byteSpans k (m + 1) = (k, k + 1) :: byteSpans (k + 1) m := by
  rw [byteSpans, List.range_succ_eq_map, List.map_cons, List.map_map]
  simp only [byteSpans, Nat.add_zero, List.cons.injEq, true_and]
  exact List.map_congr_left fun i _ => by simp only [Function.comp, Prod.mk.injEq]; omega

/-- `ReadBytes` by position (40_bitpacker.md R109). -/
theorem readBytes_readerAt (k m : Nat) :
    readBytes (readerAt b k 0 n) m
      = orTruncated (firstCut (byteSpans k m) n)
          (.ok ((List.range m).map fun i => BitVec.ofNat 8 (fieldAt b (8 * (k + i)) 8), readerAt b (k + m) 0 n)) := by
  induction m generalizing k with
  | zero => rfl
  | succ m ih =>
    have hnext : readerAt b k (0 + 8) n = readerAt b (k + 1) 0 n := readerAt_bytes b k 1 n
    have hcomm (i : Nat) : k + 1 + i = k + (i + 1) := by omega
    rw [readBytes, readField_readerAt hn, orTruncated_bind, byteSpans_succ, List.range_succ_eq_map, List.map_cons,
      List.map_map]
    change orTruncated _ (readBytes (readerAt b k (0 + 8) n) m >>= _) = _
    rw [hnext, ih, orTruncated_bind, orTruncated_orTruncated]
    simp only [Function.comp_def, hcomm, Nat.add_zero, Nat.succ_eq_add_one]
    rfl

end

/-! ### Bodies -/

/-- A splice_time or a break_duration after its first bit: the 33 bits of its ticks. -/
def ticksAt (b : Bytes) (k : Nat) : Nat := fieldAt b (8 * k + 7) 33

/-- How long the body of type `ct` is, whose flags byte is `fl` where it is a splice_insert (30_encoding.md R80). -/
def bodyLength (ct : Nat) (fl : Byte) : Nat :=
  if ct = 0x05 then 5 + (if fl.getLsbD 3 then 0 else 5) + (if fl.getLsbD 4 then 5 else 0) else 5

/-- The fields of a body that starts at byte `k`, in read order (30_encoding.md R73, R77). -/
def bodySpansAt (k ct : Nat) (fl : Byte) : List (Nat × Nat) :=
  if ct = 0x05 then
    [(k, k + 4), (k + 4, k + 5)] ++ (if fl.getLsbD 3 then [] else [(k + 5, k + 10)])
      ++ (if fl.getLsbD 4 then [(k + bodyLength ct fl - 5, k + bodyLength ct fl)] else [])
  else [(k, k + 5)]

theorem bodyEnd_eq (ct : Nat) (fl : Byte) : bodyEnd ct fl = 14 + bodyLength ct fl := by
  unfold bodyEnd bodyLength
  split <;> omega

theorem bodySpans_eq (ct : Nat) (fl : Byte) : bodySpans ct fl = bodySpansAt 14 ct fl := by
  rw [bodySpans, bodySpansAt, bodyEnd_eq]

/-- The splice_insert record at byte `k`, each field by its place (30_encoding.md R73, R74). -/
def insertAt (b : Bytes) (k : Nat) : SpliceInsertOut :=
  let fl := b.getD (k + 4) 0#8
  let q := k + 5 + (if fl.getLsbD 3 then 0 else 5)
  { eventId := fieldAt b (8 * k) 32, cancelIndicator := fl.getLsbD 7, outOfNetwork := fl.getLsbD 6,
    programSplice := fl.getLsbD 5, durationFlag := fl.getLsbD 4, immediate := fl.getLsbD 3,
    spliceTimePts := if fl.getLsbD 3 then none else some (ticksAt b (k + 5)),
    breakDuration :=
      if fl.getLsbD 4 then some { autoReturn := bitAt b (8 * q), durationTicks := ticksAt b q } else none }

/-- The command of type `ct` at byte `k`. -/
def commandAt (b : Bytes) (k ct : Nat) : SpliceCommandOut :=
  if ct = 0x05 then .insert (insertAt b k) else .timeSignal (ticksAt b k)

theorem ok_bind {α β : Type} (a : α) (f : α → Except Error β) : (Except.ok a : Except Error α) >>= f = f a := rfl

section
variable {b : Bytes} {n : Nat} (hn : n ≤ b.length)
include hn

/-- `DecodeSpliceTime` by position: one field of five bytes (41_splice_command.md R126). -/
theorem decodeSpliceTime_readerAt (k : Nat) :
    decodeSpliceTime (readerAt b k 0 n)
      = orTruncated (firstCut [(k, k + 5)] n) (.ok (ticksAt b k, readerAt b (k + 5) 0 n)) := by
  simp only [decodeSpliceTime, readField_readerAt hn, orTruncated_bind, ok_bind, orTruncated_orTruncated,
    List.singleton_append, Config.ptsBits]
  rw [orTruncated_merge _ _ (by omega), orTruncated_merge _ _ (by omega), ← readerAt_bytes]
  rfl

/-- `DecodeBreakDuration` by position: one field of five bytes (41_splice_command.md R127). -/
theorem decodeBreakDuration_readerAt (k : Nat) :
    decodeBreakDuration (readerAt b k 0 n)
      = orTruncated (firstCut [(k, k + 5)] n)
          (.ok ({ autoReturn := bitAt b (8 * k), durationTicks := ticksAt b k }, readerAt b (k + 5) 0 n)) := by
  simp only [decodeBreakDuration, readField_readerAt hn, readFlag_readerAt hn, orTruncated_bind, ok_bind,
    orTruncated_orTruncated, List.singleton_append, Config.ptsBits]
  rw [orTruncated_merge _ _ (by omega), orTruncated_merge _ _ (by omega), ← readerAt_bytes]
  rfl

theorem decodeOptSpliceTime_readerAt (absent : Bool) (k : Nat) :
    decodeOptSpliceTime absent (readerAt b k 0 n)
      = orTruncated (firstCut (if absent then [] else [(k, k + 5)]) n)
          (.ok (if absent then none else some (ticksAt b k), readerAt b (k + (if absent then 0 else 5)) 0 n)) := by
  cases absent
  · simp only [decodeOptSpliceTime, decodeSpliceTime_readerAt hn, orTruncated_bind]
    rfl
  · rfl

theorem decodeOptBreakDuration_readerAt (present : Bool) (k : Nat) :
    decodeOptBreakDuration present (readerAt b k 0 n)
      = orTruncated (firstCut (if present then [(k, k + 5)] else []) n)
          (.ok (if present then some { autoReturn := bitAt b (8 * k), durationTicks := ticksAt b k } else none,
            readerAt b (k + (if present then 5 else 0)) 0 n)) := by
  cases present
  · rfl
  · simp only [decodeOptBreakDuration, decodeBreakDuration_readerAt hn, orTruncated_bind]
    rfl

/-- `DecodeInsertBody` by position (41_splice_command.md R128). -/
theorem decodeInsertBody_readerAt (k : Nat) :
    decodeInsertBody (readerAt b k 0 n)
      = orTruncated (firstCut (bodySpansAt k 0x05 (b.getD (k + 4) 0#8)) n)
          (.ok (.insert (insertAt b k), readerAt b (k + bodyLength 0x05 (b.getD (k + 4) 0#8)) 0 n)) := by
  have hflag (i : Nat) (hi : i < 8) : bitAt b (8 * k + (32 + i)) = (b.getD (k + 4) 0#8).getLsbD (7 - i) := by
    rw [← bitAt_byte b (k + 4) hi]
    congr 1
    omega
  have h0 := hflag 0 (by decide)
  have h1 := hflag 1 (by decide)
  have h2 := hflag 2 (by decide)
  have h3 := hflag 3 (by decide)
  have h4 := hflag 4 (by decide)
  have hbody : readerAt b k 40 n = readerAt b (k + 5) 0 n := readerAt_bytes b k 5 n
  simp only [Nat.reduceAdd, Nat.reduceSub] at h0 h1 h2 h3 h4
  simp only [decodeInsertBody, readField_readerAt hn, readFlag_readerAt hn, orTruncated_bind, ok_bind, Nat.reduceAdd,
    h0, h1, h2, h3, h4, hbody, decodeOptSpliceTime_readerAt hn, decodeOptBreakDuration_readerAt hn,
    orTruncated_orTruncated, List.cons_append, List.nil_append, Nat.reduceDiv]
  simp only [firstCut_cons_dup, bodySpansAt, bodyLength, insertAt, if_true]
  cases (b.getD (k + 4) 0#8).getLsbD 3 <;> cases (b.getD (k + 4) 0#8).getLsbD 4 <;> rfl

/-- `DecodeTimeSignalBody` by position (41_splice_command.md R129). -/
theorem decodeTimeSignalBody_readerAt (k : Nat) :
    decodeTimeSignalBody (readerAt b k 0 n)
      = orTruncated (firstCut [(k, k + 5)] n) (.ok (.timeSignal (ticksAt b k), readerAt b (k + 5) 0 n)) := by
  simp only [decodeTimeSignalBody, decodeSpliceTime_readerAt hn, orTruncated_bind]
  rfl

/-- `DecodeBody` by position, for a supported type (41_splice_command.md R130). -/
theorem decodeBody_readerAt {ct : Nat} (hct : ct = 0x05 ∨ ct = 0x06) (k : Nat) :
    decodeBody ct (readerAt b k 0 n)
      = orTruncated (firstCut (bodySpansAt k ct (b.getD (k + 4) 0#8)) n)
          (.ok (commandAt b k ct, readerAt b (k + bodyLength ct (b.getD (k + 4) 0#8)) 0 n)) := by
  rcases hct with rfl | rfl
  · exact decodeInsertBody_readerAt hn k
  · exact decodeTimeSignalBody_readerAt hn k

end

end Sys2Proof.Machine
end

section
/-! Command bodies (41_splice_command.md R122 to R135): what a decode of a body answers, by the places of its fields, and
that it undoes the encode. -/

namespace Sys2Proof.Machine

/-! ### Where a body is cut -/

/-- No field of a body is cut where the whole body is inside the bound. -/
theorem firstCut_bodySpansAt_eq_none {k ct n : Nat} {fl : Byte} :
    firstCut (bodySpansAt k ct fl) n = none ↔ k + bodyLength ct fl ≤ n := by
  rw [firstCut_eq_none, bodySpansAt, bodyLength]
  split
  · cases fl.getLsbD 3 <;> cases fl.getLsbD 4 <;> simp <;> omega
  · simp

section
variable {s : State} {i : Instr} {ct : Nat}

/-- An instruction that answers with the body of type `ct` in the request's bytes. -/
theorem exec_of_decodeBody (hct : ct = 0x05 ∨ ct = 0x06)
    (h : compositeResponse i s.req
      = some (.ofExcept ((decodeBody ct (Reader.new s.req.bytes)).map bodyResponse))) :
    (∀ k e, firstCut (bodySpansAt 0 ct (s.req.bytes.getD 4 0#8)) s.req.bytes.length = some (k, e) →
        exec i s = .next (s.answered (Error.truncatedInput k).response)) ∧
      (bodyLength ct (s.req.bytes.getD 4 0#8) ≤ s.req.bytes.length →
        exec i s = .next (s.answered
          (Response.okCommand (commandAt s.req.bytes 0 ct) (bodyLength ct (s.req.bytes.getD 4 0#8))))) := by
  rw [Reader.new_eq_readerAt, decodeBody_readerAt le_rfl hct, Nat.zero_add] at h
  refine ⟨fun k e hcut => ?_, fun hlen => ?_⟩
  · rw [hcut] at h
    exact exec_of_compositeResponse h
  · rw [firstCut_bodySpansAt_eq_none.2 (by omega)] at h
    rw [exec_of_compositeResponse h]
    simp [Response.ofExcept, Except.map, bodyResponse, readerAt]

end

/-! ### The fields of a body laid out in pieces -/

/-- The 33 bits of five bytes that stand after others (30_encoding.md R78). -/
theorem ticksAt_append (a rest : Bytes) {t : Bytes} (ht : t.length = 5) :
    ticksAt (a ++ (t ++ rest)) a.length = value33 t := by
  rw [ticksAt, fieldAt_append_right, fieldAt_append_left (by omega), value33_eq_fieldAt ht]

theorem bitAt_append (a rest : Bytes) {t : Bytes} (ht : t.length = 5) :
    bitAt (a ++ (t ++ rest)) (8 * a.length) = bitAt t 0 := by
  rw [← Nat.add_zero (8 * a.length), bitAt_append_right, bitAt_append_left (by omega)]

theorem getD_pieces {eid : Bytes} (heid : eid.length = 4) (fl : Byte) (tb bb rest : Bytes) :
    (eid ++ [fl] ++ tb ++ bb ++ rest).getD 4 0#8 = fl := by
  simp [← heid]

/-- A splice_insert body in pieces: event id, flags byte, splice_time and break_duration (30_encoding.md R73). -/
theorem insertAt_pieces {eid tb bb : Bytes} {fl : Byte} (rest : Bytes) (heid : eid.length = 4)
    (htb : tb.length = if fl.getLsbD 3 then 0 else 5) (hbb : bb.length = if fl.getLsbD 4 then 5 else 0) :
    insertAt (eid ++ [fl] ++ tb ++ bb ++ rest) 0
      = { eventId := beValue eid, cancelIndicator := fl.getLsbD 7, outOfNetwork := fl.getLsbD 6,
          programSplice := fl.getLsbD 5, durationFlag := fl.getLsbD 4, immediate := fl.getLsbD 3,
          spliceTimePts := if fl.getLsbD 3 then none else some (value33 tb),
          breakDuration :=
            if fl.getLsbD 4 then some { autoReturn := bitAt bb 0, durationTicks := value33 bb } else none } := by
  have hfl := getD_pieces heid fl tb bb rest
  have hid : fieldAt (eid ++ [fl] ++ tb ++ bb ++ rest) (8 * 0) 32 = beValue eid := by
    rw [beValue_eq_fieldAt, heid]
    simpa using fieldAt_append_left (a := eid) (c := 0) (w := 32) (by omega) ([fl] ++ (tb ++ (bb ++ rest)))
  have hhead : (eid ++ [fl]).length = 5 := by simp [heid]
  simp only [insertAt, Nat.zero_add, hfl, hid]
  congr 1
  · split
    · rfl
    · next him =>
      rw [if_neg him] at htb
      have ht := ticksAt_append (eid ++ [fl]) (bb ++ rest) htb
      rw [hhead] at ht
      simpa using ht
  · split
    · next hdf =>
      rw [if_pos hdf] at hbb
      have hq : 5 + (if fl.getLsbD 3 then 0 else 5) = (eid ++ [fl] ++ tb).length := by
        rw [List.length_append, hhead, htb]
      have ht := ticksAt_append (eid ++ [fl] ++ tb) rest hbb
      have ha := bitAt_append (eid ++ [fl] ++ tb) rest hbb
      rw [← hq, ← List.append_assoc] at ht ha
      rw [ht, ha]
    · rfl

/-! ### The decode statements -/

/-- Settles O16: the body is whole, and its fields stand in the pieces. -/
theorem spliceInsertBodyDecodes : Obligations.SpliceInsertBodyDecodes := by
  intro s eid fl tb bb rest hbytes heid htb hbb t
  have hfl : s.req.bytes.getD 4 0#8 = fl := by rw [hbytes, getD_pieces heid]
  have hlen : bodyLength 0x05 fl = 5 + tb.length + bb.length := by
    rw [htb, hbb]
    rfl
  have hexec : exec .spliceInsert s = .next t := by
    rw [(exec_of_decodeBody (i := .spliceInsert) (s := s) (.inl rfl) rfl).2 (by rw [hfl, hlen, hbytes]; simp; omega), hfl,
      hlen, commandAt, if_pos rfl, hbytes, insertAt_pieces rest heid htb hbb]
  exact ⟨hexec, fun hct => (exec_scDecode_of_decodeType (by rw [hct]; rfl)).trans hexec⟩

/-- Settles O17: the first field that is cut, by the length of the input. -/
theorem spliceInsertBodyCutShortIsTruncated : Obligations.SpliceInsertBodyCutShortIsTruncated := by
  intro s b fl after trunc
  have htrunc (k e : Nat) (h : firstCut (bodySpansAt 0 0x05 fl) b.length = some (k, e)) :
      exec .spliceInsert s = trunc k :=
    (exec_of_decodeBody (i := .spliceInsert) (s := s) (.inl rfl) rfl).1 k e h
  have hspans : bodySpansAt 0 0x05 fl
      = (0, 4) :: (4, 5) :: ((if fl.getLsbD 3 then [] else [(5, 10)]) ++
          if fl.getLsbD 4 then [(after, after + 5)] else []) := by
    simp only [bodySpansAt, bodyLength, after]
    cases fl.getLsbD 3 <;> cases fl.getLsbD 4 <;> rfl
  rw [hspans] at htrunc
  refine ⟨fun h => htrunc 0 4 ?_, fun h => htrunc 4 5 ?_, fun h5 ha => htrunc 5 10 ?_,
    fun ha hdf h => htrunc after (after + 5) ?_⟩
  · rw [firstCut_cons, if_pos h]
  · rw [firstCut_cons, if_neg (by omega), firstCut_cons, if_pos (by omega)]
  · cases him : fl.getLsbD 3 with
    | true =>
      simp only [after, him, if_true] at ha
      omega
    | false =>
      simp only [after, him, Bool.false_eq_true, if_false] at ha
      rw [firstCut_cons, if_neg (by omega), firstCut_cons, if_neg (by omega)]
      exact (firstCut_cons _ _ _).trans (if_pos ha)
  · cases him : fl.getLsbD 3 with
    | true =>
      simp only [after, him, if_true] at ha h ⊢
      simp only [hdf, if_true, List.nil_append, firstCut_cons]
      rw [if_neg (by omega), if_neg (by omega), if_pos h]
    | false =>
      simp only [after, him, Bool.false_eq_true, if_false] at ha h ⊢
      simp only [hdf, if_true, List.cons_append, List.nil_append, firstCut_cons]
      rw [if_neg (by omega), if_neg (by omega), if_neg (by omega), if_pos h]

/-- Settles O18: a time_signal body is one field of five bytes, on either side of its end. -/
theorem timeSignalBodyDecodes : Obligations.TimeSignalBodyDecodes := by
  intro s
  have hsc (hct : s.req.ctype = 0x06) : exec .scDecode s = exec .timeSignal s :=
    exec_scDecode_of_decodeType (by rw [hct]; rfl)
  obtain ⟨hcut, hwhole⟩ := exec_of_decodeBody (i := .timeSignal) (s := s) (ct := 0x06) (.inr rfl) rfl
  constructor
  · intro hlen t
    have hexec : exec .timeSignal s = .next t := by
      have hticks : value33 (s.req.bytes.take 5) = ticksAt s.req.bytes 0 := by
        rw [value33_eq_fieldAt (by simpa using hlen), fieldAt_take (by decide), ticksAt]
      rw [hwhole hlen, commandAt, if_neg (by decide), ← hticks]
      rfl
    exact ⟨hexec, fun hct => (hsc hct).trans hexec⟩
  · intro hlen t
    have hexec : exec .timeSignal s = .next t := by
      refine hcut 0 5 ?_
      rw [bodySpansAt, if_neg (by decide), firstCut_cons, if_pos hlen]
    exact ⟨hexec, fun hct => (hsc hct).trans hexec⟩

/-! ### What an encoded body holds -/

/-- A body is encoded exactly where every field fits, and is then its byte view (41_splice_command.md R122, R123). -/
theorem SpliceCommandIn.encodeBody_eq_ok {c : SpliceCommandIn} {b : Bytes} :
    c.encodeBody = .ok b ↔ c.firstOverflow = none ∧ b = c.bodyView := by
  cases h : c.firstOverflow with
  | none =>
    rw [c.encodeBody_of_fits h, Except.ok.injEq]
    simp [eq_comm]
  | some f =>
    obtain ⟨w, v⟩ := f
    rw [c.encodeBody_of_overflow h]
    simp

theorem ite_some_eq_none {α : Type} {p : Prop} [Decidable p] {a : α} {o : Option α} :
    (if p then some a else o) = none ↔ ¬p ∧ o = none := by
  split <;> simp [*]

/-- The read fields of a command fit exactly where none overflows (41_splice_command.md R134). -/
theorem SpliceCommandIn.fitsWire_iff {c : SpliceCommandIn} : c.fitsWire = true ↔ c.firstOverflow = none := by
  cases c with
  | timeSignal pts => simp [fitsWire, firstOverflow, Config.ptsBits]
  | insert i =>
    simp only [fitsWire, SpliceInsertIn.fitsWire, firstOverflow, SpliceInsertIn.firstOverflow, Config.ptsBits]
    cases i.immediate <;> cases i.durationFlag <;> simp [ite_some_eq_none, and_assoc]

theorem be32_length (v : Nat) : (be32 v).length = 4 := rfl

theorem spliceTimeView_length (pts : Nat) : (spliceTimeView pts).length = 5 := rfl

theorem breakDurationView_length (ar : Bool) (d : Nat) : (breakDurationView ar d).length = 5 := rfl

theorem insertBodyView_length (i : SpliceInsertIn) :
    (insertBodyView i).length = 5 + (if i.immediate then 0 else 5) + (if i.durationFlag then 5 else 0) := by
  cases him : i.immediate <;> cases hdf : i.durationFlag <;>
    simp [insertBodyView, him, hdf, be32_length, spliceTimeView_length, breakDurationView_length]

/-- Settles O21: an encoded body is its byte view. -/
theorem insertBodyLengthFollowsTheFlags : Obligations.InsertBodyLengthFollowsTheFlags := by
  intro i b h
  obtain ⟨-, rfl⟩ := SpliceCommandIn.encodeBody_eq_ok (c := .insert i).1 h
  exact insertBodyView_length i

/-- Settles O22: the fields of the body do not mention what is not read. -/
theorem unreadInsertFieldsAreIgnored : Obligations.UnreadInsertFieldsAreIgnored := by
  intro i ps ar pts d
  simp only [encodeInsertBody_eq_appendFields]
  refine ⟨rfl, fun him => ?_, fun hdf => ?_⟩
  · simp only [insertFields, insertHeaderFields, him, if_true]
  · simp only [insertFields, insertHeaderFields, hdf, Bool.false_eq_true, if_false]

/-! ### The round trip of a body -/

/-- A number below 2^32 stands in its four bytes (20_memory.md R42). -/
theorem beValue_be32 {v : Nat} (h : v < 2 ^ 32) : beValue (be32 v) = v := by
  simp only [beValue, be32, List.foldl_cons, List.foldl_nil, BitVec.toNat_ofNat]
  omega

theorem value33_breakDurationView (ar : Bool) {d : Nat} (h : d < 2 ^ 33) : value33 (breakDurationView ar d) = d := by
  have hlow : beValue (be32 d) = d % 2 ^ 32 := by
    simp only [beValue, be32, List.foldl_cons, List.foldl_nil, BitVec.toNat_ofNat]
    omega
  rw [breakDurationView, value33, List.drop_one, List.tail_cons, hlow, List.getD_cons_zero, BitVec.toNat_ofNat]
  cases ar <;> simp only [Bool.toNat_false, Bool.toNat_true] <;> omega

/-- A splice_time is a break_duration with the flag set (30_encoding.md R75, R76). -/
theorem value33_spliceTimeView {pts : Nat} (h : pts < 2 ^ 33) : value33 (spliceTimeView pts) = pts :=
  value33_breakDurationView true h

theorem bitAt_breakDurationView (ar : Bool) {d : Nat} (h : d < 2 ^ 33) : bitAt (breakDurationView ar d) 0 = ar := by
  have htop : ∀ a : Bool, ∀ t < 2, (BitVec.ofNat 8 (a.toNat * 0x80 + 0x7E + t)).getMsbD 0 = a := by decide
  exact htop ar _ (by omega)

/-- The bits of the flags byte (30_encoding.md R74). -/
theorem flagsByte_getLsbD : ∀ cancel out duration immediate : Bool,
    let fl : Byte := BitVec.ofNat 8 (cancel.toNat * 0x80 + out.toNat * 0x40 + 0x20 + duration.toNat * 0x10
      + immediate.toNat * 0x08 + 0x07)
    fl.getLsbD 7 = cancel ∧ fl.getLsbD 6 = out ∧ fl.getLsbD 5 = true ∧ fl.getLsbD 4 = duration ∧
      fl.getLsbD 3 = immediate := by
  decide

/-- An encoded splice_insert body holds `norm` of its record (41_splice_command.md R134). -/
theorem insertAt_insertBodyView {i : SpliceInsertIn} (rest : Bytes) (h : (SpliceCommandIn.insert i).firstOverflow = none) :
    insertAt (insertBodyView i ++ rest) 0 = i.norm := by
  obtain ⟨h7, h6, h5, h4, h3⟩ :=
    flagsByte_getLsbD i.cancelIndicator i.outOfNetwork i.durationFlag i.immediate
  have hfits := SpliceCommandIn.fitsWire_iff.2 h
  simp only [SpliceCommandIn.fitsWire, SpliceInsertIn.fitsWire, Bool.and_eq_true, Bool.or_eq_true, fits_eq_true,
    Bool.not_eq_true'] at hfits
  obtain ⟨⟨hid, hpts⟩, hdur⟩ := hfits
  rw [insertBodyView, insertAt_pieces rest (be32_length _), beValue_be32 hid]
  · simp only [flagsByteView, h7, h6, h5, h4, h3, SpliceInsertIn.norm]
    congr 1
    · split
      · rfl
      · next him => rw [value33_spliceTimeView (hpts.resolve_left him)]
    · split
      · next hdf =>
        have hd := hdur.resolve_left (by simp [hdf])
        rw [value33_breakDurationView _ hd, bitAt_breakDurationView _ hd]
      · rfl
  · rw [flagsByteView, h3]
    split <;> rfl
  · rw [flagsByteView, h4]
    split <;> rfl

/-- The body of a command has the length its type and flags byte call for (30_encoding.md R80). -/
theorem SpliceCommandIn.bodyLength_bodyView (c : SpliceCommandIn) (rest : Bytes) :
    bodyLength c.typeByte ((c.bodyView ++ rest).getD 4 0#8) = c.bodyView.length := by
  cases c with
  | timeSignal pts => rfl
  | insert i =>
    obtain ⟨-, -, -, h4, h3⟩ := flagsByte_getLsbD i.cancelIndicator i.outOfNetwork i.durationFlag i.immediate
    have hfl : (insertBodyView i ++ rest).getD 4 0#8 = flagsByteView i := getD_pieces (be32_length _) _ _ _ _
    rw [bodyView, hfl, insertBodyView_length, flagsByteView, bodyLength, h3, h4]
    rfl

theorem SpliceCommandIn.typeByte_supported (c : SpliceCommandIn) : c.typeByte = 0x05 ∨ c.typeByte = 0x06 := by
  cases c
  · exact .inl rfl
  · exact .inr rfl

/-- An encoded body holds `norm` of its command (41_splice_command.md R134). -/
theorem SpliceCommandIn.commandAt_bodyView {c : SpliceCommandIn} (rest : Bytes) (h : c.firstOverflow = none) :
    commandAt (c.bodyView ++ rest) 0 c.typeByte = c.norm := by
  cases c with
  | insert i => exact congrArg SpliceCommandOut.insert (insertAt_insertBodyView rest h)
  | timeSignal pts =>
    have hpts : pts < 2 ^ 33 := by simpa [SpliceCommandIn.firstOverflow] using h
    have ht := ticksAt_append [] rest (spliceTimeView_length pts)
    rw [value33_spliceTimeView hpts] at ht
    exact congrArg SpliceCommandOut.timeSignal ht

/-- `DecodeBody` undoes the encode of a body (41_splice_command.md R134). -/
theorem SpliceCommandIn.decodeBody_bodyView {c : SpliceCommandIn} (rest : Bytes) (h : c.firstOverflow = none) :
    decodeBody c.typeByte (Reader.new (c.bodyView ++ rest))
      = .ok (c.norm, readerAt (c.bodyView ++ rest) c.bodyView.length 0 (c.bodyView ++ rest).length) := by
  rw [Reader.new_eq_readerAt, decodeBody_readerAt le_rfl c.typeByte_supported, Nat.zero_add,
    c.bodyLength_bodyView rest, firstCut_bodySpansAt_eq_none.2 (by rw [c.bodyLength_bodyView rest]; simp),
    commandAt_bodyView rest h, Nat.zero_add]
  rfl

/-- The form that encodes the body of a command. -/
def SpliceCommandIn.encodeForm : SpliceCommandIn → AsmForm
  | .insert i => .scEncInsert i
  | .timeSignal pts => .scEncTsig pts

/-- The response to a composite form. -/
theorem issue_composite {s : State} {f : AsmForm} {r : Response} (h : compositeResponse f.instr f.request = some r) :
    issue s f = some ((s.issuing f).answered r, r) := by
  have hf : isComposite f.instr = true := by rw [← isSome_compositeResponse _ f.request, h, Option.isSome_some]
  exact issue_of_exec (AsmForm.wf_of_isComposite hf) (exec_of_compositeResponse (s := s.issuing f) h)

theorem SpliceCommandIn.issue_encodeForm {s : State} {c : SpliceCommandIn} (h : c.firstOverflow = none) :
    ∃ t, issue s c.encodeForm = some (t, Response.okBytes c.bodyView) := by
  have he := c.encodeBody_of_fits h
  cases c with
  | insert i =>
    have he : encodeInsertBody i = .ok (insertBodyView i) := he
    exact ⟨_, issue_composite (by simp only [encodeForm, AsmForm.instr, compositeResponse, AsmForm.request, he]; rfl)⟩
  | timeSignal pts =>
    have he : encodeTimeSignalBody pts = .ok (spliceTimeView pts) := he
    exact ⟨_, issue_composite (by simp only [encodeForm, AsmForm.instr, compositeResponse, AsmForm.request, he]; rfl)⟩

/-- SC.DECODE answers what `DecodeBody` gives. -/
theorem issue_scDecode {s : State} {t : Nat} {b : Bytes} {c : SpliceCommandOut} {r : Reader}
    (h : decodeBody t (Reader.new b) = .ok (c, r)) :
    ∃ u, issue s (.scDecode t b) = some (u, Response.okCommand c (r.cur / 8)) := by
  refine ⟨_, issue_composite ?_⟩
  simp only [AsmForm.instr, compositeResponse, AsmForm.request, h]
  rfl

/-- Settles O20: the encode gives the byte view, of which `DecodeBody` gives `norm`. -/
theorem encodedBodiesDecodeToTheirInput : Obligations.EncodedBodiesDecodeToTheirInput := by
  intro s c rest hfit
  have hfit := SpliceCommandIn.fitsWire_iff.1 hfit
  obtain ⟨t, ht⟩ := SpliceCommandIn.issue_encodeForm (s := s) hfit
  obtain ⟨u, hu⟩ := issue_scDecode (s := t) (SpliceCommandIn.decodeBody_bodyView rest hfit)
  refine ⟨t, u, c.bodyView, ?_⟩
  have hlen : (8 * c.bodyView.length + 0) / 8 = c.bodyView.length := by omega
  rw [readerAt, hlen] at hu
  cases c <;> exact ⟨ht, hu⟩

end Sys2Proof.Machine
end

section
/-! SA.DECODE on any input (43_section_assembler.md R166 to R170): a section is its fields by their place, and the parse ends
at the first of them that needs a byte past the bound. -/

namespace Sys2Proof.Machine

/-! ### The places of a section -/

/-- The type byte. -/
def typeAt (b : Bytes) : Nat := (b.getD 13 0#8).toNat

/-- The byte after the body, where the length of the descriptor loop stands (30_encoding.md R70). -/
def loopLengthPlace (b : Bytes) : Nat := bodyEnd (typeAt b) (b.getD 18 0#8)

/-- `descriptor_loop_length`. -/
def loopLengthAt (b : Bytes) : Nat :=
  (b.getD (loopLengthPlace b) 0#8).toNat * 256 + (b.getD (loopLengthPlace b + 1) 0#8).toNat

/-- The first byte of the stored CRC. -/
def crcPlace (b : Bytes) : Nat := loopLengthPlace b + 2 + loopLengthAt b

/-- The type is one SA.DECODE can parse (30_encoding.md R72). -/
def Supported (b : Bytes) : Prop := typeAt b = 0x05 ∨ typeAt b = 0x06

/-- The section, each field by its place (30_encoding.md R70; 43_section_assembler.md R166 to R170). -/
def sectionAt (b : Bytes) : DecodedSection :=
  { tableId := fieldAt b 0 8, sectionFlags4 := fieldAt b 8 4, sectionLength := fieldAt b 12 12,
    protocolVersion := fieldAt b 24 8, encryptedPacket := fieldAt b 32 1, encryptionAlgorithm := fieldAt b 33 6,
    ptsAdjustment := fieldAt b 39 33, cwIndex := fieldAt b 72 8, tier := fieldAt b 80 12,
    spliceCommandLength := fieldAt b 92 12, spliceCommandType := typeAt b, command := commandAt b 14 (typeAt b),
    descriptorLoopLength := loopLengthAt b, crcStored := fieldAt b (8 * crcPlace b) 32,
    crcComputed := (crc32 (b.take (crcPlace b))).toNat, bytesConsumed := crcPlace b + 4 }

/-- The fields of a section after its header. -/
def tailSpans (b : Bytes) : List (Nat × Nat) :=
  bodySpansAt 14 (typeAt b) (b.getD 18 0#8) ++ ([(loopLengthPlace b, loopLengthPlace b + 2)]
    ++ (byteSpans (loopLengthPlace b + 2) (loopLengthAt b) ++ [(crcPlace b, crcPlace b + 4)]))

theorem sectionSpans_of_supported {b : Bytes} (h : Supported b) : sectionSpans b = headerSpans ++ tailSpans b := by
  have hcond : (b.getD 13 0#8).toNat = 0x05 ∨ (b.getD 13 0#8).toNat = 0x06 := h
  have hend (q n : Nat) : q + 6 + n = q + 2 + n + 4 := by omega
  simp only [sectionSpans, if_pos hcond, bodySpans_eq, List.append_assoc, hend]
  rfl

theorem sectionSpans_of_not_supported {b : Bytes} (h : ¬Supported b) : sectionSpans b = headerSpans :=
  if_neg h

/-! ### The bound -/

/-- The bound that `section_length` sets on the fields after it (43_section_assembler.md R167). -/
def sectionLimit (b : Bytes) : Nat := min b.length (3 + fieldAt b 12 12)

theorem sectionLimit_le_length (b : Bytes) : sectionLimit b ≤ b.length := min_le_left _ _

theorem readerAt_bound (b : Bytes) (k j n : Nat) :
    (readerAt b k j n).bound (3 + fieldAt b 12 12) = readerAt b k j (sectionLimit b) := by
  simp [readerAt, Reader.bound, sectionLimit, Nat.mul_min_mul_left]

/-- The fields up to `section_length` are cut by the end of the input, the others by the bound (43_section_assembler.md
R167). -/
theorem orTruncated_bound {α : Type} (b : Bytes) (fs : List (Nat × Nat)) (x : Except Error α) :
    orTruncated (firstCut [(0, 1), (1, 2), (1, 3)] b.length)
        (orTruncated (firstCut fs (sectionLimit b)) x)
      = orTruncated (firstCut ([(0, 1), (1, 2), (1, 3)] ++ fs) (sectionBound b)) x := by
  rw [← orTruncated_orTruncated]
  rcases Nat.lt_or_ge b.length 3 with h | h
  · have hcut : ∃ f, firstCut [(0, 1), (1, 2), (1, 3)] b.length = some f := by
      rw [← Option.isSome_iff_exists, Option.isSome_iff_ne_none, ne_eq, firstCut_eq_none]
      exact fun hall => absurd (hall (1, 3) (by simp)) h.not_ge
    obtain ⟨f, hf⟩ := hcut
    rw [sectionBound, if_pos h, hf]
    rfl
  · have hsl : fieldAt b 12 12 = (b.getD 1 0#8).toNat % 16 * 256 + (b.getD 2 0#8).toNat := fieldAt_low12 b 1
    have hnone (n : Nat) (hn : 3 ≤ n) : firstCut [(0, 1), (1, 2), (1, 3)] n = none := by
      rw [firstCut_eq_none]
      simp [hn, (show 1 ≤ 3 by decide).trans hn, (show 2 ≤ 3 by decide).trans hn]
    rw [sectionBound_eq h, ← hsl, sectionLimit, hnone _ h, hnone _ (le_min h (Nat.le_add_right _ _))]

/-! ### The parse -/

theorem headerSpans_eq : headerSpans = [(0, 1), (1, 2), (1, 3)] ++ headerSpans.drop 3 := rfl

/-- The fields after the header are cut by the bound (43_section_assembler.md R167). -/
theorem orTruncated_header {α : Type} (b : Bytes) (fs : List (Nat × Nat)) (x : Except Error α) :
    orTruncated (firstCut headerSpans (sectionBound b)) (orTruncated (firstCut fs (sectionLimit b)) x)
      = orTruncated (firstCut (headerSpans ++ fs) (sectionBound b)) x := by
  rw [headerSpans_eq, ← orTruncated_bound, orTruncated_orTruncated, orTruncated_bound, List.append_assoc]

/-- What SA.DECODE does after the header (43_section_assembler.md R168 to R170). -/
def decodeAfterHeader (b : Bytes) : Except Error DecodedSection := do
  let (cmd, r) ← decodeBody (typeAt b) (readerAt b 14 0 (sectionLimit b))
  let (dll, r) ← readField r 16
  let (_, r) ← readBytes r dll
  let pos := r.cur / 8
  let (cs, _) ← readField r 32
  return { sectionAt b with
    command := cmd, descriptorLoopLength := dll, crcStored := cs, crcComputed := (crc32 (b.take pos)).toNat,
    bytesConsumed := pos + 4 }

/-- The header is read field by field, each by its place (43_section_assembler.md R166, R167). -/
theorem decodeSection_eq_decodeAfterHeader (b : Bytes) :
    decodeSection b = orTruncated (firstCut headerSpans (sectionBound b)) (decodeAfterHeader b) := by
  have htype : fieldAt b 104 8 = typeAt b := fieldAt_byte b 13
  have hbody (n : Nat) : readerAt b 0 112 n = readerAt b 14 0 n := readerAt_bytes b 0 14 n
  rw [headerSpans_eq, ← orTruncated_bound]
  simp only [decodeSection, Reader.new_eq_readerAt, readField_readerAt le_rfl, readerAt_bound,
    readField_readerAt (sectionLimit_le_length b), orTruncated_bind, ok_bind, Nat.mul_zero, Nat.zero_add, Nat.reduceAdd,
    htype, hbody, Config.ptsBits, Nat.reduceDiv, orTruncated_orTruncated, List.cons_append, List.nil_append,
    firstCut_cons_dup]
  rfl

/-- SA.DECODE of an unsupported type: TruncatedInputError at the first header field that is cut, else
UnsupportedCommandTypeError (43_section_assembler.md R168). -/
theorem decodeSection_of_not_supported {b : Bytes} (h : ¬Supported b) :
    decodeSection b
      = orTruncated (firstCut (sectionSpans b) (sectionBound b)) (.error (.unsupportedCommandType (typeAt b))) := by
  obtain ⟨h5, h6⟩ := not_or.1 h
  rw [decodeSection_eq_decodeAfterHeader, sectionSpans_of_not_supported h, decodeAfterHeader,
    decodeBody_of_unsupported h5 h6]
  rfl

/-- After the header of a supported type the fields are read by their place (43_section_assembler.md R168 to R170). -/
theorem decodeAfterHeader_of_supported {b : Bytes} (h : Supported b) :
    decodeAfterHeader b = orTruncated (firstCut (tailSpans b) (sectionLimit b)) (.ok (sectionAt b)) := by
  have hn := sectionLimit_le_length b
  have hplace : 14 + bodyLength (typeAt b) (b.getD 18 0#8) = loopLengthPlace b := (bodyEnd_eq _ _).symm
  have hloop (k n : Nat) : readerAt b k 16 n = readerAt b (k + 2) 0 n := readerAt_bytes b k 2 n
  have hll : fieldAt b (8 * loopLengthPlace b) 16 = loopLengthAt b := fieldAt_two_bytes b _
  have hcur : (8 * crcPlace b + 0) / 8 = crcPlace b := by omega
  simp only [decodeAfterHeader, decodeBody_readerAt hn h, readField_readerAt hn, readBytes_readerAt hn, orTruncated_bind,
    ok_bind, Nat.reduceAdd, Nat.reduceDiv, Nat.zero_add, Nat.add_zero, hplace, hloop, hll, orTruncated_orTruncated]
  rw [← crcPlace, readerAt, hcur]
  rfl

/-- SA.DECODE of a supported type: TruncatedInputError at the first field that is cut, else the section
(43_section_assembler.md R166 to R170). -/
theorem decodeSection_of_supported {b : Bytes} (h : Supported b) :
    decodeSection b = orTruncated (firstCut (sectionSpans b) (sectionBound b)) (.ok (sectionAt b)) := by
  rw [decodeSection_eq_decodeAfterHeader, decodeAfterHeader_of_supported h, orTruncated_header,
    sectionSpans_of_supported h]

end Sys2Proof.Machine
end

section
/-! The statements about SA.DECODE on any input: where it is cut, the bounds of what it returns, and that it reads no byte
past the section (43_section_assembler.md R167; 60_exceptions.md R203). -/

namespace Sys2Proof.Machine

/-! ### Where a section is cut -/

theorem bodyLength_ge (ct : Nat) (fl : Byte) : 5 ≤ bodyLength ct fl := by
  unfold bodyLength
  split <;> omega

theorem loopLengthPlace_eq (b : Bytes) : loopLengthPlace b = 14 + bodyLength (typeAt b) (b.getD 18 0#8) :=
  bodyEnd_eq _ _

theorem loopLengthPlace_ge (b : Bytes) : 19 ≤ loopLengthPlace b := by
  have := bodyLength_ge (typeAt b) (b.getD 18 0#8)
  have := loopLengthPlace_eq b
  omega

theorem firstCut_headerSpans_eq_none {n : Nat} : firstCut headerSpans n = none ↔ 14 ≤ n := by
  rw [firstCut_eq_none]
  simp [headerSpans]
  omega

theorem firstCut_append_eq_none {fs gs : List (Nat × Nat)} {n : Nat} :
    firstCut (fs ++ gs) n = none ↔ firstCut fs n = none ∧ firstCut gs n = none := by
  rw [firstCut_append, Option.or_eq_none_iff]

theorem firstCut_byteSpans_of_le {k m n : Nat} (h : k + m ≤ n) : firstCut (byteSpans k m) n = none := by
  rw [firstCut_eq_none]
  intro f hf
  obtain ⟨i, hi, rfl⟩ := List.mem_map.1 hf
  have := List.mem_range.1 hi
  dsimp only
  omega

theorem firstCut_singleton_eq_none {k e n : Nat} : firstCut [(k, e)] n = none ↔ e ≤ n := by
  simp [firstCut_eq_none]

/-- No field of a section is cut where its CRC field ends inside the bound. -/
theorem firstCut_sectionSpans_eq_none {b : Bytes} {n : Nat} (h : Supported b) :
    firstCut (sectionSpans b) n = none ↔ crcPlace b + 4 ≤ n := by
  rw [sectionSpans_of_supported h, tailSpans]
  simp only [firstCut_append_eq_none, firstCut_headerSpans_eq_none, firstCut_bodySpansAt_eq_none,
    firstCut_singleton_eq_none, ← loopLengthPlace_eq]
  refine ⟨fun hall => hall.2.2.2.2, fun hn => ?_⟩
  have hq := loopLengthPlace_ge b
  have hp : crcPlace b = loopLengthPlace b + 2 + loopLengthAt b := rfl
  exact ⟨by omega, by omega, by omega, firstCut_byteSpans_of_le (by omega), hn⟩

theorem decodeSection_of_cut {b : Bytes} {k e : Nat} (h : firstCut (sectionSpans b) (sectionBound b) = some (k, e)) :
    decodeSection b = .error (.truncatedInput k) := by
  by_cases hs : Supported b
  · rw [decodeSection_of_supported hs, h]
    rfl
  · rw [decodeSection_of_not_supported hs, h]
    rfl

/-- SA.DECODE returns a section exactly where the type is supported and the CRC field ends inside the bound. -/
theorem decodeSection_eq_ok {b : Bytes} {d : DecodedSection} :
    decodeSection b = .ok d ↔ Supported b ∧ crcPlace b + 4 ≤ sectionBound b ∧ d = sectionAt b := by
  by_cases hs : Supported b
  · rw [decodeSection_of_supported hs, ← firstCut_sectionSpans_eq_none hs]
    cases firstCut (sectionSpans b) (sectionBound b) <;> simp [hs, eq_comm]
  · rw [decodeSection_of_not_supported hs]
    cases firstCut (sectionSpans b) (sectionBound b) <;> simp [hs]

/-- SA.DECODE answers a section that parses with it. -/
theorem exec_saDecode_of_ok {s : State} {d : DecodedSection} (h : decodeSection s.req.bytes = .ok d) :
    exec .saDecode s = .next (s.answered (Response.ofSection d)) := by
  apply exec_of_compositeResponse
  rw [compositeResponse, h]
  rfl

theorem getLast?_sectionSpans {b : Bytes} (h : Supported b) :
    (sectionSpans b).getLast? = some (crcPlace b, crcPlace b + 4) := by
  rw [sectionSpans_of_supported h, tailSpans]
  simp only [← List.append_assoc]
  rw [List.getLast?_concat]

/-- Settles O57: the parse by the places of the fields. -/
theorem saDecodeIsTruncatedAtTheFirstFieldPastTheBound :
    Obligations.SaDecodeIsTruncatedAtTheFirstFieldPastTheBound := by
  intro s b ct cut
  refine ⟨fun k e hcut => exec_saDecode_of_error (decodeSection_of_cut hcut), fun hcut h5 h6 => ?_, fun hcut hct => ?_⟩
  · have hs : ¬Supported b := not_or.2 ⟨h5, h6⟩
    have hcut : firstCut (sectionSpans b) (sectionBound b) = none := hcut
    refine exec_saDecode_of_error (e := .unsupportedCommandType ct) ?_
    rw [decodeSection_of_not_supported hs, hcut]
    rfl
  · have hbound := (firstCut_sectionSpans_eq_none hct).1 hcut
    exact ⟨sectionAt b, crcPlace b, exec_saDecode_of_ok (decodeSection_eq_ok.2 ⟨hct, hbound, rfl⟩),
      getLast?_sectionSpans hct⟩

/-! ### The bounds of a section -/

theorem loopLengthAt_lt (b : Bytes) : loopLengthAt b < 2 ^ 16 := by
  rw [loopLengthAt, ← fieldAt_two_bytes]
  exact fieldAt_lt _ _ _

theorem SpliceCommandOut.inWidths_insert {i : SpliceInsertOut} :
    (SpliceCommandOut.insert i).inWidths = true ↔
      i.eventId < 2 ^ 32 ∧ i.spliceTimePts.isSome = !i.immediate ∧ i.breakDuration.isSome = i.durationFlag ∧
        (∀ t ∈ i.spliceTimePts, t < 2 ^ 33) ∧ ∀ d ∈ i.breakDuration, d.durationTicks < 2 ^ 33 := by
  simp [inWidths, and_assoc, Option.all_eq_true]

/-- A command by place is below its widths, and has the optional fields its flags call for (10_state.md R32). -/
theorem commandAt_inWidths (b : Bytes) (k ct : Nat) : (commandAt b k ct).inWidths = true := by
  have hticks (j : Nat) : ticksAt b j < 2 ^ 33 := fieldAt_lt _ _ _
  unfold commandAt
  split
  · rw [SpliceCommandOut.inWidths_insert]
    refine ⟨fieldAt_lt _ _ _, ?_⟩
    simp only [insertAt]
    cases (b.getD (k + 4) 0#8).getLsbD 3 <;> cases (b.getD (k + 4) 0#8).getLsbD 4 <;> simp [-Nat.reducePow, hticks]
  · exact decide_eq_true (hticks k)

/-- Settles O33: each field is one by its place, and the CRC field ends inside the bound. -/
theorem decodedSectionStaysInsideItsBound : Obligations.DecodedSectionStaysInsideItsBound := by
  intro b d h
  obtain ⟨hs, hbound, rfl⟩ := decodeSection_eq_ok.1 h
  have hlen := sectionBound_le_length b
  have hsl : fieldAt b 12 12 = (b.getD 1 0#8).toNat % 16 * 256 + (b.getD 2 0#8).toNat := fieldAt_low12 b 1
  have hclaim : sectionBound b ≤ 3 + fieldAt b 12 12 := by
    rw [sectionBound_eq (by omega), hsl]
    exact min_le_right _ _
  have htype : typeAt b ∈ [0x05, 0x06] := by
    rcases hs with hs | hs <;> simp [hs]
  exact ⟨hbound.trans hlen, hbound.trans hclaim, fieldAt_lt _ _ _, fieldAt_lt _ _ _, fieldAt_lt _ _ _, fieldAt_lt _ _ _,
    fieldAt_lt _ _ _, fieldAt_lt _ _ _, fieldAt_lt _ _ _, fieldAt_lt _ _ _, fieldAt_lt _ _ _, fieldAt_lt _ _ _, htype,
    commandAt_inWidths _ _ _, loopLengthAt_lt b, fieldAt_lt _ _ _, BitVec.isLt _⟩

/-! ### Bytes after the section -/

section
variable {b : Bytes} (rest : Bytes)

theorem ticksAt_append_left {k : Nat} (h : k + 5 ≤ b.length) : ticksAt (b ++ rest) k = ticksAt b k :=
  fieldAt_append_left (by omega) rest

/-- A command is read from its own bytes. -/
theorem commandAt_append_left {k ct : Nat} (h : k + bodyLength ct (b.getD (k + 4) 0#8) ≤ b.length) :
    commandAt (b ++ rest) k ct = commandAt b k ct := by
  have hge := bodyLength_ge ct (b.getD (k + 4) 0#8)
  unfold commandAt
  split
  · next hct =>
    have hfl : (b ++ rest).getD (k + 4) 0#8 = b.getD (k + 4) 0#8 := List.getD_append _ _ _ _ (by omega)
    have hid : fieldAt (b ++ rest) (8 * k) 32 = fieldAt b (8 * k) 32 := fieldAt_append_left (by omega) rest
    rw [bodyLength, if_pos hct] at h
    simp only [insertAt, hfl, hid, SpliceCommandOut.insert.injEq, SpliceInsertOut.mk.injEq, true_and]
    constructor
    · split
      · rfl
      · next him =>
        rw [if_neg him] at h
        rw [ticksAt_append_left rest (by omega)]
    · split
      · next hdf =>
        rw [if_pos hdf] at h
        rw [ticksAt_append_left rest (by omega), bitAt_append_left (by omega)]
      · rfl
  · rw [ticksAt_append_left rest (by omega)]

variable (h : crcPlace b + 4 ≤ b.length)
include h

theorem getD_append_of_lt_crcPlace {n : Nat} (hn : n ≤ loopLengthPlace b + 1) : (b ++ rest).getD n 0#8 = b.getD n 0#8 := by
  have hp : crcPlace b = loopLengthPlace b + 2 + loopLengthAt b := rfl
  exact List.getD_append _ _ _ _ (by omega)

theorem typeAt_append : typeAt (b ++ rest) = typeAt b := by
  have hq := loopLengthPlace_ge b
  rw [typeAt, typeAt, getD_append_of_lt_crcPlace rest h (by omega)]

theorem loopLengthPlace_append : loopLengthPlace (b ++ rest) = loopLengthPlace b := by
  have hq := loopLengthPlace_ge b
  rw [loopLengthPlace, typeAt_append rest h, getD_append_of_lt_crcPlace rest h (by omega), ← loopLengthPlace]

theorem loopLengthAt_append : loopLengthAt (b ++ rest) = loopLengthAt b := by
  rw [loopLengthAt, loopLengthPlace_append rest h, getD_append_of_lt_crcPlace rest h (by omega),
    getD_append_of_lt_crcPlace rest h le_rfl, ← loopLengthAt]

theorem crcPlace_append : crcPlace (b ++ rest) = crcPlace b := by
  rw [crcPlace, loopLengthPlace_append rest h, loopLengthAt_append rest h, ← crcPlace]

theorem sectionAt_append : sectionAt (b ++ rest) = sectionAt b := by
  have hq := loopLengthPlace_ge b
  have hp : crcPlace b = loopLengthPlace b + 2 + loopLengthAt b := rfl
  have hbody : 14 + bodyLength (typeAt b) (b.getD 18 0#8) ≤ b.length := by
    rw [← loopLengthPlace_eq]
    omega
  have hfield {c w : Nat} (hc : c + w ≤ 8 * b.length) : fieldAt (b ++ rest) c w = fieldAt b c w :=
    fieldAt_append_left hc rest
  rw [sectionAt, sectionAt, crcPlace_append rest h, loopLengthAt_append rest h, typeAt_append rest h,
    commandAt_append_left rest hbody, List.take_append_of_le_length (by omega)]
  simp (disch := omega) only [hfield]

end

theorem sectionBound_append_le {b : Bytes} (rest : Bytes) (h : 3 ≤ b.length) :
    sectionBound b ≤ sectionBound (b ++ rest) := by
  have hlen : b.length ≤ (b ++ rest).length := by simp
  rw [sectionBound_eq h, sectionBound_eq (h.trans hlen), List.getD_append _ _ _ _ (by omega),
    List.getD_append _ _ _ _ (by omega)]
  exact min_le_min_right _ hlen

/-- Settles O34: the fields and the bound of the section are in its own bytes. -/
theorem trailingBytesAreNotRead : Obligations.TrailingBytesAreNotRead := by
  intro b rest d h
  obtain ⟨hs, hbound, rfl⟩ := decodeSection_eq_ok.1 h
  have hlen := hbound.trans (sectionBound_le_length b)
  refine decodeSection_eq_ok.2 ⟨?_, ?_, (sectionAt_append rest hlen).symm⟩
  · rwa [Supported, typeAt_append rest hlen]
  · rw [crcPlace_append rest hlen]
    exact hbound.trans (sectionBound_append_le rest (by omega))

end Sys2Proof.Machine
end

section
/-! Sections laid out in pieces (30_encoding.md R70): header, body, loop length, descriptor loop, stored CRC and what follows;
and what SA.DECODE reads from them (43_section_assembler.md R166 to R171). -/

namespace Sys2Proof.Machine

/-! ### The pieces -/

/-- `b` is a section in pieces, with `rest` after it; the body has the length its type and flags byte call for. -/
structure Pieces (b hd body loop cs rest : Bytes) (d0 d1 : Byte) : Prop where
  bytes : b = hd ++ (body ++ (d0 :: d1 :: (loop ++ (cs ++ rest))))
  header : hd.length = 14
  body : bodyLength (hd.getD 13 0#8).toNat (body.getD 4 0#8) = body.length
  loop : loop.length = d0.toNat * 256 + d1.toNat
  crc : cs.length = 4

theorem fieldAt_drop (b : Bytes) (k c w : Nat) (hk : k ≤ b.length) : fieldAt (b.drop k) c w = fieldAt b (8 * k + c) w := by
  have h := fieldAt_append_right (b.take k) (b.drop k) c w
  rwa [List.take_append_drop, List.length_take, Nat.min_eq_left hk, eq_comm] at h

theorem fieldAt_inside_zero (b : Bytes) (k : Nat) {w : Nat} (h : w ≤ 8) :
    fieldAt b (8 * k) w = (b.getD k 0#8).toNat / 2 ^ (8 - w) := by
  have hin := fieldAt_inside b k (i := 0) (w := w) (by omega)
  have hlt : (b.getD k 0#8).toNat < 2 ^ (w + (8 - w)) := by
    rw [Nat.add_sub_cancel' h]
    exact BitVec.isLt _
  rw [pow_add] at hlt
  rwa [Nat.add_zero, Nat.sub_zero, Nat.mod_eq_of_lt (Nat.div_lt_of_lt_mul (by rwa [Nat.mul_comm]))] at hin

/-- The command is read from the body alone. -/
theorem commandAt_append_right (a b : Bytes) (ct : Nat) : commandAt (a ++ b) a.length ct = commandAt b 0 ct := by
  have hfield (c w : Nat) : fieldAt (a ++ b) (8 * a.length + c) w = fieldAt b c w := fieldAt_append_right a b c w
  have hticks (k : Nat) : ticksAt (a ++ b) (a.length + k) = ticksAt b k := by
    rw [ticksAt, ticksAt, Nat.mul_add, Nat.add_assoc, hfield]
  have hbit (k : Nat) : bitAt (a ++ b) (8 * (a.length + k)) = bitAt b (8 * k) := by
    rw [Nat.mul_add, bitAt_append_right]
  have hfl : (a ++ b).getD (a.length + 4) 0#8 = b.getD 4 0#8 := by
    rw [List.getD_append_right _ _ _ _ (by omega), Nat.add_sub_cancel_left]
  unfold commandAt
  split
  · have h0 := hfield 0 32
    rw [Nat.add_zero] at h0
    simp only [insertAt, hfl, h0, Nat.add_assoc, hticks, hbit, Nat.mul_zero, Nat.zero_add]
  · exact congrArg _ (hticks 0)

namespace Pieces

variable {b hd body loop cs rest : Bytes} {d0 d1 : Byte} (h : Pieces b hd body loop cs rest d0 d1)
include h

theorem getD_header {n : Nat} (hn : n < 14) : b.getD n 0#8 = hd.getD n 0#8 := by
  rw [h.bytes, List.getD_append _ _ _ _ (by rw [h.header]; exact hn)]

theorem fieldAt_header {c w : Nat} (hc : c + w ≤ 112) : fieldAt b c w = fieldAt hd c w := by
  rw [h.bytes, fieldAt_append_left (by rw [h.header]; exact hc)]

theorem typeAt_eq : typeAt b = (hd.getD 13 0#8).toNat := by
  rw [typeAt, h.getD_header (by decide)]

theorem body_length_ge : 5 ≤ body.length := by
  rw [← h.body]
  exact bodyLength_ge _ _

/-- Byte `n` after the header. -/
theorem getD_after_header (n : Nat) :
    b.getD (14 + n) 0#8 = (body ++ (d0 :: d1 :: (loop ++ (cs ++ rest)))).getD n 0#8 := by
  rw [h.bytes, List.getD_append_right _ _ _ _ (by rw [h.header]; omega), h.header, Nat.add_sub_cancel_left]

theorem getD_body {n : Nat} (hn : n < body.length) : b.getD (14 + n) 0#8 = body.getD n 0#8 := by
  rw [h.getD_after_header, List.getD_append _ _ _ _ hn]

theorem loopLengthPlace_eq : loopLengthPlace b = 14 + body.length := by
  have hfl : b.getD 18 0#8 = body.getD 4 0#8 := h.getD_body h.body_length_ge
  rw [Machine.loopLengthPlace_eq, h.typeAt_eq, hfl, h.body]

theorem loopLengthAt_eq : loopLengthAt b = d0.toNat * 256 + d1.toNat := by
  rw [loopLengthAt, h.loopLengthPlace_eq, Nat.add_assoc, h.getD_after_header, h.getD_after_header,
    List.getD_append_right _ _ _ _ le_rfl, List.getD_append_right _ _ _ _ (by omega), Nat.sub_self,
    Nat.add_sub_cancel_left]
  rfl

theorem crcPlace_eq : crcPlace b = 16 + body.length + loop.length := by
  rw [crcPlace, h.loopLengthPlace_eq, h.loopLengthAt_eq, h.loop]
  omega

/-- Everything before the stored CRC, and what follows it. -/
theorem split : b = (hd ++ body ++ [d0, d1] ++ loop) ++ (cs ++ rest) := by
  rw [h.bytes]
  simp

theorem front_length : (hd ++ body ++ [d0, d1] ++ loop).length = crcPlace b := by
  rw [h.crcPlace_eq]
  simp [h.header]
  omega

theorem take_crcPlace : b.take (crcPlace b) = hd ++ body ++ [d0, d1] ++ loop := by
  have hsplit := h.split
  rw [← h.front_length]
  conv_lhs => rw [hsplit]
  exact List.take_left

theorem length_eq : b.length = crcPlace b + 4 + rest.length := by
  have hsplit := congrArg List.length h.split
  rw [hsplit, List.length_append, h.front_length, List.length_append, h.crc]
  omega

theorem crcStored_eq : fieldAt b (8 * crcPlace b) 32 = beValue cs := by
  have hright := fieldAt_append_right (hd ++ body ++ [d0, d1] ++ loop) (cs ++ rest) 0 32
  rw [← h.split, h.front_length, Nat.add_zero] at hright
  rw [hright, fieldAt_append_left (by rw [h.crc]), beValue_eq_fieldAt, h.crc]

theorem commandAt_eq : commandAt b 14 (typeAt b) = commandAt body 0 (typeAt b) := by
  have hright := commandAt_append_right hd (body ++ (d0 :: d1 :: (loop ++ (cs ++ rest)))) (typeAt b)
  rw [← h.bytes, h.header] at hright
  rw [hright, commandAt_append_left]
  rw [Nat.zero_add, h.typeAt_eq, h.body]

theorem sectionLength_eq : fieldAt b 12 12 = (hd.getD 1 0#8).toNat % 16 * 256 + (hd.getD 2 0#8).toNat := by
  rw [show 12 = 8 * 1 + 4 from rfl, fieldAt_low12, h.getD_header (by decide), h.getD_header (by decide)]

theorem sectionBound_eq : sectionBound b
    = min b.length (3 + ((hd.getD 1 0#8).toNat % 16 * 256 + (hd.getD 2 0#8).toNat)) := by
  have hlen := h.length_eq
  have hp := h.crcPlace_eq
  rw [Machine.sectionBound_eq (by omega), h.getD_header (by decide), h.getD_header (by decide)]

theorem ptsAdjustment_eq : fieldAt b 39 33 = value33 ((hd.drop 4).take 5) := by
  have hlen : ((hd.drop 4).take 5).length = 5 := by
    rw [List.length_take, List.length_drop, h.header]
    rfl
  rw [value33_eq_fieldAt hlen, fieldAt_take (by decide), fieldAt_drop _ _ _ _ (by rw [h.header]; decide),
    h.fieldAt_header (by decide)]

/-- The section of the pieces, every field by its place. -/
theorem sectionAt_eq : sectionAt b =
    { tableId := (hd.getD 0 0#8).toNat, sectionFlags4 := (hd.getD 1 0#8).toNat / 16,
      sectionLength := (hd.getD 1 0#8).toNat % 16 * 256 + (hd.getD 2 0#8).toNat,
      protocolVersion := (hd.getD 3 0#8).toNat, encryptedPacket := (hd.getD 4 0#8).toNat / 128,
      encryptionAlgorithm := (hd.getD 4 0#8).toNat / 2 % 64, ptsAdjustment := value33 ((hd.drop 4).take 5),
      cwIndex := (hd.getD 9 0#8).toNat, tier := (hd.getD 10 0#8).toNat * 16 + (hd.getD 11 0#8).toNat / 16,
      spliceCommandLength := (hd.getD 11 0#8).toNat % 16 * 256 + (hd.getD 12 0#8).toNat,
      spliceCommandType := (hd.getD 13 0#8).toNat, command := commandAt body 0 (hd.getD 13 0#8).toNat,
      descriptorLoopLength := d0.toNat * 256 + d1.toNat, crcStored := beValue cs,
      crcComputed := crcReference (hd ++ body ++ [d0, d1] ++ loop),
      bytesConsumed := (hd ++ body ++ [d0, d1] ++ loop).length + 4 } := by
  have h0 := fieldAt_byte hd 0
  have h3 := fieldAt_byte hd 3
  have h9 := fieldAt_byte hd 9
  have hflags := fieldAt_inside_zero hd 1 (w := 4) (by decide)
  have hpacket := fieldAt_inside_zero hd 4 (w := 1) (by decide)
  have halgorithm := fieldAt_inside hd 4 (i := 1) (w := 6) (by decide)
  have htier := fieldAt_high12 hd 10
  have hlength := fieldAt_low12 hd 11
  simp only [Nat.reduceMul, Nat.reduceAdd, Nat.reduceSub, Nat.reducePow, Nat.mul_zero]
    at h0 h3 h9 hflags hpacket halgorithm htier hlength
  rw [sectionAt, h.commandAt_eq, h.typeAt_eq, h.loopLengthAt_eq, h.crcStored_eq, h.take_crcPlace, ← h.front_length,
    h.sectionLength_eq, h.ptsAdjustment_eq, crcReference_eq]
  simp (disch := decide) only [h.fieldAt_header, h0, h3, h9, hflags, hpacket, halgorithm, htier, hlength]

end Pieces

/-! ### What SA.DECODE reads -/

/-- A body that parses to its end has the length its type and flags byte call for. -/
theorem decodeBody_new_eq_ok {ct : Nat} {body : Bytes} {cmd : SpliceCommandOut} {r : Reader}
    (h : decodeBody ct (Reader.new body) = .ok (cmd, r)) :
    (ct = 0x05 ∨ ct = 0x06) ∧ r.cur = 8 * bodyLength ct (body.getD 4 0#8) ∧ cmd = commandAt body 0 ct := by
  have hct : ct = 0x05 ∨ ct = 0x06 := by
    by_contra hn
    obtain ⟨h5, h6⟩ := not_or.1 hn
    rw [decodeBody_of_unsupported h5 h6] at h
    cases h
  rw [Reader.new_eq_readerAt, decodeBody_readerAt le_rfl hct] at h
  cases hcut : firstCut (bodySpansAt 0 ct (body.getD (0 + 4) 0#8)) body.length with
  | some f =>
    rw [hcut] at h
    cases h
  | none =>
    rw [hcut] at h
    cases h
    exact ⟨hct, by simp [readerAt], rfl⟩

/-- Settles O31: the input is a section in pieces, inside the bound. -/
theorem saDecodeReturnsEveryFieldAsRead : Obligations.SaDecodeReturnsEveryFieldAsRead := by
  refine ⟨rfl, ?_⟩
  intro s hd body loop rest d0 d1 cs cmd r front at' hbytes hhd hloop hcs hbody hr hbound
  obtain ⟨hct, hcur, rfl⟩ := decodeBody_new_eq_ok hbody
  have hp : Pieces s.req.bytes hd body loop cs rest d0 d1 :=
    { bytes := by rw [hbytes]; simp [front]
      header := hhd
      body := Nat.eq_of_mul_eq_mul_left (by decide) (hcur.symm.trans hr)
      loop := hloop
      crc := hcs }
  have hfront : front.length = crcPlace s.req.bytes := hp.front_length
  have hlen := hp.length_eq
  refine exec_saDecode_of_ok (decodeSection_eq_ok.2 ⟨?_, ?_, hp.sectionAt_eq.symm⟩)
  · rwa [Supported, hp.typeAt_eq]
  · rw [hp.sectionBound_eq, ← hfront]
    exact le_min (by omega) hbound

end Sys2Proof.Machine
end

section
/-! SA.ENCODE (43_section_assembler.md R160 to R164): the section by its byte view, the first operand that overflows, and
the round trip with SA.DECODE (R172, R174). -/

namespace Sys2Proof.Machine

/-! ### The header -/

/-- Bits of equal values modulo their width are the same. -/
theorem bitsOf_congr {v v' w : Nat} (h : v % 2 ^ w = v' % 2 ^ w) : bitsOf v w = bitsOf v' w := by
  rw [← bitsOf_mod v, h, bitsOf_mod]

/-- Two fields in turn are one. -/
theorem bitsOf_join {x y v w : Nat} (hy : y < 2 ^ w) : bitsOf x v ++ bitsOf y w = bitsOf (x * 2 ^ w + y) (v + w) := by
  have hdiv : (x * 2 ^ w + y) / 2 ^ w = x := by
    rw [Nat.mul_comm, Nat.mul_add_div (Nat.two_pow_pos w), Nat.div_eq_of_lt hy, Nat.add_zero]
  have hlow : bitsOf (x * 2 ^ w + y) w = bitsOf y w := bitsOf_congr (Nat.mul_add_mod_self_right _ _ _)
  rw [bitsOf_add, hdiv, hlow]

theorem unpack_ofNat_cons (v : Nat) (b : Bytes) : unpack (BitVec.ofNat 8 v :: b) = bitsOf v 8 ++ unpack b := by
  rw [unpack_cons, BitVec.toNat_ofNat, bitsOf_mod]

section
variable {len ct pa tier : Nat}

/-- The byte view of the header has the bits of its fields (30_encoding.md R70). -/
theorem unpack_headerView (hlen : len ≤ 15) (hpa : pa < 2 ^ 33) :
    unpack (headerView len ct pa tier) = fieldBits (headerFields len ct pa tier) := by
  have hsection (t : Bits) : bitsOf Config.sectionFlags4 4 ++ (bitsOf (sectionLengthOf len) 12 ++ t)
      = bitsOf (0x30 + (17 + len) / 256) 8 ++ (bitsOf (17 + len) 8 ++ t) := by
    rw [← List.append_assoc, ← List.append_assoc, bitsOf_join (by unfold sectionLengthOf; omega),
      show 4 + 12 = 8 + 8 from rfl, bitsOf_add _ 8 8]
    congr 2 <;> exact bitsOf_congr (by unfold sectionLengthOf Config.sectionFlags4; omega)
  have hpts (t : Bits) :
      bitsOf Config.encryptedPacket 1 ++ (bitsOf Config.encryptionAlgorithm 6 ++ (bitsOf pa Config.ptsBits ++ t))
      = bitsOf (pa / 2 ^ 32) 8 ++ (bitsOf pa 32 ++ t) := by
    rw [← List.append_assoc, ← List.append_assoc, ← List.append_assoc, Config.ptsBits,
      bitsOf_join (by unfold Config.encryptionAlgorithm; omega), bitsOf_join hpa, show 1 + 6 + 33 = 8 + 32 from rfl,
      bitsOf_add _ 8 32]
    congr 2 <;> exact bitsOf_congr (by unfold Config.encryptedPacket Config.encryptionAlgorithm; omega)
  have htier (t : Bits) : bitsOf tier 12 ++ (bitsOf (spliceCommandLengthOf len) 12 ++ t)
      = bitsOf (tier / 16) 8 ++ (bitsOf (tier % 16 * 16 + (1 + len) / 256) 8 ++ (bitsOf (1 + len) 8 ++ t)) := by
    rw [← List.append_assoc, ← List.append_assoc, ← List.append_assoc,
      bitsOf_join (by unfold spliceCommandLengthOf; omega), show 12 + 12 = 8 + 8 + 8 from rfl, bitsOf_add _ (8 + 8) 8,
      bitsOf_add _ 8 8]
    congr 2
    · congr 1 <;> exact bitsOf_congr (by unfold spliceCommandLengthOf; omega)
    · exact bitsOf_congr (by unfold spliceCommandLengthOf; omega)
  simp only [headerView, List.cons_append, List.nil_append, unpack_ofNat_cons, unpack_append, unpack_be32, unpack_nil,
    headerFields, fieldBits_cons, fieldBits_nil, List.append_nil, hsection, hpts, htier]
  rfl

/-- The first header field that does not fit is `pts_adjustment`, else `tier` (60_exceptions.md R208). -/
theorem firstMisfit_headerFields (hlen : len ≤ 15) (hct : ct = 0x05 ∨ ct = 0x06) :
    firstMisfit (headerFields len ct pa tier)
      = if 2 ^ 33 ≤ pa then some (pa, 33) else if 2 ^ 12 ≤ tier then some (tier, 12) else none := by
  have hsl : ¬2 ^ 12 ≤ sectionLengthOf len := by unfold sectionLengthOf; omega
  have hscl : ¬2 ^ 12 ≤ spliceCommandLengthOf len := by unfold spliceCommandLengthOf; omega
  have hty : ¬2 ^ 8 ≤ ct := by omega
  simp only [headerFields, firstMisfit_cons, firstMisfit_nil, hsl, hscl, hty, if_false, Config.ptsBits]
  rfl

end

/-! ### The section -/

theorem SpliceCommandIn.bodyView_length (c : SpliceCommandIn) : c.bodyView.length ∈ [5, 10, 15] := by
  cases c with
  | timeSignal pts => simp [bodyView, spliceTimeView_length]
  | insert i =>
    rw [bodyView, insertBodyView_length]
    cases i.immediate <;> cases i.durationFlag <;> decide

theorem SpliceCommandIn.bodyView_length_le (c : SpliceCommandIn) : c.bodyView.length ≤ 15 := by
  have := c.bodyView_length
  simp only [List.mem_cons, List.not_mem_nil, or_false] at this
  omega

/-- Everything before the CRC of an encoded section (30_encoding.md R70). -/
def sectionFront (c : SpliceCommandIn) (pa tier : Nat) : Bytes :=
  headerView c.bodyView.length c.typeByte pa tier ++ c.bodyView ++ [0#8, 0#8]

/-- An encoded section (30_encoding.md R70). -/
def sectionView (c : SpliceCommandIn) (pa tier : Nat) : Bytes :=
  sectionFront c pa tier ++ be32 (crc32 (sectionFront c pa tier)).toNat

section
variable {c : SpliceCommandIn} {pa tier : Nat}

theorem headerView_length (len ct pa tier : Nat) : (headerView len ct pa tier).length = 14 := rfl

/-- Operands that fit are encoded as the byte view (43_section_assembler.md R161). -/
theorem encodeSection_of_fits (hc : c.firstOverflow = none) (hpa : pa < 2 ^ 33) (htier : tier < 2 ^ 12) :
    encodeSection c pa tier = .ok (sectionView c pa tier) := by
  have hfit : firstMisfit (headerFields c.bodyView.length c.typeByte pa tier) = none := by
    rw [firstMisfit_headerFields c.bodyView_length_le c.typeByte_supported, if_neg hpa.not_ge, if_neg htier.not_ge]
  have hheader : pack (fieldBits (headerFields c.bodyView.length c.typeByte pa tier))
      = headerView c.bodyView.length c.typeByte pa tier := by
    rw [← unpack_headerView c.bodyView_length_le hpa, pack_unpack]
  have hcrc (v : Nat) : beBytes 4 v = be32 v := by simp [beBytes, be32]
  rw [encodeSection, c.encodeBody_of_fits hc, ok_bind, appendFields_ok _ (firstMisfit_eq_none.1 hfit), ok_bind]
  simp only [Packer.finish, Packer.empty, List.nil_append, hheader, hcrc]
  rfl

/-- A body that overflows is reported first (60_exceptions.md R208). -/
theorem encodeSection_of_overflow {w v : Nat} (hc : c.firstOverflow = some (w, v)) :
    encodeSection c pa tier = .error (.fieldOverflow w v) := by
  rw [encodeSection, c.encodeBody_of_overflow hc]
  rfl

/-- Then the header's first field that does not fit (60_exceptions.md R208). -/
theorem encodeSection_of_firstMisfit {w v : Nat} (hc : c.firstOverflow = none)
    (hf : firstMisfit (headerFields c.bodyView.length c.typeByte pa tier) = some (v, w)) :
    encodeSection c pa tier = .error (.fieldOverflow w v) := by
  rw [encodeSection, c.encodeBody_of_fits hc, ok_bind, appendFields_of_firstMisfit _ hf]
  rfl

theorem encodeSection_of_ptsAdjustment (hc : c.firstOverflow = none) (hpa : 2 ^ 33 ≤ pa) :
    encodeSection c pa tier = .error (.fieldOverflow 33 pa) :=
  encodeSection_of_firstMisfit hc (by
    rw [firstMisfit_headerFields c.bodyView_length_le c.typeByte_supported, if_pos hpa])

theorem encodeSection_of_tier (hc : c.firstOverflow = none) (hpa : pa < 2 ^ 33) (htier : 2 ^ 12 ≤ tier) :
    encodeSection c pa tier = .error (.fieldOverflow 12 tier) :=
  encodeSection_of_firstMisfit hc (by
    rw [firstMisfit_headerFields c.bodyView_length_le c.typeByte_supported, if_neg hpa.not_ge, if_pos htier])

/-- What is encoded is a byte view of operands that fit. -/
theorem encodeSection_eq_ok {b : Bytes} (h : encodeSection c pa tier = .ok b) :
    c.firstOverflow = none ∧ pa < 2 ^ 33 ∧ tier < 2 ^ 12 ∧ b = sectionView c pa tier := by
  cases hc : c.firstOverflow with
  | some f => cases (encodeSection_of_overflow (w := f.1) (v := f.2) hc).symm.trans h
  | none =>
    rcases Nat.lt_or_ge pa (2 ^ 33) with hpa | hpa
    · rcases Nat.lt_or_ge tier (2 ^ 12) with htier | htier
      · cases (encodeSection_of_fits hc hpa htier).symm.trans h
        exact ⟨rfl, hpa, htier, rfl⟩
      · cases (encodeSection_of_tier hc hpa htier).symm.trans h
    · cases (encodeSection_of_ptsAdjustment hc hpa).symm.trans h

end

/-! ### SA.ENCODE -/

theorem exec_saEncode_of_ok {s : State} {b : Bytes}
    (h : encodeSection s.req.command (s.req.ptsAdjustment.getD 0) (s.req.tier.getD 0xFFF) = .ok b) :
    exec .saEncode s = .next (s.answered (Response.okBytes b)) := by
  apply exec_of_compositeResponse
  change some (Response.ofExcept ((encodeSection s.req.command (s.req.ptsAdjustment.getD 0)
    (s.req.tier.getD 0xFFF)).map .okBytes)) = _
  rw [h]
  rfl

theorem exec_saEncode_of_error {s : State} {e : Error}
    (h : encodeSection s.req.command (s.req.ptsAdjustment.getD 0) (s.req.tier.getD 0xFFF) = .error e) :
    exec .saEncode s = .next (s.answered e.response) := by
  apply exec_of_compositeResponse
  change some (Response.ofExcept ((encodeSection s.req.command (s.req.ptsAdjustment.getD 0)
    (s.req.tier.getD 0xFFF)).map .okBytes)) = _
  rw [h]
  rfl

/-- Settles O28: the byte view, with the CRC over naturals. -/
theorem saEncodeReturnsTheSection : Obligations.SaEncodeReturnsTheSection := by
  refine ⟨rfl, ?_⟩
  intro s pa tier body ct front hc hpa htier
  have hct : ct = s.req.command.typeByte := by
    dsimp only [ct]
    cases s.req.command <;> rfl
  have hfront : front = sectionFront s.req.command pa tier := by
    dsimp only [front]
    rw [hct]
    rfl
  rw [exec_saEncode_of_ok (encodeSection_of_fits hc hpa htier), sectionView, ← hfront, crcReference_eq]

/-- Settles O29: one lemma per operand, in the order of the writes. -/
theorem saEncodeReportsTheFirstOverflow : Obligations.SaEncodeReportsTheFirstOverflow := by
  intro s pa tier ovf
  exact ⟨fun w v hc => exec_saEncode_of_error (encodeSection_of_overflow hc),
    fun hc hpa => exec_saEncode_of_error (encodeSection_of_ptsAdjustment hc hpa),
    fun hc hpa htier => exec_saEncode_of_error (encodeSection_of_tier hc hpa htier)⟩

/-! ### An encoded section in pieces -/

section
variable (c : SpliceCommandIn) (pa tier : Nat) (rest : Bytes)

theorem typeByte_toNat : (BitVec.ofNat 8 c.typeByte).toNat = c.typeByte := by
  cases c <;> rfl

theorem sectionView_pieces :
    Pieces (sectionView c pa tier ++ rest) (headerView c.bodyView.length c.typeByte pa tier) c.bodyView []
      (be32 (crc32 (sectionFront c pa tier)).toNat) rest 0#8 0#8 where
  bytes := by simp [sectionView, sectionFront]
  header := rfl
  body := by
    have hbody := c.bodyLength_bodyView []
    rw [List.append_nil] at hbody
    have htype : (headerView c.bodyView.length c.typeByte pa tier).getD 13 0#8 = BitVec.ofNat 8 c.typeByte := rfl
    rw [htype, typeByte_toNat, hbody]
  loop := rfl
  crc := rfl

theorem sectionView_length : (sectionView c pa tier).length = 20 + c.bodyView.length := by
  simp [sectionView, sectionFront, headerView_length, be32_length]
  omega

theorem typeAt_sectionView : typeAt (sectionView c pa tier ++ rest) = c.typeByte :=
  (sectionView_pieces c pa tier rest).typeAt_eq.trans (typeByte_toNat c)

theorem supported_sectionView : Supported (sectionView c pa tier ++ rest) := by
  rw [Supported, typeAt_sectionView]
  exact c.typeByte_supported

theorem crcPlace_sectionView : crcPlace (sectionView c pa tier ++ rest) + 4 = (sectionView c pa tier).length := by
  rw [(sectionView_pieces c pa tier rest).crcPlace_eq, sectionView_length, List.length_nil]
  omega

/-- `section_length` is the section's length less 3 (43_section_assembler.md R163, R172). -/
theorem sectionLength_sectionView :
    3 + ((((headerView c.bodyView.length c.typeByte pa tier).getD 1 0#8).toNat % 16 * 256
      + ((headerView c.bodyView.length c.typeByte pa tier).getD 2 0#8).toNat)) = (sectionView c pa tier).length := by
  have hlen := c.bodyView_length_le
  have h1 : (headerView c.bodyView.length c.typeByte pa tier).getD 1 0#8
      = BitVec.ofNat 8 (0x30 + (17 + c.bodyView.length) / 256) := rfl
  have h2 : (headerView c.bodyView.length c.typeByte pa tier).getD 2 0#8
      = BitVec.ofNat 8 (17 + c.bodyView.length) := rfl
  rw [h1, h2, sectionView_length, BitVec.toNat_ofNat, BitVec.toNat_ofNat]
  omega

/-- The bound of an encoded section is its end, whatever follows it. -/
theorem sectionBound_sectionView : sectionBound (sectionView c pa tier ++ rest) = (sectionView c pa tier).length := by
  rw [(sectionView_pieces c pa tier rest).sectionBound_eq, sectionLength_sectionView, List.length_append]
  omega

/-- SA.DECODE of an encoded section, with any bytes after it. -/
theorem decodeSection_sectionView :
    decodeSection (sectionView c pa tier ++ rest) = .ok (sectionAt (sectionView c pa tier ++ rest)) :=
  decodeSection_eq_ok.2 ⟨supported_sectionView c pa tier rest,
    by rw [crcPlace_sectionView, sectionBound_sectionView], rfl⟩

end

/-- Settles O30: the length bytes of the byte view. -/
theorem encodedLengthFieldsAreTheByteCounts : Obligations.EncodedLengthFieldsAreTheByteCounts := by
  intro c pa tier b h
  obtain ⟨-, -, -, rfl⟩ := encodeSection_eq_ok h
  have hlen := c.bodyView_length_le
  have hb := sectionView_length c pa tier
  have hsl := sectionLength_sectionView c pa tier
  have hp := sectionView_pieces c pa tier []
  rw [List.append_nil] at hp
  have h11 : (headerView c.bodyView.length c.typeByte pa tier).getD 11 0#8
      = BitVec.ofNat 8 (tier % 16 * 16 + (1 + c.bodyView.length) / 256) := rfl
  have h12 : (headerView c.bodyView.length c.typeByte pa tier).getD 12 0#8 = BitVec.ofNat 8 (1 + c.bodyView.length) := rfl
  rw [hp.getD_header (by decide), hp.getD_header (by decide), hp.getD_header (by decide), hp.getD_header (by decide), h11,
    h12, BitVec.toNat_ofNat, BitVec.toNat_ofNat]
  refine ⟨by omega, by omega, ?_⟩
  have hmem := c.bodyView_length
  simp only [List.mem_cons, List.not_mem_nil, or_false] at hmem ⊢
  omega

/-! ### The round trip -/

theorem value33_ptsBytes {pa : Nat} (h : pa < 2 ^ 33) : value33 (BitVec.ofNat 8 (pa / 2 ^ 32) :: be32 pa) = pa := by
  have hlow : beValue (be32 pa) = pa % 2 ^ 32 := by
    simp only [beValue, be32, List.foldl_cons, List.foldl_nil, BitVec.toNat_ofNat]
    omega
  rw [value33, List.drop_one, List.tail_cons, hlow, List.getD_cons_zero, BitVec.toNat_ofNat]
  omega

/-- SA.ENCODE and SA.DECODE through the machine. -/
theorem issue_saEncode {s : State} {c : SpliceCommandIn} {pa tier : Nat} (hc : c.firstOverflow = none)
    (hpa : pa < 2 ^ 33) (htier : tier < 2 ^ 12) :
    ∃ t, issue s (.saEncode c (some pa) (some tier)) = some (t, Response.okBytes (sectionView c pa tier)) := by
  refine ⟨_, issue_composite ?_⟩
  simp only [AsmForm.instr, compositeResponse, AsmForm.request, Request.ptsAdjustmentOr, Request.tierOr,
    Option.getD_some, encodeSection_of_fits hc hpa htier]
  rfl

theorem issue_saDecode (s : State) (b : Bytes) :
    ∃ t, issue s (.saDecode b) = some (t, Response.ofExcept ((decodeSection b).map Response.ofSection)) :=
  ⟨_, issue_composite rfl⟩

/-- Settles O36: the section encoded is one in pieces, of which SA.DECODE gives each field. -/
theorem encodedSectionsDecodeToTheirInput : Obligations.EncodedSectionsDecodeToTheirInput := by
  intro s c pa tier rest hfit hpa htier
  have hc := SpliceCommandIn.fitsWire_iff.1 hfit
  have hp := sectionView_pieces c pa tier rest
  obtain ⟨t, ht⟩ := issue_saEncode (s := s) hc hpa htier
  obtain ⟨u, hu⟩ := issue_saDecode t (sectionView c pa tier ++ rest)
  have hcommand : (sectionAt (sectionView c pa tier ++ rest)).command = c.norm := by
    have hnorm := SpliceCommandIn.commandAt_bodyView [] hc
    rw [List.append_nil] at hnorm
    exact hp.commandAt_eq.trans ((congrArg _ (typeAt_sectionView c pa tier rest)).trans hnorm)
  have hstored : (sectionAt (sectionView c pa tier ++ rest)).crcStored
      = (sectionAt (sectionView c pa tier ++ rest)).crcComputed := by
    have hfront : (sectionView c pa tier ++ rest).take (crcPlace (sectionView c pa tier ++ rest))
        = sectionFront c pa tier := by
      rw [hp.take_crcPlace, List.append_nil]
      rfl
    exact hp.crcStored_eq.trans ((beValue_be32 (BitVec.isLt _)).trans (by rw [← hfront]; rfl))
  have hat := hp.sectionAt_eq
  have hlen := c.bodyView_length_le
  have h1 : (headerView c.bodyView.length c.typeByte pa tier).getD 1 0#8
      = BitVec.ofNat 8 (0x30 + (17 + c.bodyView.length) / 256) := rfl
  have h4 : (headerView c.bodyView.length c.typeByte pa tier).getD 4 0#8 = BitVec.ofNat 8 (pa / 2 ^ 32) := rfl
  have h10 : (headerView c.bodyView.length c.typeByte pa tier).getD 10 0#8 = BitVec.ofNat 8 (tier / 16) := rfl
  have h11 : (headerView c.bodyView.length c.typeByte pa tier).getD 11 0#8
      = BitVec.ofNat 8 (tier % 16 * 16 + (1 + c.bodyView.length) / 256) := rfl
  have hpts : ((headerView c.bodyView.length c.typeByte pa tier).drop 4).take 5
      = BitVec.ofNat 8 (pa / 2 ^ 32) :: be32 pa := rfl
  rw [decodeSection_sectionView] at hu
  rw [h1, h4, h10, h11, hpts, value33_ptsBytes hpa] at hat
  simp only [BitVec.toNat_ofNat] at hat
  refine ⟨t, u, sectionView c pa tier, sectionAt (sectionView c pa tier ++ rest), ht, ?_, hcommand,
    congrArg DecodedSection.ptsAdjustment hat, (congrArg DecodedSection.tier hat).trans (by dsimp only; omega),
    congrArg DecodedSection.tableId hat, (congrArg DecodedSection.sectionFlags4 hat).trans (by dsimp only; omega),
    congrArg DecodedSection.protocolVersion hat,
    (congrArg DecodedSection.encryptedPacket hat).trans (by dsimp only; omega),
    (congrArg DecodedSection.encryptionAlgorithm hat).trans (by dsimp only; omega), congrArg DecodedSection.cwIndex hat,
    congrArg DecodedSection.descriptorLoopLength hat, hstored, crcPlace_sectionView c pa tier rest⟩
  rw [hu, Except.map, Response.ofExcept, Response.ofSection, if_pos hstored]

end Sys2Proof.Machine
end

section
/-! The first bytes of an encoded section (60_exceptions.md R203): no place of a field that comes before the cut is changed by
the cut, and the fields leave no gap. -/

namespace Sys2Proof.Machine

/-! ### The places before a cut -/

theorem getD_take {b : Bytes} {k n : Nat} (h : k < n) : (b.take n).getD k 0#8 = b.getD k 0#8 := by
  rw [List.getD_eq_getElem?_getD, List.getD_eq_getElem?_getD, List.getElem?_take_of_lt h]

/-- A body cut before its flags byte ends, whatever that byte is. -/
theorem firstCut_bodySpansAt_of_lt {k n : Nat} (ct : Nat) (fl : Byte) (h : n < k + 5) :
    firstCut (bodySpansAt k ct fl) n
      = some (if ct = 0x05 then (if n < k + 4 then (k, k + 4) else (k + 4, k + 5)) else (k, k + 5)) := by
  unfold bodySpansAt
  split
  · by_cases h4 : n < k + 4
    · rw [if_pos h4, List.append_assoc, List.cons_append, firstCut_cons, if_pos h4]
    · rw [if_neg h4, List.append_assoc, List.cons_append, firstCut_cons, if_neg h4, List.cons_append, firstCut_cons,
        if_pos h]
  · rw [firstCut_cons, if_pos h]

theorem firstCut_append_of_some {fs gs : List (Nat × Nat)} {n : Nat} {f : Nat × Nat} (h : firstCut fs n = some f) :
    firstCut (fs ++ gs) n = some f := by
  rw [firstCut_append, h, Option.some_or]

section
variable {b : Bytes} {n : Nat}

theorem typeAt_take (hn : 14 ≤ n) : typeAt (b.take n) = typeAt b := by
  rw [typeAt, typeAt, getD_take (by omega)]

/-- Cutting the input at `n` does not change which field after the header is the first that `n` cuts. -/
theorem firstCut_tailSpans_take (hn : 14 ≤ n) : firstCut (tailSpans (b.take n)) n = firstCut (tailSpans b) n := by
  rcases Nat.lt_or_ge n 19 with h19 | h19
  · rw [tailSpans, tailSpans, typeAt_take hn, firstCut_append_of_some (firstCut_bodySpansAt_of_lt _ _ h19),
      firstCut_append_of_some (firstCut_bodySpansAt_of_lt _ _ h19)]
  · have hfl : (b.take n).getD 18 0#8 = b.getD 18 0#8 := getD_take (by omega)
    have hq : loopLengthPlace (b.take n) = loopLengthPlace b := by
      rw [loopLengthPlace, typeAt_take hn, hfl, ← loopLengthPlace]
    rcases Nat.lt_or_ge n (loopLengthPlace b + 2) with hlt | hge
    · have hcut : firstCut [(loopLengthPlace b, loopLengthPlace b + 2)] n
          = some (loopLengthPlace b, loopLengthPlace b + 2) := by
        rw [firstCut_cons, if_pos hlt]
      simp only [tailSpans, typeAt_take hn, hfl, hq, firstCut_append, hcut, Option.some_or]
    · have hn' : loopLengthAt (b.take n) = loopLengthAt b := by
        rw [loopLengthAt, loopLengthAt, hq, getD_take (by omega), getD_take (by omega)]
      have hp : crcPlace (b.take n) = crcPlace b := by rw [crcPlace, hq, hn', ← crcPlace]
      rw [tailSpans, tailSpans, typeAt_take hn, hfl, hq, hn', hp]

/-- Cutting the input at `n` does not change which field is the first that `n` cuts. -/
theorem firstCut_sectionSpans_take : firstCut (sectionSpans (b.take n)) n = firstCut (sectionSpans b) n := by
  have hheader (x : Bytes) : ∃ fs, sectionSpans x = headerSpans ++ fs := by
    by_cases hs : Supported x
    · exact ⟨_, sectionSpans_of_supported hs⟩
    · exact ⟨[], by rw [sectionSpans_of_not_supported hs, List.append_nil]⟩
  rcases Nat.lt_or_ge n 14 with hn | hn
  · obtain ⟨fs, hfs⟩ := hheader (b.take n)
    obtain ⟨gs, hgs⟩ := hheader b
    obtain ⟨f, hf⟩ := Option.ne_none_iff_exists'.1 fun hnone => hn.not_ge (firstCut_headerSpans_eq_none.1 hnone)
    rw [hfs, hgs, firstCut_append_of_some hf, firstCut_append_of_some hf]
  · by_cases hs : Supported b
    · have hs' : Supported (b.take n) := by rwa [Supported, typeAt_take hn]
      rw [sectionSpans_of_supported hs, sectionSpans_of_supported hs', firstCut_append, firstCut_append,
        firstCut_tailSpans_take hn]
    · have hs' : ¬Supported (b.take n) := by rwa [Supported, typeAt_take hn]
      rw [sectionSpans_of_not_supported hs, sectionSpans_of_not_supported hs']

end

/-! ### No gap between the fields -/

/-- Fields of which the first starts at or before `m`, and every other at or before the end of the one before it. -/
def Gapless : Nat → List (Nat × Nat) → Prop
  | _, [] => True
  | m, f :: fs => f.1 ≤ m ∧ Gapless f.2 fs

/-- In fields without a gap, the first that is cut starts before the cut. -/
theorem firstCut_of_gapless {m n k e : Nat} {fs : List (Nat × Nat)} (hm : m ≤ n) (hfs : Gapless m fs)
    (h : firstCut fs n = some (k, e)) : k ≤ n ∧ n < e := by
  induction fs generalizing m with
  | nil => cases h
  | cons f fs ih =>
    obtain ⟨hf, hrest⟩ := hfs
    rw [firstCut_cons] at h
    split at h
    · next hlt =>
      cases h
      exact ⟨hf.trans hm, hlt⟩
    · exact ih (by omega) hrest h

theorem gapless_byteSpans {k m : Nat} {gs : List (Nat × Nat)} (hgs : Gapless (k + m) gs) :
    Gapless k (byteSpans k m ++ gs) := by
  induction m generalizing k with
  | zero => exact hgs
  | succ m ih =>
    rw [byteSpans_succ]
    exact ⟨le_rfl, ih (by rwa [Nat.add_assoc, Nat.add_comm 1])⟩

theorem gapless_bodySpansAt {k ct : Nat} {fl : Byte} {gs : List (Nat × Nat)} (hgs : Gapless (k + bodyLength ct fl) gs) :
    Gapless k (bodySpansAt k ct fl ++ gs) := by
  unfold bodySpansAt
  split
  · next hct =>
    rw [bodyLength, if_pos hct] at hgs ⊢
    cases him : fl.getLsbD 3 <;> cases hdf : fl.getLsbD 4 <;>
      simp only [him, hdf, Bool.false_eq_true, if_false, if_true] at hgs <;>
      simpa [Gapless] using hgs
  · next hct =>
    rw [bodyLength, if_neg hct] at hgs
    exact ⟨le_rfl, hgs⟩

theorem gapless_headerSpans {gs : List (Nat × Nat)} (hgs : Gapless 14 gs) : Gapless 0 (headerSpans ++ gs) := by
  simpa [Gapless, headerSpans] using hgs

/-- The fields of a section leave no gap. -/
theorem gapless_sectionSpans (b : Bytes) : Gapless 0 (sectionSpans b) := by
  by_cases hs : Supported b
  · rw [sectionSpans_of_supported hs, tailSpans]
    refine gapless_headerSpans (gapless_bodySpansAt ?_)
    rw [← loopLengthPlace_eq]
    exact ⟨le_rfl, gapless_byteSpans ⟨le_rfl, trivial⟩⟩
  · rw [sectionSpans_of_not_supported hs, ← List.append_nil headerSpans]
    exact gapless_headerSpans trivial

/-! ### The obligation -/

/-- The bound of the first `n` bytes of an encoded section is `n`. -/
theorem sectionBound_take_sectionView {c : SpliceCommandIn} {pa tier n : Nat} (hn : n < (sectionView c pa tier).length) :
    sectionBound ((sectionView c pa tier).take n) = n := by
  have hlen : ((sectionView c pa tier).take n).length = n := by
    rw [List.length_take]
    omega
  rcases Nat.lt_or_ge n 3 with h3 | h3
  · rw [sectionBound, if_pos (by omega), hlen]
  · have hp := sectionView_pieces c pa tier []
    have hsl := sectionLength_sectionView c pa tier
    rw [List.append_nil] at hp
    rw [sectionBound_eq (by omega), getD_take (by omega), getD_take (by omega), hp.getD_header (by decide),
      hp.getD_header (by decide), hsl, hlen]
    omega

/-- Settles O35: the section is cut at `n`, at the field that the whole section has there. -/
theorem everyPrefixOfASectionIsTruncated : Obligations.EveryPrefixOfASectionIsTruncated := by
  intro c pa tier b n h hn
  obtain ⟨-, -, -, rfl⟩ := encodeSection_eq_ok h
  have hs := supported_sectionView c pa tier []
  have hp := crcPlace_sectionView c pa tier []
  rw [List.append_nil] at hs hp
  have hne : firstCut (sectionSpans (sectionView c pa tier)) n ≠ none := fun hnone => by
    have := (firstCut_sectionSpans_eq_none hs).1 hnone
    omega
  obtain ⟨⟨k, e⟩, hcut⟩ := Option.ne_none_iff_exists'.1 hne
  obtain ⟨hk, he⟩ := firstCut_of_gapless (Nat.zero_le n) (gapless_sectionSpans _) hcut
  refine ⟨k, e, hcut, hk, he, decodeSection_of_cut (e := e) ?_⟩
  rw [sectionBound_take_sectionView hn, firstCut_sectionSpans_take, hcut]

end Sys2Proof.Machine
end

section
/-! An encoded section with one bit inverted (43_section_assembler.md R173): which places and bounds the bit moves, and the
CRC where it moves none. -/

namespace Sys2Proof.Machine

/-! ### One bit inverted -/

section
variable {b : Bytes} {n : Nat}

/-- The mask of `flipBit` has one bit set. -/
theorem getMsbD_flipMask : ∀ i < 8, ∀ j < 8, (BitVec.ofNat 8 (2 ^ (7 - i))).getMsbD j = decide (j = i) := by decide

theorem flipBit_length : (flipBit b n).length = b.length := List.length_modify ..

/-- The byte of the bit. -/
theorem getD_flipBit (hn : n < 8 * b.length) :
    (flipBit b n).getD (n / 8) 0#8 = b.getD (n / 8) 0#8 ^^^ BitVec.ofNat 8 (2 ^ (7 - n % 8)) := by
  have hlt : n / 8 < b.length := by omega
  simp [flipBit, List.getD_eq_getElem?_getD, List.getElem?_eq_getElem hlt]

theorem getD_flipBit_of_ne {k : Nat} (h : n / 8 ≠ k) : (flipBit b n).getD k 0#8 = b.getD k 0#8 := by
  simp [flipBit, List.getD_eq_getElem?_getD, h]

theorem bitAt_flipBit_of_ne {m : Nat} (h : m ≠ n) : bitAt (flipBit b n) m = bitAt b m := by
  by_cases hk : n / 8 = m / 8
  · by_cases hn : n / 8 < b.length
    · have hbit : ¬m % 8 = n % 8 := by omega
      rw [bitAt, ← hk, getD_flipBit (by omega), BitVec.getMsbD_xor, getMsbD_flipMask _ (by omega) _ (by omega), bitAt,
        ← hk, decide_eq_false hbit, Bool.xor_false]
    · rw [flipBit, List.modify_eq_self (by omega)]
  · rw [bitAt, bitAt, getD_flipBit_of_ne hk]

theorem bitAt_flipBit (hn : n < 8 * b.length) : bitAt (flipBit b n) n = !bitAt b n := by
  rw [bitAt, getD_flipBit hn, BitVec.getMsbD_xor, getMsbD_flipMask _ (by omega) _ (by omega), bitAt, decide_eq_true rfl,
    Bool.xor_true]

theorem fieldAt_flipBit_of_outside {c w : Nat} (h : n < c ∨ c + w ≤ n) : fieldAt (flipBit b n) c w = fieldAt b c w :=
  fieldAt_congr fun j hj => bitAt_flipBit_of_ne (by omega)

theorem take_flipBit_of_le {k : Nat} (h : 8 * k ≤ n) : (flipBit b n).take k = b.take k := by
  rw [flipBit, List.take_modify, List.modify_eq_self]
  rw [List.length_take]
  omega

theorem take_flipBit (k : Nat) : (flipBit b n).take k = flipBit (b.take k) n := List.take_modify ..

end

/-- Of two byte strings that differ in one bit, the one that has it set has the larger field around it. -/
theorem fieldAt_lt_fieldAt {a b : Bytes} {n c w : Nat} (hc : c ≤ n) (hw : n < c + w)
    (hsame : ∀ m, m ≠ n → bitAt a m = bitAt b m) (ha : bitAt a n = false) (hb : bitAt b n = true) :
    fieldAt a c w < fieldAt b c w := by
  obtain ⟨i, rfl⟩ := Nat.exists_eq_add_of_le hc
  obtain ⟨j, rfl⟩ : ∃ j, w = i + (1 + j) := ⟨w - i - 1, by omega⟩
  have hhigh : fieldAt a c i = fieldAt b c i := fieldAt_congr fun _ _ => hsame _ (by omega)
  have hlow : fieldAt a (c + i + 1) j = fieldAt b (c + i + 1) j := fieldAt_congr fun _ _ => hsame _ (by omega)
  have hpos : 0 < 2 ^ j := Nat.two_pow_pos j
  simp only [fieldAt_add, fieldAt_one, ha, hb, hhigh, hlow, Bool.toNat_false, Bool.toNat_true]
  omega

section
variable {b : Bytes} {n c w : Nat} (hn : n < 8 * b.length) (hc : c ≤ n) (hw : n < c + w)
include hn hc hw

theorem fieldAt_flipBit_lt (h : bitAt b n = true) : fieldAt (flipBit b n) c w < fieldAt b c w :=
  fieldAt_lt_fieldAt hc hw (fun _ hm => bitAt_flipBit_of_ne hm) (by rw [bitAt_flipBit hn, h]; rfl) h

theorem lt_fieldAt_flipBit (h : bitAt b n = false) : fieldAt b c w < fieldAt (flipBit b n) c w :=
  fieldAt_lt_fieldAt hc hw (fun _ hm => (bitAt_flipBit_of_ne hm).symm) h (by rw [bitAt_flipBit hn, h]; rfl)

theorem fieldAt_flipBit_ne : fieldAt (flipBit b n) c w ≠ fieldAt b c w := by
  cases h : bitAt b n
  · exact (lt_fieldAt_flipBit hn hc hw h).ne'
  · exact (fieldAt_flipBit_lt hn hc hw h).ne

end

theorem unpack_eq_split {b : Bytes} {n : Nat} (hn : n < 8 * b.length) :
    unpack b = (unpack b).take n ++ [bitAt b n] ++ (unpack b).drop (n + 1) := by
  have hlt : n < (unpack b).length := by rwa [unpack_length]
  rw [← unpack_getD, List.getD_eq_getElem _ _ hlt, ← List.take_succ_eq_append_getElem hlt, List.take_append_drop]

theorem unpack_flipBit_getElem? {b : Bytes} {n m : Nat} (h : m ≠ n) : (unpack (flipBit b n))[m]? = (unpack b)[m]? := by
  by_cases hm : m < 8 * b.length
  · have hm' : m < 8 * (flipBit b n).length := by rwa [flipBit_length]
    have hbit := bitAt_flipBit_of_ne (b := b) h
    rw [← unpack_getD, ← unpack_getD, List.getD_eq_getElem _ _ (by rwa [unpack_length]),
      List.getD_eq_getElem _ _ (by rwa [unpack_length])] at hbit
    rw [List.getElem?_eq_getElem (by rwa [unpack_length]), List.getElem?_eq_getElem (by rwa [unpack_length]), hbit]
  · rw [List.getElem?_eq_none (by rw [unpack_length, flipBit_length]; omega),
      List.getElem?_eq_none (by rw [unpack_length]; omega)]

/-- One inverted bit changes the CRC (42_crc32.md R155). -/
theorem crc32_flipBit_ne {b : Bytes} {n : Nat} (hn : n < 8 * b.length) : crc32 (flipBit b n) ≠ crc32 b := by
  have hn' : n < 8 * (flipBit b n).length := by rwa [flipBit_length]
  have htake : (unpack (flipBit b n)).take n = (unpack b).take n := by
    apply List.ext_getElem?
    intro m
    rw [List.getElem?_take, List.getElem?_take]
    split
    · exact unpack_flipBit_getElem? (by omega)
    · rfl
  have hdrop : (unpack (flipBit b n)).drop (n + 1) = (unpack b).drop (n + 1) := by
    apply List.ext_getElem?
    intro m
    rw [List.getElem?_drop, List.getElem?_drop]
    exact unpack_flipBit_getElem? (by omega)
  have hflip := unpack_eq_split hn'
  rw [htake, hdrop] at hflip
  refine crcDetectsEveryBurstOfAtMost32Bits _ _ _ _ _ _ hflip (unpack_eq_split hn) rfl (by simp) ?_
  rw [bitAt_flipBit hn]
  simp

/-! ### The places of a section by its bits -/

/-- `sectionBound`, with `section_length` as a field. -/
theorem sectionBound_eq_sectionLimit {b : Bytes} (h : 3 ≤ b.length) : sectionBound b = sectionLimit b := by
  rw [sectionBound_eq h, sectionLimit]
  exact congrArg (fun x => min b.length (3 + x)) (fieldAt_low12 b 1).symm

/-- The loop length stands where the type, `immediate` and `duration_flag` say (30_encoding.md R80). -/
theorem loopLengthPlace_eq_flags (b : Bytes) : loopLengthPlace b
    = 19 + if typeAt b = 0x05 then (if bitAt b 148 then 0 else 5) + (if bitAt b 147 then 5 else 0) else 0 := by
  have him : bitAt b 148 = (b.getD 18 0#8).getLsbD 3 := bitAt_byte b 18 (i := 4) (by decide)
  have hdf : bitAt b 147 = (b.getD 18 0#8).getLsbD 4 := bitAt_byte b 18 (i := 3) (by decide)
  rw [loopLengthPlace_eq, bodyLength, him, hdf]
  split <;> omega

theorem loopLengthAt_eq_fieldAt (b : Bytes) : loopLengthAt b = fieldAt b (8 * loopLengthPlace b) 16 :=
  (fieldAt_two_bytes b _).symm

theorem typeAt_flipBit {b : Bytes} {n : Nat} (h : ¬(104 ≤ n ∧ n < 112)) : typeAt (flipBit b n) = typeAt b := by
  rw [typeAt, typeAt, getD_flipBit_of_ne (by omega)]

/-- Outside the type byte and the two flags the loop length keeps its place. -/
theorem loopLengthPlace_flipBit {b : Bytes} {n : Nat} (ht : ¬(104 ≤ n ∧ n < 112))
    (hf : ¬(typeAt b = 0x05 ∧ (n = 147 ∨ n = 148))) :
    loopLengthPlace (flipBit b n) = loopLengthPlace b := by
  rw [loopLengthPlace_eq_flags, loopLengthPlace_eq_flags, typeAt_flipBit ht]
  by_cases h5 : typeAt b = 0x05
  · obtain ⟨h147, h148⟩ := not_or.1 fun hor => hf ⟨h5, hor⟩
    rw [bitAt_flipBit_of_ne (Ne.symm h147), bitAt_flipBit_of_ne (Ne.symm h148)]
  · rw [if_neg h5, if_neg h5]

theorem exists_truncated {b : Bytes} (hs : Supported b) (h : sectionBound b < crcPlace b + 4) :
    ∃ k, decodeSection b = .error (.truncatedInput k) := by
  have hne : firstCut (sectionSpans b) (sectionBound b) ≠ none := fun hnone =>
    h.not_ge ((firstCut_sectionSpans_eq_none hs).1 hnone)
  obtain ⟨⟨k, e⟩, hcut⟩ := Option.ne_none_iff_exists'.1 hne
  exact ⟨k, decodeSection_of_cut hcut⟩

/-! ### A section that decodes OK -/

/-- What one bit more or less is held against: a section with an empty loop, its end at its bound, its CRC right, and 1 bits
in the first byte of a splice_time or break_duration that ends its body. -/
structure Intact (b : Bytes) : Prop where
  supported : Supported b
  loopLength : loopLengthAt b = 0
  length : crcPlace b + 4 = b.length
  sectionLength : 3 + fieldAt b 12 12 = b.length
  crc : fieldAt b (8 * crcPlace b) 32 = (crc32 (b.take (crcPlace b))).toNat
  last : 24 ≤ loopLengthPlace b → 0x7E ≤ (b.getD (loopLengthPlace b - 5) 0#8).toNat

/-- A splice_time or break_duration starts with six 1 bits after its first (30_encoding.md R75, R76). -/
theorem breakDurationView_getD_ge (ar : Bool) {d : Nat} (h : d < 2 ^ 33) :
    0x7E ≤ ((breakDurationView ar d).getD 0 0#8).toNat := by
  have hbyte : ∀ a : Bool, ∀ t < 2, 0x7E ≤ (BitVec.ofNat 8 (a.toNat * 0x80 + 0x7E + t)).toNat := by decide
  exact hbyte ar _ (by omega)

/-- A body of more than its five first bytes ends in a splice_time or break_duration. -/
theorem SpliceCommandIn.bodyView_getD_ge {c : SpliceCommandIn} (hc : c.firstOverflow = none)
    (h : 10 ≤ c.bodyView.length) : 0x7E ≤ (c.bodyView.getD (c.bodyView.length - 5) 0#8).toNat := by
  have hlast (xs : Bytes) (ar : Bool) {d : Nat} (hd : d < 2 ^ 33) :
      0x7E ≤ ((xs ++ breakDurationView ar d).getD ((xs ++ breakDurationView ar d).length - 5) 0#8).toNat := by
    rw [List.length_append, breakDurationView_length, Nat.add_sub_cancel, List.getD_append_right _ _ _ _ le_rfl,
      Nat.sub_self]
    exact breakDurationView_getD_ge ar hd
  cases c with
  | timeSignal pts => exact absurd h (by rw [bodyView, spliceTimeView_length]; decide)
  | insert i =>
    have hfits := SpliceCommandIn.fitsWire_iff.2 hc
    simp only [SpliceCommandIn.fitsWire, SpliceInsertIn.fitsWire, Bool.and_eq_true, Bool.or_eq_true, fits_eq_true,
      Bool.not_eq_true'] at hfits
    obtain ⟨⟨-, hpts⟩, hdur⟩ := hfits
    cases hdf : i.durationFlag with
    | true =>
      rw [bodyView, insertBodyView, if_pos hdf]
      exact hlast _ _ (hdur.resolve_left (by simp [hdf]))
    | false =>
      cases him : i.immediate with
      | true => exact absurd h (by rw [bodyView, insertBodyView_length, him, hdf]; decide)
      | false =>
        rw [bodyView, insertBodyView, if_neg (by simp [him]), if_neg (by simp [hdf]), List.append_nil]
        exact hlast _ true (hpts.resolve_left (by simp [him]))

theorem sectionView_intact {c : SpliceCommandIn} (pa tier : Nat) (hc : c.firstOverflow = none) :
    Intact (sectionView c pa tier) := by
  have hp := sectionView_pieces c pa tier []
  have hs := supported_sectionView c pa tier []
  have hlen := crcPlace_sectionView c pa tier []
  rw [List.append_nil] at hp hs hlen
  refine ⟨hs, hp.loopLengthAt_eq, hlen, ?_, ?_, fun h => ?_⟩
  · rw [hp.sectionLength_eq, sectionLength_sectionView]
  · rw [hp.crcStored_eq, hp.take_crcPlace, beValue_be32 (BitVec.isLt _), List.append_nil]
    rfl
  · rw [hp.loopLengthPlace_eq] at h ⊢
    rw [Nat.add_sub_assoc (by omega), hp.getD_body (by omega)]
    exact SpliceCommandIn.bodyView_getD_ge hc (by omega)

namespace Intact

variable {b : Bytes} {n : Nat} (h : Intact b) (hn : n < 8 * b.length)
include h

theorem place : b.length = loopLengthPlace b + 6 := by
  have hp : crcPlace b = loopLengthPlace b + 2 + loopLengthAt b := rfl
  have := h.loopLength
  have := h.length
  omega

theorem length_ge : 25 ≤ b.length := by
  have := h.place
  have := loopLengthPlace_ge b
  omega

theorem length_le : b.length ≤ 35 := by
  have hq := loopLengthPlace_eq_flags b
  have := h.place
  split_ifs at hq <;> omega

theorem sectionBound_flipBit : sectionBound (flipBit b n) = min b.length (3 + fieldAt (flipBit b n) 12 12) := by
  rw [sectionBound_eq_sectionLimit (by rw [flipBit_length]; have := h.length_ge; omega), sectionLimit, flipBit_length]

theorem sectionBound_flipBit_le : sectionBound (flipBit b n) ≤ b.length := by
  rw [h.sectionBound_flipBit]
  exact min_le_left _ _

theorem supported_flipBit (ht : ¬(104 ≤ n ∧ n < 112)) : Supported (flipBit b n) := by
  rw [Supported, typeAt_flipBit ht]
  exact h.supported

include hn

/-- A 1 bit of `section_length` moves the bound before the section's end; no other bit moves it. -/
theorem sectionBound_flipBit_lt (h12 : 12 ≤ n) (h24 : n < 24) (hbit : bitAt b n = true) :
    sectionBound (flipBit b n) < b.length := by
  have hlt := fieldAt_flipBit_lt (w := 12) hn h12 h24 hbit
  have := h.sectionLength
  rw [h.sectionBound_flipBit]
  omega

theorem sectionBound_flipBit_eq (hl : ¬(12 ≤ n ∧ n < 24 ∧ bitAt b n = true)) : sectionBound (flipBit b n) = b.length := by
  have hsl := h.sectionLength
  have hle : fieldAt b 12 12 ≤ fieldAt (flipBit b n) 12 12 := by
    by_cases hin : 12 ≤ n ∧ n < 24
    · have hbit : bitAt b n = false := by
        rw [← Bool.not_eq_true]
        exact fun ht => hl ⟨hin.1, hin.2, ht⟩
      exact (lt_fieldAt_flipBit hn hin.1 hin.2 hbit).le
    · exact (fieldAt_flipBit_of_outside (by omega)).ge
  rw [h.sectionBound_flipBit]
  omega

/-! ### What each bit does -/

/-- A type with one bit inverted is not supported (43_section_assembler.md R173). -/
theorem decodeSection_flipBit_type (h104 : 104 ≤ n) (h112 : n < 112) :
    ∃ ct, decodeSection (flipBit b n) = .error (.unsupportedCommandType ct) := by
  have hbyte : ∀ x ∈ [0x05#8, 0x06#8], ∀ j < 8,
      (x ^^^ BitVec.ofNat 8 (2 ^ (7 - j))) ≠ 0x05#8 ∧ (x ^^^ BitVec.ofNat 8 (2 ^ (7 - j))) ≠ 0x06#8 := by decide
  have hx : b.getD 13 0#8 ∈ [0x05#8, 0x06#8] := by
    rcases h.supported with hs | hs
    · rw [show b.getD 13 0#8 = 0x05#8 from BitVec.eq_of_toNat_eq hs]
      simp
    · rw [show b.getD 13 0#8 = 0x06#8 from BitVec.eq_of_toNat_eq hs]
      simp
  obtain ⟨h5, h6⟩ := hbyte _ hx (n % 8) (Nat.mod_lt _ (by decide))
  have hflip := getD_flipBit hn
  rw [show n / 8 = 13 by omega] at hflip
  have hns : ¬Supported (flipBit b n) := by
    rw [Supported, typeAt, hflip]
    exact not_or.2 ⟨fun e => h5 (BitVec.eq_of_toNat_eq e), fun e => h6 (BitVec.eq_of_toNat_eq e)⟩
  have hcut : firstCut headerSpans (sectionBound (flipBit b n)) = none := by
    rw [firstCut_headerSpans_eq_none, h.sectionBound_flipBit_eq hn (by omega)]
    have := h.length_ge
    omega
  refine ⟨typeAt (flipBit b n), ?_⟩
  rw [decodeSection_of_not_supported hns, sectionSpans_of_not_supported hns, hcut, orTruncated_none]

/-- A descriptor loop of any length does not fit. -/
theorem crcPlace_flipBit_loopLength (hlo : 8 * (b.length - 6) ≤ n) (hhi : n < 8 * (b.length - 4)) :
    b.length < crcPlace (flipBit b n) + 4 := by
  have hq := h.place
  have hge := h.length_ge
  have hplace := loopLengthPlace_flipBit (b := b) (n := n) (by omega) (by omega)
  have hne : fieldAt (flipBit b n) (8 * loopLengthPlace b) 16 ≠ fieldAt b (8 * loopLengthPlace b) 16 :=
    fieldAt_flipBit_ne hn (by omega) (by omega)
  rw [← loopLengthAt_eq_fieldAt, h.loopLength, ← hplace, ← loopLengthAt_eq_fieldAt] at hne
  rw [crcPlace, hplace]
  omega

/-- With one of the two flags inverted, the body is five bytes longer than the section has, or what is read as the loop length
is the first bytes of the last splice_time or break_duration, a length that the section does not have either. -/
theorem crcPlace_flipBit_flags (h5 : typeAt b = 0x05) (hf : n = 147 ∨ n = 148) :
    b.length < crcPlace (flipBit b n) + 4 := by
  have hplace : loopLengthPlace (flipBit b n) = loopLengthPlace b + 5
      ∨ loopLengthPlace (flipBit b n) + 5 = loopLengthPlace b := by
    have hflip := bitAt_flipBit hn
    rw [loopLengthPlace_eq_flags, loopLengthPlace_eq_flags, typeAt_flipBit (by omega), if_pos h5, if_pos h5]
    rcases hf with rfl | rfl
    · rw [hflip, bitAt_flipBit_of_ne (by decide)]
      cases bitAt b 147 <;> simp <;> omega
    · rw [hflip, bitAt_flipBit_of_ne (by decide)]
      cases bitAt b 148 <;> simp <;> omega
  have hq := h.place
  have hp : crcPlace (flipBit b n) = loopLengthPlace (flipBit b n) + 2 + loopLengthAt (flipBit b n) := rfl
  rcases hplace with hlong | hshort
  · omega
  · have hge := loopLengthPlace_ge (flipBit b n)
    have hle := h.length_le
    have hlast := h.last (by omega)
    rw [← hshort, Nat.add_sub_cancel, ← getD_flipBit_of_ne (n := n) (by omega)] at hlast
    rw [loopLengthAt] at hp
    omega

/-- Where the bit moves nothing, the section parses, and its CRCs differ. -/
theorem decodeSection_flipBit_crc (ht : ¬(104 ≤ n ∧ n < 112)) (hf : ¬(typeAt b = 0x05 ∧ (n = 147 ∨ n = 148)))
    (hloop : ¬(8 * (b.length - 6) ≤ n ∧ n < 8 * (b.length - 4))) (hl : ¬(12 ≤ n ∧ n < 24 ∧ bitAt b n = true)) :
    ∃ d, decodeSection (flipBit b n) = .ok d ∧ d.crcStored ≠ d.crcComputed := by
  have hq := h.place
  have hlen := h.length
  have hplace := loopLengthPlace_flipBit ht hf
  have hll : loopLengthAt (flipBit b n) = loopLengthAt b := by
    rw [loopLengthAt_eq_fieldAt, loopLengthAt_eq_fieldAt, hplace]
    exact fieldAt_flipBit_of_outside (by omega)
  have hp : crcPlace (flipBit b n) = crcPlace b := by rw [crcPlace, hplace, hll, ← crcPlace]
  refine ⟨sectionAt (flipBit b n), decodeSection_eq_ok.2 ⟨h.supported_flipBit ht, ?_, rfl⟩, ?_⟩
  · rw [hp, hlen, h.sectionBound_flipBit_eq hn hl]
  · change fieldAt (flipBit b n) (8 * crcPlace (flipBit b n)) 32
      ≠ (crc32 ((flipBit b n).take (crcPlace (flipBit b n)))).toNat
    rw [hp]
    rcases Nat.lt_or_ge n (8 * crcPlace b) with hfront | hcrc
    · rw [fieldAt_flipBit_of_outside (.inl hfront), h.crc, take_flipBit]
      refine fun e => crc32_flipBit_ne ?_ (BitVec.eq_of_toNat_eq e.symm)
      rw [List.length_take]
      omega
    · rw [take_flipBit_of_le hcrc, ← h.crc]
      exact fieldAt_flipBit_ne hn hcrc (by omega)

end Intact

/-! ### The obligation -/

/-- Settles O37: the bit moves the type, the end of the section, its bound, or none of them. -/
theorem oneFlippedBitNeverDecodesOk : Obligations.OneFlippedBitNeverDecodesOk := by
  intro s c pa tier b n hb hn inLoopLength inFlags inLength
  obtain ⟨hc, -, -, rfl⟩ := encodeSection_eq_ok hb
  have h := sectionView_intact pa tier hc
  have hge := h.length_ge
  have hinsert : (∃ i, c = .insert i) ↔ typeAt (sectionView c pa tier) = 0x05 := by
    have htype := typeAt_sectionView c pa tier []
    rw [List.append_nil] at htype
    rw [htype]
    cases c <;> simp [SpliceCommandIn.typeByte, Config.ctSpliceInsert, Config.ctTimeSignal]
  obtain ⟨t, ht⟩ := issue_saDecode s (flipBit (sectionView c pa tier) n)
  refine ⟨t, _, ht, fun ⟨h104, h112⟩ => ?_, fun hmoved => ?_, fun htype hstays => ?_⟩
  · obtain ⟨ct, he⟩ := h.decodeSection_flipBit_type hn h104 h112
    rw [he]
    rfl
  · have htrunc : ∃ k, decodeSection (flipBit (sectionView c pa tier) n) = .error (.truncatedInput k) := by
      have hbound := h.sectionBound_flipBit_le (n := n)
      rcases hmoved with ⟨hlo, hhi⟩ | ⟨hi, hf⟩ | ⟨h12, h24, hbit⟩
      · exact exists_truncated (h.supported_flipBit (by omega))
          (hbound.trans_lt (h.crcPlace_flipBit_loopLength hn hlo hhi))
      · exact exists_truncated (h.supported_flipBit (by omega))
          (hbound.trans_lt (h.crcPlace_flipBit_flags hn (hinsert.1 hi) hf))
      · have hplace := loopLengthPlace_flipBit (b := sectionView c pa tier) (n := n) (by omega) (by omega)
        have hlt := h.sectionBound_flipBit_lt hn h12 h24 hbit
        have hq := h.place
        refine exists_truncated (h.supported_flipBit (by omega)) ?_
        rw [crcPlace, hplace]
        omega
    obtain ⟨k, he⟩ := htrunc
    rw [he]
    rfl
  · obtain ⟨hloop, hrest⟩ := not_or.1 hstays
    obtain ⟨hflags, hlength⟩ := not_or.1 hrest
    obtain ⟨d, hd, hne⟩ :=
      h.decodeSection_flipBit_crc hn htype (fun ⟨h5, hf⟩ => hflags ⟨hinsert.2 h5, hf⟩) hloop hlength
    rw [hd]
    exact Response.ofSection_status_of_ne hne

end Sys2Proof.Machine
end
